-- ==== Sys2Proof/Word.lean ====
section
/-! DEFINITION. The 32-bit word of the ports, the binary32 scalar and the complex sample (00_scope.md R10, R11, R12). -/

namespace Sys2Proof

/-- A word of a port or of the register file: 32 bits, bit 0 the least significant (R10). -/
abbrev Word := BitVec 32

/-- A datapath scalar `Sc`: the bit pattern of an IEEE 754 binary32 (R11). Its arithmetic is in
`Machine/Numerics.lean`. -/
abbrev Sc := BitVec 32

/-- A complex scalar `Cx` (R12): the in-phase component `re` and the quadrature component `im`. -/
structure Cx where
  re : Sc
  im : Sc
deriving DecidableEq, Repr, Inhabited

/-- `(0, 0)`. -/
def Cx.zero : Cx := ⟨0, 0⟩

end Sys2Proof
end

