-- ==== Sys2Proof/Config.lean ====
section
/-! DEFINITION. The parameters of a block instance (00_scope.md R8), held as plain data in the state, and the fields of the
numerics record `NUM` (R20) about which the spec assumes nothing: opaque constants, the model's free values. -/

namespace Sys2Proof

/-! ## Parameters -/

/-- WINDOW_KIND[u] (R8, R144, R145), or a ROM taken as configuration (R144: "A model may take the ROM contents
as configuration"): `table` lists one tap vector for each chunk size in use, found by its length. -/
inductive WindowKind where
  | kaiser
  | hann
  | table (roms : List (List Sc))
deriving DecidableEq, Repr

/-- A FIR ROM by the formula of R175, or taken as configuration "with those three properties" (R175, R176, R266): `table`
lists one tap vector for each length in use, and `Params.valid` asks for the properties. -/
inductive FirKind where
  | kaiserSinc
  | table (roms : List (List Sc))
deriving DecidableEq, Repr

/-- The Hilbert ROM (R262): the vectors' Hamming formula, or the OPEN ROM as a list of HILB_LEN taps. -/
inductive HilbertKind where
  | hamming
  | table (taps : List Sc)
deriving DecidableEq, Repr

/-- CW_THR_FORMULA (R8, R275; 90_conflicts.md C1). -/
inductive ThrFormula where
  | max
  | sum
deriving DecidableEq, Repr

/-- Parameters of the three spectrogram units and of the datapath (R8). Frequencies are integers in Hz. N_ANF,
C_ANF, B_ANF, C_WF and C_SPEC(z) are computed from these in `Machine/Geometry.lean`, as R8 gives them. -/
structure SpgParams where
  radioChunk : Nat
  fsIq : Nat
  nWf : Nat
  bWf : Nat
  nSpec : Nat
  bSpec : Nat
  anfDecim : Nat
  anfResHz : Nat
  zoomMax : Nat
  kaiserBeta : Sc
  windowSpec : WindowKind
  windowWf : WindowKind
  windowAnf : WindowKind
  epsPwr : Sc
  inMax : Sc
  alpha0Spec : Sc
  alpha0Wf : Sc
  alpha0Anf : Sc
  dcblockAlpha : Sc
  zoomFirM : Nat
  anfFirM : Nat
  firAsDb : Sc
  zoomFir : FirKind
  anfFir : FirKind
deriving DecidableEq, Repr

/-- Parameters of the feed, the level estimator, the S-meter and the ANF tracker (R8). -/
structure FeedParams where
  specPeriodMs : Nat
  wfPeriodMs : Nat
  anfPeriodMs : Nat
  psdDelayInit : BitVec 16
  minmaxDelayTx : BitVec 8
  specCalDb : Sc
  wfCalDb : Sc
  specBeta0 : Sc
  autoPctNum : Nat
  autoPctDen : Nat
  autoBeta : Sc
  headroomDb : Sc
  levelLoDb : Sc
  levelHiDb : Sc
  smeterBeta : Sc
  anfMarginDb : Sc
  /-- ANF_HIST_LEN, the length of the history ring (R53). -/
  anfHistLen : Nat
  anfTopExcl : Nat
  anfDefaultHz : Word
deriving DecidableEq, Repr

/-- Parameters of the CW tone decoder (R8). CW_DLY_LEN is computed from these in `Machine/Geometry.lean`, as R8 gives it. -/
structure CwParams where
  fsAudio : Nat
  dCw : Nat
  fftCw : Nat
  cwBwHz : Nat
  cwFirM : Nat
  cwFir : FirKind
  wCw : WindowKind
  cwWpm : Nat
  cwWpmK : Nat
  cwPeakMarginDb : Sc
  cwNoiseOffsetDb : Sc
  cwSnr0 : Sc
  cwGist0 : Sc
  cwPeakBeta0 : Sc
  cwNoiseBeta0 : Sc
  cwNoiseInitDb : Sc
  cwPeakInitDb : Sc
  cwToneInit : Word
  cwRmsLen : Nat
  cwRmsHop : Nat
  cwThrFormula : ThrFormula
  hilbLen : Nat
  hilbDelay : Nat
  hHilb : HilbertKind
deriving DecidableEq, Repr

/-- A parameter set: "a constant of one block instance: it is fixed before reset and no command changes it"
(R8). OPEN parameters are arguments of the model in this form: a statement for every state is a statement for every
parameter set. -/
structure Params where
  spg : SpgParams
  feed : FeedParams
  cw : CwParams
deriving DecidableEq, Repr

/-! ## The numerics record

`NUM.add`, `sub`, `mul`, `div` and `sqrt` are correctly rounded and are computed in `Machine/Numerics.lean`. The
others "are total functions of their operands alone about which the spec assumes nothing else" (R20). An angle is
given by the exact rational multiple of pi that the formula has; assumption log 2. -/

namespace Config

/-- `NUM.log10` (R20). -/
opaque log10 : Sc → Sc

/-- `NUM.cos` of the angle `pi * num / den` (R20). The operand is the unreduced pair, as the formula in use writes it: one angle
written as two fractions may have two values (DESIGN CHOICE, log 2). -/
opaque cosPi (num : Int) (den : Nat) : Sc

/-- `NUM.sin` of the angle `pi * num / den` (R20), the operand as for `cosPi` (DESIGN CHOICE, log 2). -/
opaque sinPi (num : Int) (den : Nat) : Sc

/-- `NUM.pow` (R20), used by R198 where the rule does not itself give the result. -/
opaque pow (base exponent : Sc) : Sc

/-- `NUM.bessel_i0` (R20). -/
opaque besselI0 : Sc → Sc

/-- Which sum of a rule is being taken; the order of its additions is `NUM`'s (R20, 93_implementation_defined.md U15). The sums
of the two parts of bin `k` of a DFT are `NUM.dft`. -/
inductive SumSite where
  | dftRe (k : Nat)
  | dftIm (k : Nat)
  | firRe
  | firIm
  | hilbert
  | windowEnergy
  | firGain
  | rmsWindow
  | cwInWindow
  | cwTotal
  | anfMean
deriving DecidableEq, Repr

/-- The order of the additions of a sum of `len` values: with `left` values still to be added, the two positions
(taken modulo the number of values there) that are added next (R20, R174). Every order is one such function. -/
opaque sumOrder (site : SumSite) (len left : Nat) : Nat × Nat

/-- Sign and payload of the quiet NaN that a binary32 operation returns when its result is a NaN. The spec's own
rules produce none on admitted inputs (R20). -/
opaque nanBits (x y : Sc) : BitVec 23

/-- Whether a window ROM given as a table, whose energy is not exactly that of R143, meets R143 "to within `NUM`'s
rounding in binary32"; the spec gives no bound. -/
opaque windowRounds (taps : List Sc) (n : Nat) : Bool

/-- Whether a FIR ROM given as a table, whose exact sum is not 1, sums to 1 (R175) within `NUM`'s rounding; the spec gives
no bound. -/
opaque firRounds (taps : List Sc) : Bool

end Config

end Sys2Proof
end

