-- ==== Sys2Proof/Machine/Numerics.lean ====
section
/-! DEFINITION. Binary32 arithmetic (00_scope.md R11, R20): every result is the exact result rounded once, to nearest,
ties to even; and the primitives of R12 to R19 over it. Exact values are integers in units of 2^-149, the least positive
binary32, so that no finite operand is ever approximated. -/

namespace Sys2Proof
namespace Bin32

/-! ## The binary32 format -/

/-- Bits 30:23, the biased exponent. -/
def expField (x : Sc) : Nat := x.toNat / 2 ^ 23 % 256

/-- Bits 22:0, the fraction. -/
def fracField (x : Sc) : Nat := x.toNat % 2 ^ 23

/-- Bit 31, the sign. -/
def isNeg (x : Sc) : Bool := x.msb

/-- Not an infinity and not a NaN. -/
def isFinite (x : Sc) : Bool := expField x != 255

/-- A NaN. -/
def isNan (x : Sc) : Bool := expField x == 255 && fracField x != 0

/-- An infinity. -/
def isInf (x : Sc) : Bool := expField x == 255 && fracField x == 0

/-- A zero of either sign. -/
def isZero (x : Sc) : Bool := x.toNat % 2 ^ 31 == 0

/-- The magnitude of a finite scalar in units of 2^-149, exactly. -/
def mag (x : Sc) : Nat :=
  if expField x = 0 then fracField x else (2 ^ 23 + fracField x) * 2 ^ (expField x - 1)

/-- The value of a finite scalar in units of 2^-149, exactly. -/
def fix (x : Sc) : Int := if isNeg x then -(mag x : Int) else (mag x : Int)

/-- `x` with the other sign. -/
def neg (x : Sc) : Sc := x ^^^ 0x80000000#32

/-- The infinity of a sign. -/
def inf (negative : Bool) : Sc := if negative then 0xFF800000#32 else 0x7F800000#32

/-- The quiet NaN of an operation on `x` and `y`: its sign and payload are open (assumption log 3). -/
def nanOf (x y : Sc) : Sc :=
  let b := Config.nanBits x y
  (if b.msb then 0xFFC00000#32 else 0x7FC00000#32) ||| (b.setWidth 22).setWidth 32

/-! ## Rounding -/

/-- The nearest integer to `n / d`, ties to even. -/
def divEven (n d : Nat) : Nat :=
  let q := n / d
  let r := n % d
  if 2 * r < d then q
  else if d < 2 * r then q + 1
  else q + q % 2

/-- The bits, without sign, of the binary32 nearest to `n / d` units of 2^-149, ties to even; the infinity beyond
the largest finite one. `j` is how far the quantum lies above 2^-149. -/
def roundBits (n d : Nat) : Nat :=
  let j := Nat.log2 (n / d) - 23
  min (divEven n (d * 2 ^ j) + j * 2 ^ 23) 0x7F800000

/-- The rounded scalar of a sign and a magnitude of `n / d` units of 2^-149. -/
def pack (negative : Bool) (n d : Nat) : Sc :=
  let b := BitVec.ofNat 32 (roundBits n d)
  if negative then b ||| 0x80000000#32 else b

/-- Floor of the square root, bit by bit from bit `b - 1` down, starting from `acc`. -/
def isqrtFrom (v : Nat) : Nat → Nat → Nat
  | 0, acc => acc
  | b + 1, acc =>
    let c := acc + 2 ^ b
    if c * c ≤ v then isqrtFrom v b c else isqrtFrom v b acc

/-- Floor of the square root of a `v` below 2^432. -/
def isqrt (v : Nat) : Nat := isqrtFrom v 216 0

/-! ## `NUM.add`, `sub`, `mul`, `div`, `sqrt` (R20) -/

/-- `NUM.add`. An exact zero sum is +0 unless both operands are negative (IEEE 754, round to nearest). -/
def add (x y : Sc) : Sc :=
  if isNan x || isNan y then nanOf x y
  else if isInf x then (if isInf y && isNeg x != isNeg y then nanOf x y else x)
  else if isInf y then y
  else
    let s := fix x + fix y
    if s = 0 then pack (isNeg x && isNeg y) 0 1
    else pack (decide (s < 0)) s.natAbs 1

/-- `NUM.sub`. -/
def sub (x y : Sc) : Sc := if isNan y then nanOf x y else add x (neg y)

/-- `NUM.mul`. -/
def mul (x y : Sc) : Sc :=
  let s := isNeg x != isNeg y
  if isNan x || isNan y then nanOf x y
  else if isInf x then (if isZero y then nanOf x y else inf s)
  else if isInf y then (if isZero x then nanOf x y else inf s)
  else pack s (mag x * mag y) (2 ^ 149)

/-- `NUM.div`. -/
def div (x y : Sc) : Sc :=
  let s := isNeg x != isNeg y
  if isNan x || isNan y then nanOf x y
  else if isInf x then (if isInf y then nanOf x y else inf s)
  else if isInf y then pack s 0 1
  else if isZero y then (if isZero x then nanOf x y else inf s)
  else pack s (mag x * 2 ^ 149) (mag y)

/-- `NUM.sqrt`. The half-unit added to an inexact floor keeps the later rounding on the right side. -/
def sqrt (x : Sc) : Sc :=
  if isNan x then nanOf x x
  else if isZero x then x
  else if isNeg x then nanOf x x
  else if isInf x then x
  else
    let v := mag x * 2 ^ 149
    let r := isqrt v
    pack false (2 * r + (if r * r = v then 0 else 1)) 2

/-! ## Integers as scalars, each rounded once -/

/-- The quotient of two integers, `d > 0`, as a scalar. -/
def ofRatio (n : Int) (d : Nat) : Sc := pack (decide (n < 0)) (n.natAbs * 2 ^ 149) d

/-- An integer as a scalar. -/
def ofInt (n : Int) : Sc := ofRatio n 1

/-- The quotient of a scalar by a positive integer, rounded once. -/
def divNat (x : Sc) (n : Nat) : Sc :=
  if isFinite x && n != 0 then pack (isNeg x) (mag x) n else div x (ofInt n)

/-! ## Order -/

/-- A key that orders every scalar but the NaNs as its real value; both zeros have key 0. -/
def orderKey (x : Sc) : Int :=
  if isNeg x then -((x.toNat % 2 ^ 31 : Nat) : Int) else ((x.toNat % 2 ^ 31 : Nat) : Int)

/-- `x < y` on the values; false when either is a NaN. -/
def lt (x y : Sc) : Bool := !isNan x && !isNan y && decide (orderKey x < orderKey y)

/-- `x ≤ y` on the values; false when either is a NaN. -/
def le (x y : Sc) : Bool := !isNan x && !isNan y && decide (orderKey x ≤ orderKey y)

/-- The greater of two scalars; the other one when one is a NaN (IEEE 754 `maxNum`; log 3). -/
def maxNum (x y : Sc) : Sc :=
  if isNan x then y else if isNan y then x else if lt x y then y else x

/-- The lesser of two scalars; the other one when one is a NaN (IEEE 754 `minNum`; log 3). -/
def minNum (x y : Sc) : Sc :=
  if isNan x then y else if isNan y then x else if lt y x then y else x

/-- `clamp(x, lo, hi) = min(max(x, lo), hi)` (R14). -/
def clamp (x lo hi : Sc) : Sc := minNum (maxNum x lo) hi

/-! ## Constants -/

/-- 1.0. -/
def one : Sc := 0x3F800000#32
/-- -1.0. -/
def minusOne : Sc := 0xBF800000#32
/-- 2.0. -/
def two : Sc := 0x40000000#32
/-- 0.5. -/
def half : Sc := 0x3F000000#32
/-- 10.0. -/
def ten : Sc := 0x41200000#32
/-- The binary32 nearest to pi. -/
def pi : Sc := 0x40490FDB#32

/-! ## Primitives of 00_scope.md -/

/-- `0 ≤ x ≤ 1`. -/
def inUnit (x : Sc) : Bool := le 0 x && le x one

/-- An admitted scalar: finite and of magnitude at most IN_MAX (R21). -/
def admitted (inMax x : Sc) : Bool := isFinite x && decide (mag x ≤ mag inMax)

/-- `lpf(y, x, beta) = beta * y + (1 - beta) * x` (R16). -/
def lpf (y x beta : Sc) : Sc := add (mul beta y) (mul (sub one beta) x)

/-- `dB(p) = 10 * log10(max(p, EPS_PWR))` (R15). -/
def dB (epsPwr p : Sc) : Sc := mul ten (Config.log10 (maxNum p epsPwr))

/-- Sum in the order that `next` gives; `next k` picks the two of the `k` values left that are added next. -/
def sumBy (next : Nat → Nat × Nat) : Nat → List Sc → Sc
  | 0, xs => xs.headD 0
  | _ + 1, [] => 0
  | _ + 1, [x] => x
  | fuel + 1, xs =>
    let i := (next xs.length).1 % xs.length
    let rest := xs.eraseIdx i
    let j := (next xs.length).2 % rest.length
    sumBy next fuel (add (xs.getD i 0) (rest.getD j 0) :: rest.eraseIdx j)

/-- The sum of a list of scalars, in `NUM`'s order (R20, R174). -/
def sum (site : Config.SumSite) (xs : List Sc) : Sc :=
  sumBy (Config.sumOrder site xs.length) xs.length xs

/-- Ascending insertion (R221). -/
def insertAsc (x : Sc) : List Sc → List Sc
  | [] => [x]
  | y :: ys => if le x y then x :: y :: ys else y :: insertAsc x ys

/-- A copy sorted in ascending order (R221). -/
def sortAsc (xs : List Sc) : List Sc := xs.foldr insertAsc []

/-- The greatest of a list (R232, R273); 0 for the empty list, which no rule takes. -/
def maxOf : List Sc → Sc
  | [] => 0
  | x :: xs => xs.foldl maxNum x

/-- The least of a list (R273); 0 for the empty list, which no rule takes. -/
def minOf : List Sc → Sc
  | [] => 0
  | x :: xs => xs.foldl minNum x

/-- `argmax(v, lo, hi)`: the least index in `lo..hi` of a greatest element (R17). -/
def argmax (v : List Sc) (lo hi : Nat) : Nat :=
  (List.range (hi - lo)).foldl
    (fun best k => if lt (v.getD best 0) (v.getD (lo + 1 + k) 0) then lo + 1 + k else best) lo

/-! ## Complex scalars (R12) -/

/-- `a + b`. -/
def cadd (a b : Cx) : Cx := ⟨add a.re b.re, add a.im b.im⟩

/-- `a - b`. -/
def csub (a b : Cx) : Cx := ⟨sub a.re b.re, sub a.im b.im⟩

/-- `s * a` for a scalar `s`. -/
def scale (s : Sc) (a : Cx) : Cx := ⟨mul s a.re, mul s a.im⟩

/-- `a * b`. -/
def cmul (a b : Cx) : Cx := ⟨sub (mul a.re b.re) (mul a.im b.im), add (mul a.re b.im) (mul a.im b.re)⟩

/-- `cis(t) = (cos t, sin t)` of the angle `t = pi * num / den`. -/
def cisPi (num : Int) (den : Nat) : Cx := ⟨Config.cosPi num den, Config.sinPi num den⟩

/-- The sum of a list of complex scalars, each part in `NUM`'s order (R20). -/
def csum (re im : Config.SumSite) (xs : List Cx) : Cx := ⟨sum re (xs.map Cx.re), sum im (xs.map Cx.im)⟩

/-- `|a|^2`. -/
def normSq (a : Cx) : Sc := add (mul a.re a.re) (mul a.im a.im)

/-- `swap(a) = (a.im, a.re)`. -/
def swap (a : Cx) : Cx := ⟨a.im, a.re⟩

/-! ## Rings, shift, transform -/

/-- `push(r, x)`: the oldest element of an age-ordered ring is dropped (R13). -/
def push {α : Type} (r : List α) (x : α) : List α := (r ++ [x]).drop 1

/-- `shift_N(t)[i] = t[(i - N div 2) mod N]` (R19), N the length of `t`. -/
def shift {α : Type} (t : List α) : List α :=
  t.drop (t.length - t.length / 2) ++ t.take (t.length - t.length / 2)

/-- The terms of `DFT_N(x)[k]`: `x[n] * cis(-2*pi*k*n/N)`, n = 0..N-1, N the length of `x` (R18). -/
def dftTerms (x : List Cx) (k : Nat) : List Cx :=
  x.zipIdx.map fun (xn, n) => cmul xn (cisPi (-(2 * (k : Int) * (n : Int))) x.length)

/-- `DFT_N(x)`, N the length of `x`: the sums of the terms, with no scaling (R18), the order of the additions `NUM.dft`'s (R20).
The products are R12's, rounded operation by operation (log 8). -/
def dft (x : List Cx) : List Cx := (List.range x.length).map fun k => csum (.dftRe k) (.dftIm k) (dftTerms x k)

/-- Rounding of a quotient `n / d`, `d > 0`, to the nearest integer, halves away from zero (R14). -/
def roundDiv (n : Int) (d : Nat) : Int :=
  let q : Int := ((2 * n.natAbs + d) / (2 * d) : Nat)
  if n < 0 then -q else q

end Bin32
end Sys2Proof
end

