-- ==== Sys2Proof/Machine/Geometry.lean ====
section
/-! DEFINITION. What follows from the parameters alone (00_scope.md R8, R9): the vector values, derived sizes, legal
zoom factors, tuning words, thresholds, and the validity of a parameter set. -/

namespace Sys2Proof

/-! ## The vector values -/

/-- The values of R8; for a parameter that R8 marks OPEN, the value in brackets, which "is not normative"
(assumption log 1). -/
def Params.vector : Params where
  spg :=
    { radioChunk := 512, fsIq := 100000, nWf := 1024, bWf := 1024, nSpec := 512, bSpec := 512
      anfDecim := 8, anfResHz := 50, zoomMax := 32
      kaiserBeta := 0x40A00000#32
      windowSpec := .kaiser, windowWf := .kaiser, windowAnf := .kaiser
      epsPwr := 0x1E3CE508#32, inMax := 0x49800000#32
      alpha0Spec := 0x3F000000#32, alpha0Wf := 0x3F000000#32, alpha0Anf := 0x3F000000#32
      dcblockAlpha := 0x3C000000#32
      zoomFirM := 4, anfFirM := 4, firAsDb := 0x42700000#32
      zoomFir := .kaiserSinc, anfFir := .kaiserSinc }
  feed :=
    { specPeriodMs := 66, wfPeriodMs := 40, anfPeriodMs := 500, psdDelayInit := 4, minmaxDelayTx := 2
      specCalDb := 0xC1F00000#32, wfCalDb := 0xC1F00000#32, specBeta0 := 0x3F333333#32
      autoPctNum := 15, autoPctDen := 100, autoBeta := 0x3F666666#32
      headroomDb := 0x42400000#32, levelLoDb := 0xC2F20000#32, levelHiDb := 0xC1500000#32
      smeterBeta := 0x3F4CCCCD#32, anfMarginDb := 0x41000000#32, anfHistLen := 3, anfTopExcl := 3
      anfDefaultHz := 3000 }
  cw :=
    { fsAudio := 44100, dCw := 64, fftCw := 128, cwBwHz := 500, cwFirM := 4, cwFir := .kaiserSinc, wCw := .hann
      cwWpm := 30, cwWpmK := 4
      cwPeakMarginDb := 0x40400000#32, cwNoiseOffsetDb := 0x40400000#32
      cwSnr0 := 0x41200000#32, cwGist0 := 0x40400000#32
      cwPeakBeta0 := 0x3F666666#32, cwNoiseBeta0 := 0x3F4CCCCD#32
      cwNoiseInitDb := 0xC2700000#32, cwPeakInitDb := 0xC2700000#32
      cwToneInit := 700, cwRmsLen := 16, cwRmsHop := 4, cwThrFormula := .max
      hilbLen := 31, hilbDelay := 15, hHilb := .hamming }

/-! ## Derived sizes (R8) -/

/-- N_ANF = FS_IQ / (ANF_DECIM * ANF_RES_HZ). -/
def Params.nAnf (p : Params) : Nat := p.spg.fsIq / (p.spg.anfDecim * p.spg.anfResHz)

/-- C_ANF = RADIO_CHUNK / ANF_DECIM. -/
def Params.cAnf (p : Params) : Nat := p.spg.radioChunk / p.spg.anfDecim

/-- B_ANF = max(N_ANF, C_ANF). -/
def Params.bAnf (p : Params) : Nat := max p.nAnf p.cAnf

/-- C_WF = RADIO_CHUNK: the waterfall "always receives full-rate samples" (R8, R192). -/
def Params.cWf (p : Params) : Nat := p.spg.radioChunk

/-- C_SPEC(z) = RADIO_CHUNK / z. -/
def Params.cSpec (p : Params) (z : Nat) : Nat := p.spg.radioChunk / z

/-- L_ZOOM(M) = 2 * M * ZOOM_FIR_M + 1 (R175). -/
def Params.lZoom (p : Params) (m : Nat) : Nat := 2 * m * p.spg.zoomFirM + 1

/-- L_ANF = 2 * ANF_DECIM * ANF_FIR_M + 1 (R176). -/
def Params.lAnf (p : Params) : Nat := 2 * p.spg.anfDecim * p.spg.anfFirM + 1

/-- L_CW = 2 * D_CW * CW_FIR_M + 1 (R266). -/
def Params.lCw (p : Params) : Nat := 2 * p.cw.dCw * p.cw.cwFirM + 1

/-- CW_DLY_LEN = FFT_CW / CW_RMS_HOP: a level is judged one FFT block after it was computed (R269). -/
def Params.cwDlyLen (p : Params) : Nat := p.cw.fftCw / p.cw.cwRmsHop

/-- A legal zoom factor: `1 <= z <= ZOOM_MAX` and `z` divides RADIO_CHUNK (R177). -/
def Params.zoomLegal (p : Params) (z : Nat) : Bool :=
  decide (1 ≤ z) && decide (z ≤ p.spg.zoomMax) && p.spg.radioChunk % z == 0

/-- A legal CW tone: not 0, and `2 * f < FS_AUDIO` (R306). -/
def Params.toneLegal (p : Params) (f : Nat) : Bool := f != 0 && decide (2 * f < p.cw.fsAudio)

/-- `FTW(f) = round(2^32 * f / FS_AUDIO) mod 2^32` (R264). -/
def Params.ftw (p : Params) (f : Nat) : Word := BitVec.ofInt 32 (Bin32.roundDiv ((2 ^ 32 * f : Nat) : Int) p.cw.fsAudio)

/-- `DUR_MS = 1000 * D_CW * CW_RMS_HOP / FS_AUDIO`, one rounding (R278). -/
def Params.durMs (p : Params) : Sc := Bin32.ofRatio ((1000 * p.cw.dCw * p.cw.cwRmsHop : Nat) : Int) p.cw.fsAudio

/-- `PW = round(CW_WPM * CW_WPM_K * FFT_CW * D_CW / FS_AUDIO)`, in bins (R271). -/
def Params.peakWidth (p : Params) : Nat :=
  (Bin32.roundDiv ((p.cw.cwWpm * p.cw.cwWpmK * p.cw.fftCw * p.cw.dCw : Nat) : Int) p.cw.fsAudio).toNat

/-- `K = floor(N_WF * AUTO_PCT_NUM / AUTO_PCT_DEN)` (R221). -/
def Params.percentileIndex (p : Params) : Nat := p.spg.nWf * p.feed.autoPctNum / p.feed.autoPctDen

/-- The pulse threshold of R275 from `snr`, `peak_filtered` and `noise_filtered`. -/
def Params.thresholdPulse (p : Params) (snr pf nf : Sc) : Sc :=
  let lowBound := Bin32.add nf snr
  let m := Bin32.maxNum lowBound (Bin32.sub pf p.cw.cwPeakMarginDb)
  match p.cw.cwThrFormula with
  | .max => m
  | .sum => Bin32.add lowBound m

/-! ## Validity (R9) -/

/-- The tap vector of a given length in a table of ROMs. -/
def tableRom (roms : List (List Sc)) (len : Nat) : Option (List Sc) := roms.find? fun r => r.length == len

/-- Whether the window ROM of `c` taps for an FFT of `n` points meets R143. A formula window meets it by its
normalisation unless its shape is all zero (a Hann shape of 2 taps); a table meets it when its exact energy is
`c / n`, or to within `NUM`'s rounding (R143; assumption log 4). -/
def windowMeets (kind : WindowKind) (c n : Nat) : Bool :=
  match kind with
  | .kaiser => true
  | .hann => c != 2
  | .table roms =>
    match tableRom roms c with
    | none => false
    | some w =>
      w.all Bin32.isFinite
        && ((w.map fun t => Bin32.mag t * Bin32.mag t).sum * n == c * 2 ^ 298 || Config.windowRounds w n)

/-- The window ROMs in use: unit 0 at every legal zoom factor, units 1 and 2, and W_CW (unit energy, R270). -/
def Params.windowsMeet (p : Params) : Bool :=
  (((List.range (p.spg.zoomMax + 1)).filter p.zoomLegal).all fun z =>
      windowMeets p.spg.windowSpec (p.cSpec z) p.spg.nSpec)
    && windowMeets p.spg.windowWf p.cWf p.spg.nWf
    && windowMeets p.spg.windowAnf p.cAnf p.nAnf
    && windowMeets p.cw.wCw p.cw.fftCw p.cw.fftCw

/-- Whether the FIR ROM of `len` taps has the properties that the rules rely on (R175, R176, R266): a formula ROM has them by
its scaling; a table lists that many taps, real and finite, whose exact sum is 1, or is 1 to within `NUM`'s rounding (log 5). -/
def firMeets (kind : FirKind) (len : Nat) : Bool :=
  match kind with
  | .kaiserSinc => true
  | .table roms =>
    match tableRom roms len with
    | none => false
    | some h => h.all Bin32.isFinite && ((h.map Bin32.fix).sum == 2 ^ 149 || Config.firRounds h)

/-- The FIR ROMs in use: the zoom decimator's at every legal factor above 1 (R175), the ANF decimator's (R176) and the CW
decimator's (R266). -/
def Params.firsMeet (p : Params) : Bool :=
  (((List.range (p.spg.zoomMax + 1)).filter fun z => decide (2 ≤ z) && p.zoomLegal z).all fun z =>
      firMeets p.spg.zoomFir (p.lZoom z))
    && firMeets p.spg.anfFir p.lAnf
    && firMeets p.cw.cwFir p.lCw

/-- The Hilbert parameters (R262): HILB_LEN >= 1, 0 <= HILB_DELAY < HILB_LEN, and a table of HILB_LEN real and finite taps. -/
def Params.hilbertMeets (p : Params) : Bool :=
  decide (1 ≤ p.cw.hilbLen) && decide (p.cw.hilbDelay < p.cw.hilbLen)
    && match p.cw.hHilb with
      | .hamming => true
      | .table taps => taps.length == p.cw.hilbLen && taps.all Bin32.isFinite

/-- Validity of a parameter set: the conditions of R9 in its order, then those that R175, R176, R266 and R262 put on the other
ROMs, which R9 does not list (log 5, log 21). Its comparisons are binary32's, so that an infinite EPS_PWR, IN_MAX or CW_GIST0
passes `> 0`, and scalars that R9 does not name may be anything (DESIGN CHOICE, log 32). -/
def Params.valid (p : Params) : Bool :=
  decide (1 ≤ p.spg.radioChunk)
    && p.spg.radioChunk % p.spg.anfDecim == 0
    && p.spg.fsIq % (p.spg.anfDecim * p.spg.anfResHz) == 0 && decide (1 ≤ p.nAnf)
    && decide (1 ≤ p.spg.nSpec) && decide (1 ≤ p.spg.nWf)
    && decide (p.spg.nSpec ≤ p.spg.bSpec) && decide (p.cSpec 1 ≤ p.spg.bSpec)
    && decide (p.spg.nWf ≤ p.spg.bWf) && decide (p.cWf ≤ p.spg.bWf)
    && decide (p.nAnf ≤ p.bAnf) && decide (p.cAnf ≤ p.bAnf)
    && decide (1 ≤ p.spg.zoomMax) && decide (p.spg.zoomMax ≤ p.spg.radioChunk)
    && Bin32.lt 0 p.spg.epsPwr && Bin32.lt 0 p.spg.inMax
    && Bin32.inUnit p.spg.alpha0Spec && Bin32.inUnit p.spg.alpha0Wf && Bin32.inUnit p.spg.alpha0Anf
    && Bin32.lt 0 p.spg.dcblockAlpha && Bin32.lt p.spg.dcblockAlpha Bin32.one
    && Bin32.inUnit p.feed.specBeta0 && Bin32.inUnit p.cw.cwPeakBeta0 && Bin32.inUnit p.cw.cwNoiseBeta0
    && decide (p.feed.autoPctNum < p.feed.autoPctDen)
    && Bin32.le p.feed.levelLoDb (Bin32.sub p.feed.levelHiDb p.feed.headroomDb)
    && Bin32.lt 0 p.cw.cwGist0
    && decide (1 ≤ p.cw.cwRmsLen) && decide (1 ≤ p.cw.cwRmsHop) && p.cw.fftCw % p.cw.cwRmsHop == 0
    && decide (1 ≤ p.cwDlyLen)
    && p.toneLegal p.cw.cwToneInit.toNat
    && decide (1 ≤ p.cw.dCw) && decide (2 ≤ p.cw.fftCw) && p.cw.fftCw % 2 == 0
    && p.windowsMeet
    && p.firsMeet && p.hilbertMeets

end Sys2Proof
end

