-- ==== Sys2Proof/Machine/Parts.lean ====
section
/-! DEFINITION. The parts the state is made of (10_state.md R35 to R60), fault codes (60_exceptions.md R332) and events
(30_encoding.md R122, R123), and each part's value after reset. -/

namespace Sys2Proof
namespace Machine

/-! ## Faults of the block (60_exceptions.md) -/

/-- The fault codes of R332. A fault of the block is not an outcome of Lean's step but state: `raise` latches it
(R331), and the block halts. -/
inductive FaultCode where
  | badOpcode
  | badEncoding
  | badUnit
  | badLength
  | badReg
  | roWrite
  | badValue
  | wrongPort
  | badParam
deriving DecidableEq, Repr

/-- The 8-bit code of a fault (R332); 0 stands for none. -/
def FaultCode.code : FaultCode → BitVec 8
  | .badOpcode => 1
  | .badEncoding => 2
  | .badUnit => 3
  | .badLength => 4
  | .badReg => 5
  | .roWrite => 6
  | .badValue => 7
  | .wrongPort => 8
  | .badParam => 9

/-- `S.run` (R34). -/
inductive RunState where
  | run
  | fault
deriving DecidableEq, Repr

/-! ## Events (30_encoding.md) -/

/-- The events of R122. -/
inductive EventKind where
  | spectrumData
  | waterfallData
  | meterUpdate
  | specMin
  | specMax
  | wfMin
  | wfMax
  | anfFreq
  | cwSignal
  | cwTune
  | rdData
  | psdData
deriving DecidableEq, Repr

/-- The event code EVC (R122). -/
def EventKind.code : EventKind → BitVec 8
  | .spectrumData => 0x81
  | .waterfallData => 0x82
  | .meterUpdate => 0x83
  | .specMin => 0x84
  | .specMax => 0x85
  | .wfMin => 0x86
  | .wfMax => 0x87
  | .anfFreq => 0x88
  | .cwSignal => 0x89
  | .cwTune => 0x8A
  | .rdData => 0x8B
  | .psdData => 0x8C

/-- One event of an event stream (R121, R123): code, UNIT, TX and the payload words; LEN is their number. -/
structure Event where
  kind : EventKind
  unit : BitVec 4
  tx : Bool
  payload : List Word
deriving DecidableEq, Repr

/-- The words of an event as the port carries them: the header of R123, then the payload. -/
def Event.words (e : Event) : List Word :=
  (e.kind.code ++ e.unit ++ (0 : BitVec 3) ++ BitVec.ofBool e.tx ++ BitVec.ofNat 16 e.payload.length) :: e.payload

/-- An event with UNIT 0 and TX 0 (R123). -/
def Event.plain (kind : EventKind) (payload : List Word) : Event := ⟨kind, 0, false, payload⟩

/-! ## Parts of the state -/

/-- The configuration registers that the register file itself holds (R35): the others are mirrors of state
fields. -/
structure CfgRegs where
  /-- 0x01 ZOOM, written by the ZOOM command. -/
  zoom : Word
  /-- 0x02 MODE (R37). -/
  mode : Word
  /-- 0x03 FILTER_LOW, i32 Hz. -/
  filterLow : Word
  /-- 0x04 FILTER_HIGH, i32 Hz. -/
  filterHigh : Word
  /-- 0x05 CW_TONE, written by the CW.TONE command. -/
  cwTone : Word
  /-- 0x06 CW_SNR. -/
  cwSnr : Word
  /-- 0x07 CW_GIST. -/
  cwGist : Word
  /-- 0x08 CW_PEAK_BETA. -/
  cwPeakBeta : Word
  /-- 0x09 CW_NOISE_BETA. -/
  cwNoiseBeta : Word
  /-- 0x0A SPEC_BETA. -/
  specBeta : Word
deriving DecidableEq, Repr

/-- A ChunkedSpgram unit (R41). Its window is a ROM selected by the unit and `c`, see `Machine/Spgram.lean`. -/
structure SpgUnit where
  c : Nat
  n : Nat
  b : Nat
  /-- Already windowed samples, oldest first. -/
  ring : List Cx
  /-- Linear power, natural bin order. -/
  psd : List Sc
  alpha : Sc
  gamma : Sc
  acc : Bool
  /-- `num_transforms`, saturating (R42). -/
  nt : BitVec 32
deriving DecidableEq, Repr

/-- The DC blocker (R43): previous input and previous output. -/
structure DcBlocker where
  x1 : Cx
  y1 : Cx
deriving DecidableEq, Repr

/-- A FIR decimator's delay line, oldest first, and phase (R44, R45, R55, R173). -/
structure Decim where
  dl : List Cx
  ph : Nat
deriving DecidableEq, Repr

/-- The CW decoder behind the decimator (R56 to R60, R62). -/
structure CwState where
  blk : List Cx
  blkN : Nat
  rwin : List Sc
  hopN : Nat
  /-- RMS values in dB, oldest first, at most CW_DLY_LEN. -/
  dly : List Sc
  peakFiltered : Sc
  noiseFiltered : Sc
  thresholdPulse : Sc
  thresholdSilence : Sc
  peakOn : Bool
  peakHz : Sc
deriving DecidableEq, Repr

/-! ## Reset values of the parts (10_state.md) -/

/-- A unit after reset (R41). -/
def SpgUnit.resetOf (c n b : Nat) (alpha0 : Sc) : SpgUnit where
  c := c
  n := n
  b := b
  ring := List.replicate b Cx.zero
  psd := List.replicate n 0
  alpha := alpha0
  gamma := Bin32.sub Bin32.one alpha0
  acc := false
  nt := 0

/-- The CW decoder after reset or `dsp.rst cw`, for the values of CW_SNR and CW_GIST in force (R56 to R60, R62, R304). -/
def CwState.resetOf (p : Params) (snr gist : Sc) : CwState where
  blk := List.replicate p.cw.fftCw Cx.zero
  blkN := 0
  rwin := List.replicate p.cw.cwRmsLen 0
  hopN := 0
  dly := []
  peakFiltered := p.cw.cwPeakInitDb
  noiseFiltered := p.cw.cwNoiseInitDb
  thresholdPulse := p.thresholdPulse snr p.cw.cwPeakInitDb p.cw.cwNoiseInitDb
  thresholdSilence := Bin32.sub (p.thresholdPulse snr p.cw.cwPeakInitDb p.cw.cwNoiseInitDb) gist
  peakOn := false
  peakHz := 0

/-- The registers after reset (R35). -/
def CfgRegs.resetOf (p : Params) : CfgRegs where
  zoom := 1
  mode := 0
  filterLow := 0
  filterHigh := 0
  cwTone := p.cw.cwToneInit
  cwSnr := p.cw.cwSnr0
  cwGist := p.cw.cwGist0
  cwPeakBeta := p.cw.cwPeakBeta0
  cwNoiseBeta := p.cw.cwNoiseBeta0
  specBeta := p.feed.specBeta0

/-- A decimator whose delay line of `len` samples is zero, phase 0. -/
def Decim.zero (len : Nat) : Decim := ⟨List.replicate len Cx.zero, 0⟩

end Machine
end Sys2Proof
end

