-- ==== Sys2Proof/Syntax.lean ====
section
/-! DEFINITION. The commands of 30_encoding.md (R114, R115): one constructor for each row of spec/opcode_table.json. -/

namespace Sys2Proof

/-- The three ports (R110): 0 IQ, 1 AUD, 2 CFG. A port number is encoded in no word. -/
inductive Port where
  | iq
  | aud
  | cfg
deriving DecidableEq, Repr

/-- A command: the header's operand fields and the payload words (R114, R120). Fields hold exactly the
bits the encoding gives them; which values are legal is checked by the command's meaning. -/
inductive Instr where
  /-- NOP, format N (R301). -/
  | nop
  /-- CFG.WR, format AW (R302): register index, value word. -/
  | cfgWr (reg : BitVec 16) (value : Word)
  /-- CFG.RD, format A (R303): register index. -/
  | cfgRd (reg : BitVec 16)
  /-- DSP.RST, format A (R304): domain mask, bit 0 IQ, bit 1 CW. -/
  | dspRst (mask : BitVec 2)
  /-- ZOOM, format A (R305): zoom factor. -/
  | zoom (z : BitVec 16)
  /-- CW.TONE, format A (R306): tone in Hz. -/
  | cwTone (hz : BitVec 16)
  /-- SPG.WRITE, format US (R146): unit selector and the complex samples, (I word, Q word) each. -/
  | spgWrite (unit : BitVec 4) (chunk : List (Word × Word))
  /-- SPG.GETPSD, format U (R149): unit selector. -/
  | spgGetpsd (unit : BitVec 4)
  /-- SPG.SETALPHA, format UW (R153): unit selector, scalar word. -/
  | spgSetalpha (unit : BitVec 4) (v : Word)
  /-- SPG.CLEAR, format U (R154): unit selector. -/
  | spgClear (unit : BitVec 4)
  /-- SPG.RESET, format U (R155): unit selector. -/
  | spgReset (unit : BitVec 4)
  /-- DSP.SAMPLES, format S (R190): transmit flag and the complex samples, (I word, Q word) each. -/
  | dspSamples (tx : Bool) (buf : List (Word × Word))
  /-- AUD.SAMPLES, format S (R260): the sample words, whole (bits 31:16 of each are ignored, R118). -/
  | audSamples (samples : List Word)
deriving DecidableEq, Repr

end Sys2Proof
end

