-- ==== Sys2Proof/Machine/State.lean ====
section
/-! DEFINITION. The state of the block (10_state.md), the environment around it as plain data, the state after reset,
and the fault and refusal reasons. -/

namespace Sys2Proof
namespace Machine

/-! ## The environment (R91, R341) -/

/-- One turn that the environment gives: which agent acts next. A list of turns is one interleaving, and a statement
about every state holds for every interleaving (R91). -/
inductive Turn where
  /-- The time base advances by `d` ms (R344). -/
  | tick (d : Nat)
  /-- A word arrives on a port's command stream (R110, R111). -/
  | arrive (p : Port) (w : Word)
  /-- A port runs its next command, if that is ready (R91, R111). -/
  | port (p : Port)
  /-- The reset input is asserted and released (R360). -/
  | rst
deriving DecidableEq, Repr

/-! ## The state -/

/-- The block's record `S` (R30), the streams of its ports, and the environment's turns. -/
structure State where
  /-- The parameters of this instance (R8); no step changes them. -/
  par : Params
  /-- `S.run` (R34), pin `fault`. -/
  run : RunState
  /-- `S.fault_code` (R34), pins `fault_code[7:0]`. -/
  faultCode : BitVec 8
  /-- `S.time_ms` (R34, R344). -/
  timeMs : BitVec 64
  regs : CfgRegs
  /-- Unit 0 (R40). -/
  spectrum : SpgUnit
  /-- Unit 1 (R40). -/
  waterfall : SpgUnit
  /-- Unit 2 (R40). -/
  anf : SpgUnit
  dcb : DcBlocker
  /-- `S.zdec.M` (R44). -/
  zdecM : Nat
  zdec : Decim
  adec : Decim
  /-- `S.psd_delay` (R47). -/
  psdDelay : BitVec 16
  /-- `S.min_max_delay` (R48). -/
  minMaxDelay : BitVec 8
  /-- `S.last_spec_ms`, `S.last_wf_ms`, `S.last_anf_ms` (R49). -/
  lastSpecMs : BitVec 64
  lastWfMs : BitVec 64
  lastAnfMs : BitVec 64
  /-- `S.spec_lpf`, dB, shifted order (R50). -/
  specLpf : List Sc
  specLpfValid : Bool
  gridMin : Sc
  gridMax : Sc
  meterDb : Sc
  /-- `S.anf_hist`, ANF_HIST_LEN entries, oldest first: i32 Hz, 0 for "no tone" (R53). -/
  anfHist : List Word
  /-- `S.anf_published`, i32 Hz (R53). -/
  anfPublished : Word
  /-- `S.hilb.dl` (R54). -/
  hilbDl : List Sc
  /-- `S.dds.acc`, `S.dds.ftw` (R55). -/
  ddsAcc : BitVec 32
  ddsFtw : BitVec 32
  cwdec : Decim
  cw : CwState
  /-- Words of each command stream not yet consumed (R65, R111). -/
  inIq : List Word
  inAud : List Word
  inCfg : List Word
  /-- What each event stream has carried since reset, oldest first (R65, R121). -/
  outIq : List Event
  outAud : List Event
  outCfg : List Event
  /-- The model's own: the environment's turns still to come. -/
  agenda : List Turn
  /-- The model's own: the port whose command is being executed. -/
  cur : Port
deriving DecidableEq, Repr

/-! ## Reset (70_reset_and_hazards.md R360, R361) -/

/-- The block of parameter set `p` right after hardware reset (R360, R361); in FAULT with BAD_PARAM when `p` is invalid
(R9, R335, R362). No words wait, nothing has been emitted, no turn has been given. -/
def State.resetOf (p : Params) : State where
  par := p
  run := if p.valid then .run else .fault
  faultCode := if p.valid then 0 else FaultCode.badParam.code
  timeMs := 0
  regs := CfgRegs.resetOf p
  spectrum := SpgUnit.resetOf (p.cSpec 1) p.spg.nSpec p.spg.bSpec p.spg.alpha0Spec
  waterfall := SpgUnit.resetOf p.cWf p.spg.nWf p.spg.bWf p.spg.alpha0Wf
  anf := SpgUnit.resetOf p.cAnf p.nAnf p.bAnf p.spg.alpha0Anf
  dcb := ⟨Cx.zero, Cx.zero⟩
  zdecM := 1
  zdec := Decim.zero (p.lZoom 1)
  adec := Decim.zero p.lAnf
  psdDelay := p.feed.psdDelayInit
  minMaxDelay := 0
  lastSpecMs := 0
  lastWfMs := 0
  lastAnfMs := 0
  specLpf := List.replicate p.spg.nSpec 0
  specLpfValid := false
  gridMin := p.feed.levelLoDb
  gridMax := Bin32.add p.feed.levelLoDb p.feed.headroomDb
  meterDb := p.feed.levelLoDb
  anfHist := List.replicate p.feed.anfHistLen 0
  anfPublished := p.feed.anfDefaultHz
  hilbDl := List.replicate p.cw.hilbLen 0
  ddsAcc := 0
  ddsFtw := p.ftw p.cw.cwToneInit.toNat
  cwdec := Decim.zero p.lCw
  cw := CwState.resetOf p p.cw.cwSnr0 p.cw.cwGist0
  inIq := []
  inAud := []
  inCfg := []
  outIq := []
  outAud := []
  outCfg := []
  agenda := []
  cur := .iq

/-- The machine right after reset, with the vector values of R8 as its parameter set (assumption log 1). -/
def State.reset : State := State.resetOf Params.vector

/-! ## Outcomes that are not a next state -/

/-- Reasons a step of the whole machine (block and environment) stops. No command ever raises one: a command's faults
are the block's own FAULT state (R331), a next state. -/
inductive Fault where
  /-- Raised by the step when the environment has given no turn: the block "simply has no step" (60_exceptions.md section 6).
  Safe: the model stops where the hardware waits. -/
  | noTurn
  /-- Raised by a time-base turn that would carry `S.time_ms` past 64 bits, which the spec leaves out of every run a model
  need consider (R344). Safe: the model stops there. -/
  | timeBeyond64Bits
deriving DecidableEq, Repr

/-- Reasons a step is refused. -/
inductive Refusal where
  /-- Raised by an arm of `exec` whose instruction has no meaning yet. Safe: no effect is claimed. No arm uses it. -/
  | notModelled (mnemonic : String)
deriving DecidableEq, Repr

end Machine
end Sys2Proof
end

