-- ==== Sys2Proof/Machine/Ops.lean ====
section
/-! DEFINITION. The named operations over the state: streams, events, units, the checks of a command and the FAULT state
they lead to. -/

namespace Sys2Proof
namespace Machine

/-! ## Streams of the ports (30_encoding.md R110, R111, R121) -/

/-- The words of a port's command stream not yet consumed. -/
def State.stream (s : State) : Port → List Word
  | .iq => s.inIq
  | .aud => s.inAud
  | .cfg => s.inCfg

/-- The state with a port's command stream replaced. -/
def State.setStream (s : State) (p : Port) (ws : List Word) : State :=
  match p with
  | .iq => { s with inIq := ws }
  | .aud => { s with inAud := ws }
  | .cfg => { s with inCfg := ws }

/-- What a port's event stream has carried since reset. -/
def State.events (s : State) : Port → List Event
  | .iq => s.outIq
  | .aud => s.outAud
  | .cfg => s.outCfg

/-- `emit` of several events, in order, on the event stream of `p` (R22, R121). -/
def State.emitAll (s : State) (p : Port) (es : List Event) : State :=
  match p with
  | .iq => { s with outIq := s.outIq ++ es }
  | .aud => { s with outAud := s.outAud ++ es }
  | .cfg => { s with outCfg := s.outCfg ++ es }

/-- `emit(p, E, payload)` (R121). -/
def State.emit (s : State) (p : Port) (e : Event) : State := s.emitAll p [e]

/-! ## Units (10_state.md R40) -/

/-- The three units: 0 spectrum, 1 waterfall, 2 ANF. -/
inductive UnitId where
  | spectrum
  | waterfall
  | anf
deriving DecidableEq, Repr

/-- UNIT of a unit in headers (R112, R123). -/
def UnitId.bits : UnitId → BitVec 4
  | .spectrum => 0
  | .waterfall => 1
  | .anf => 2

/-- A unit of the state. -/
def State.unit (s : State) : UnitId → SpgUnit
  | .spectrum => s.spectrum
  | .waterfall => s.waterfall
  | .anf => s.anf

/-- The state with a unit replaced. -/
def State.setUnit (s : State) (k : UnitId) (u : SpgUnit) : State :=
  match k with
  | .spectrum => { s with spectrum := u }
  | .waterfall => { s with waterfall := u }
  | .anf => { s with anf := u }

/-! ## Faults (60_exceptions.md R331, R334) -/

/-- `raise F` (R331): S.run and S.fault_code are written and nothing else; the command's words are already consumed
(`Machine/Fetch.lean`). -/
def raise (f : FaultCode) (s : State) : State := { s with run := .fault, faultCode := f.code }

/-- The first failing check of a list in priority order (R334): each entry is "this check fails" and its code. -/
def firstFault : List (Bool × FaultCode) → Option FaultCode
  | [] => none
  | (true, f) :: _ => some f
  | (false, _) :: rest => firstFault rest

/-- A command whose checks stand in priority order and whose effect is the state `t`: the first failing check raises
its fault, which is a next state of the machine with no other effect (R116, R331); when all pass, `t`. -/
def guarded (checks : List (Bool × FaultCode)) (s t : State) : Host.Outcome State Fault Refusal :=
  match firstFault checks with
  | some f => .next (raise f s)
  | none => .next t

/-! ## The run-time resets -/

/-- `spg_clear(u)` (R156). -/
def SpgUnit.clear (u : SpgUnit) : SpgUnit :=
  { u with ring := List.replicate u.b Cx.zero, psd := List.replicate u.n 0, nt := 0 }

/-- The IQ half of DSP.RST (R304). -/
def State.resetIqDomain (s : State) : State :=
  { s with
    spectrum := s.spectrum.clear
    waterfall := s.waterfall.clear
    anf := s.anf.clear
    dcb := ⟨Cx.zero, Cx.zero⟩
    zdec := Decim.zero (s.par.lZoom s.zdecM)
    adec := Decim.zero s.par.lAnf
    psdDelay := s.par.feed.psdDelayInit
    minMaxDelay := 0
    specLpfValid := false
    anfHist := List.replicate s.par.feed.anfHistLen 0 }

/-- The CW half of DSP.RST (R304), with the current CW_SNR and CW_GIST. -/
def State.resetCwDomain (s : State) : State :=
  { s with
    hilbDl := List.replicate s.par.cw.hilbLen 0
    ddsAcc := 0
    cwdec := Decim.zero s.par.lCw
    cw := CwState.resetOf s.par s.regs.cwSnr s.regs.cwGist }

end Machine
end Sys2Proof
end

