-- ==== Sys2Proof/Machine/Operands.lean ====
section
/-! DEFINITION. The operand forms of 30_encoding.md (R114, R120): unit selectors, sample payloads, scalars and sample
counts, and the checks common to the commands. -/

namespace Sys2Proof
namespace Machine

/-- The unit a selector names; `none` for the values above 2, which fault with BAD_UNIT (R112, R116 check 4). -/
def unitOf (sel : BitVec 4) : Option UnitId :=
  match sel.toNat with
  | 0 => some .spectrum
  | 1 => some .waterfall
  | 2 => some .anf
  | _ => none

/-- BAD_UNIT's check (R116 check 4). -/
def badUnit (sel : BitVec 4) : Bool := (unitOf sel).isNone

/-- The unit of a selector that has passed the check; unit 0 for one that has not, which no command uses. -/
def unitSel (sel : BitVec 4) : UnitId := (unitOf sel).getD .spectrum

/-- WRONG_PORT's check for the commands legal on one port only (R115, R340). -/
def notOnPort (s : State) (p : Port) : Bool := s.cur != p

/-- Complex sample k of a payload: `(f32(word[2k]), f32(word[2k+1]))` (R120). -/
def complexSamples (payload : List (Word × Word)) : List Cx := payload.map fun s => ⟨s.1, s.2⟩

/-- A payload word that carries a scalar is not admitted (R21). -/
def notAdmitted (s : State) (w : Word) : Bool := !Bin32.admitted s.par.spg.inMax w

/-- Some word of a sample payload is not admitted (R21, R116 check 6). -/
def samplesNotAdmitted (s : State) (payload : List (Word × Word)) : Bool :=
  payload.any fun w => notAdmitted s w.1 || notAdmitted s w.2

/-- The datapath value of an audio word: `int16(w) / 32768`, exact (R120, R261); bits 31:16 are ignored (R118). -/
def audioSample (w : Word) : Sc := Bin32.ofRatio (w.extractLsb' 0 16).toInt 32768

/-- The legal operand of SPG.SETALPHA: exactly -1.0, or in [0, 1] (R153). -/
def alphaLegal (v : Word) : Bool := v == Bin32.minusOne || Bin32.inUnit v

end Machine
end Sys2Proof
end

