-- ==== Sys2Proof/Machine/Flags.lean ====
section
/-! DEFINITION. The flags of the block (10_state.md R36 to R38, R60, R61): the bits of MODE, STATUS and SPG_CTL, and the
Schmitt trigger that alone moves `peak_on` in operation (45_cw.md R277). -/

namespace Sys2Proof
namespace Machine

/-- MODE bit 0, ANF_EN (R37). -/
def CfgRegs.anfEn (r : CfgRegs) : Bool := r.mode.getLsbD 0
/-- MODE bit 1, CW_EN (R37). -/
def CfgRegs.cwEn (r : CfgRegs) : Bool := r.mode.getLsbD 1
/-- MODE bit 2, LSB (R37). -/
def CfgRegs.lsb (r : CfgRegs) : Bool := r.mode.getLsbD 2
/-- MODE bit 3, SPEC_AUTO (R37). -/
def CfgRegs.specAuto (r : CfgRegs) : Bool := r.mode.getLsbD 3
/-- MODE bit 4, WF_AUTO (R37). -/
def CfgRegs.wfAuto (r : CfgRegs) : Bool := r.mode.getLsbD 4
/-- MODE bit 5, REC_ACTIVE (R37). -/
def CfgRegs.recActive (r : CfgRegs) : Bool := r.mode.getLsbD 5

/-- The settle counter has reached zero (R36 bit 1, R195). -/
def State.settled (s : State) : Bool := s.psdDelay == 0

/-- STATUS (R36): bit 0 PEAK_ON, bit 1 SETTLED, bit 2 SPEC_LPF_VALID, bits 31:3 zero. -/
def State.statusWord (s : State) : Word :=
  (0 : BitVec 29) ++ BitVec.ofBool s.specLpfValid ++ BitVec.ofBool s.settled ++ BitVec.ofBool s.cw.peakOn

/-- SPG_CTL[u] (R38): bit 0 ACC, bits 15:1 zero, bits 31:16 CHUNK. -/
def SpgUnit.ctlWord (u : SpgUnit) : Word := BitVec.ofNat 16 u.c ++ (0 : BitVec 15) ++ BitVec.ofBool u.acc

/-- The Schmitt trigger for a judged level `r` in dB (R277): both comparisons strict, equality keeps the state, at most
one transition. -/
def schmitt (peakOn : Bool) (r pulse silence : Sc) : Bool :=
  match peakOn with
  | false => Bin32.lt pulse r
  | true => !Bin32.lt r silence

end Machine
end Sys2Proof
end

