-- ==== Sys2Proof/Machine/Registers.lean ====
section
/-! DEFINITION. The control and status register file (10_state.md R35 to R39), reached only by CFG.RD and CFG.WR
(46_control.md R302, R303). -/

namespace Sys2Proof
namespace Machine

/-- The value of a unit's register `k` of four: SPG_ALPHA, SPG_GAMMA, SPG_NT, SPG_CTL (R35). -/
def SpgUnit.reg (u : SpgUnit) : Nat → Word
  | 0 => u.alpha
  | 1 => u.gamma
  | 2 => u.nt
  | _ => u.ctlWord

/-- The 32-bit content of register `i` (R35); `none` where the index holds no register (0x1B to 0x1F, 0x2C and above).
ANF_HIST0 to ANF_HIST2 are the first three entries of the history (log 29). -/
def State.readReg (s : State) (i : BitVec 16) : Option Word :=
  match i.toNat with
  | 0x00 => some s.statusWord
  | 0x01 => some s.regs.zoom
  | 0x02 => some s.regs.mode
  | 0x03 => some s.regs.filterLow
  | 0x04 => some s.regs.filterHigh
  | 0x05 => some s.regs.cwTone
  | 0x06 => some s.regs.cwSnr
  | 0x07 => some s.regs.cwGist
  | 0x08 => some s.regs.cwPeakBeta
  | 0x09 => some s.regs.cwNoiseBeta
  | 0x0A => some s.regs.specBeta
  | 0x0B => some (s.psdDelay.setWidth 32)
  | 0x0C => some (s.minMaxDelay.setWidth 32)
  | 0x0D => some s.gridMin
  | 0x0E => some s.gridMax
  | 0x0F => some s.meterDb
  | 0x10 => some s.cw.peakFiltered
  | 0x11 => some s.cw.noiseFiltered
  | 0x12 => some s.cw.thresholdPulse
  | 0x13 => some s.cw.thresholdSilence
  | 0x14 => some s.anfPublished
  | 0x15 => some (s.anfHist.getD 0 0)
  | 0x16 => some (s.anfHist.getD 1 0)
  | 0x17 => some (s.anfHist.getD 2 0)
  | 0x18 => some s.cw.peakHz
  | 0x19 => some (s.timeMs.extractLsb' 0 32)
  | 0x1A => some (s.timeMs.extractLsb' 32 32)
  | 0x20 => some (s.spectrum.reg 0)
  | 0x21 => some (s.spectrum.reg 1)
  | 0x22 => some (s.spectrum.reg 2)
  | 0x23 => some (s.spectrum.reg 3)
  | 0x24 => some (s.waterfall.reg 0)
  | 0x25 => some (s.waterfall.reg 1)
  | 0x26 => some (s.waterfall.reg 2)
  | 0x27 => some (s.waterfall.reg 3)
  | 0x28 => some (s.anf.reg 0)
  | 0x29 => some (s.anf.reg 1)
  | 0x2A => some (s.anf.reg 2)
  | 0x2B => some (s.anf.reg 3)
  | _ => none

/-- The populated indices: 0x00 to 0x1A and 0x20 to 0x2B (R35). -/
def populated (i : BitVec 16) : Bool := decide (i.toNat ≤ 0x1A) || (decide (0x20 ≤ i.toNat) && decide (i.toNat ≤ 0x2B))

/-- The registers marked RW (R35, R302 check 2). -/
def writable (i : BitVec 16) : Bool :=
  match i.toNat with
  | 0x02 | 0x03 | 0x04 | 0x06 | 0x07 | 0x08 | 0x09 | 0x0A => true
  | _ => false

/-- The value a CFG.WR may write to a writable register (R39, R302 check 3). -/
def legalValue (inMax : Sc) (i : BitVec 16) (w : Word) : Bool :=
  match i.toNat with
  | 0x02 => w.extractLsb' 6 26 == 0
  | 0x03 | 0x04 => true
  | 0x06 => Bin32.admitted inMax w
  | 0x07 => Bin32.admitted inMax w && Bin32.lt 0 w
  | 0x08 | 0x09 | 0x0A => Bin32.admitted inMax w && Bin32.inUnit w
  | _ => false

/-- `reg[i] <- w`, as bits (R302); an index that is not writable, which the checks keep out, writes nothing. -/
def CfgRegs.write (r : CfgRegs) (i : BitVec 16) (w : Word) : CfgRegs :=
  match i.toNat with
  | 0x02 => { r with mode := w }
  | 0x03 => { r with filterLow := w }
  | 0x04 => { r with filterHigh := w }
  | 0x06 => { r with cwSnr := w }
  | 0x07 => { r with cwGist := w }
  | 0x08 => { r with cwPeakBeta := w }
  | 0x09 => { r with cwNoiseBeta := w }
  | 0x0A => { r with specBeta := w }
  | _ => r

end Machine
end Sys2Proof
end

