-- ==== Sys2Proof/Machine/Control.lean ====
section
/-! DEFINITION. The control commands NOP, CFG.WR, CFG.RD, DSP.RST, ZOOM and CW.TONE (46_control.md), legal on every port
(R340). -/

namespace Sys2Proof
namespace Machine

/-- NOP (R301): no state changes, no event. -/
def execNop (s : State) : Host.Outcome State Fault Refusal := .next s

/-- CFG.WR reg, value (R302): BAD_REG, then RO_WRITE, then BAD_VALUE; then `reg[i] <- w` and nothing else. -/
def execCfgWr (reg : BitVec 16) (value : Word) (s : State) : Host.Outcome State Fault Refusal :=
  guarded
    [ (!populated reg, .badReg),
      (!writable reg, .roWrite),
      (!legalValue s.par.spg.inMax reg value, .badValue) ]
    s { s with regs := s.regs.write reg value }

/-- CFG.RD reg (R303): BAD_REG; then RD_DATA with the register's content, on the port that issued the command. The time
registers are the halves of `now` (R345), which no step of the time base changes under a command (R90). -/
def execCfgRd (reg : BitVec 16) (s : State) : Host.Outcome State Fault Refusal :=
  match s.readReg reg with
  | none => .next (raise .badReg s)
  | some v => .next (s.emit s.cur (.plain .rdData [v]))

/-- DSP.RST domains (R304): bit 0 the IQ domain, bit 1 the CW domain, in that order. -/
def execDspRst (mask : BitVec 2) (s : State) : Host.Outcome State Fault Refusal :=
  let s1 := if mask.getLsbD 0 then s.resetIqDomain else s
  .next (if mask.getLsbD 1 then s1.resetCwDomain else s1)

/-- What a legal ZOOM does (R305): the register, the zoom decimator, unit 0's chunk size and contents, the settle counter
and the spectrum filter's seed. -/
def State.setZoom (s : State) (z : BitVec 16) : State :=
  { s with
    regs := { s.regs with zoom := z.setWidth 32 }
    zdecM := z.toNat
    zdec := Decim.zero (s.par.lZoom z.toNat)
    spectrum := SpgUnit.clear { s.spectrum with c := s.par.cSpec z.toNat }
    psdDelay := s.par.feed.psdDelayInit
    specLpfValid := false }

/-- ZOOM z (R305): BAD_VALUE for an illegal factor (R177). -/
def execZoom (z : BitVec 16) (s : State) : Host.Outcome State Fault Refusal :=
  guarded [(!s.par.zoomLegal z.toNat, .badValue)] s (s.setZoom z)

/-- What a legal CW.TONE does (R306): the register, the tuning word, the phase and the CW decimator. -/
def State.setTone (s : State) (hz : BitVec 16) : State :=
  { s with
    regs := { s.regs with cwTone := hz.setWidth 32 }
    ddsFtw := s.par.ftw hz.toNat
    ddsAcc := 0
    cwdec := Decim.zero s.par.lCw }

/-- CW.TONE hz (R306): BAD_VALUE for 0 and for `2 * f >= FS_AUDIO`. -/
def execCwTone (hz : BitVec 16) (s : State) : Host.Outcome State Fault Refusal :=
  guarded [(!s.par.toneLegal hz.toNat, .badValue)] s (s.setTone hz)

end Machine
end Sys2Proof
end

