-- ==== Sys2Proof/Machine/Rom.lean ====
section
/-! DEFINITION. The coefficient ROMs (40_spgram.md R143 to R145, 41_decimators.md R175, R176, 45_cw.md R262, R266,
R270): each by its formula, or from a table taken as configuration. A table without a vector of the length asked for,
which no valid parameter set has, reads as zeros (log 5). -/

namespace Sys2Proof
namespace Rom

/-- The Kaiser shape `w0[i]` of `c` taps (R144). -/
def kaiserTap (beta : Sc) (c i : Nat) : Sc :=
  if c ≤ 1 then Bin32.one
  else
    let t := Bin32.sub (Bin32.ofRatio ((2 * i : Nat) : Int) (c - 1)) Bin32.one
    Bin32.div (Config.besselI0 (Bin32.mul beta (Bin32.sqrt (Bin32.sub Bin32.one (Bin32.mul t t))))) (Config.besselI0 beta)

/-- The Hann shape `w0[i]` of `c` taps (R145, R270). -/
def hannTap (c i : Nat) : Sc :=
  if c ≤ 1 then Bin32.one
  else Bin32.mul Bin32.half (Bin32.sub Bin32.one (Config.cosPi ((2 * i : Nat) : Int) (c - 1)))

/-- `w[i] = w0[i] / sqrt((sum of w0[i]^2) * N / C)` (R143). -/
def normalise (n c : Nat) (w0 : List Sc) : List Sc :=
  let energy := Bin32.sum .windowEnergy (w0.map fun t => Bin32.mul t t)
  let d := Bin32.sqrt (Bin32.mul energy (Bin32.ofRatio (n : Int) c))
  w0.map fun t => Bin32.div t d

/-- A window ROM of `c` taps for an FFT of `n` points (R143 to R145). -/
def window (beta : Sc) (kind : WindowKind) (c n : Nat) : List Sc :=
  match kind with
  | .kaiser => normalise n c ((List.range c).map (kaiserTap beta c))
  | .hann => normalise n c ((List.range c).map (hannTap c))
  | .table roms => (tableRom roms c).getD (List.replicate c 0)

/-- `sinc(num / den) = sin(pi * num / den) / (pi * num / den)`, 1 at 0 (R175). -/
def sinc (num : Int) (den : Nat) : Sc :=
  if num = 0 then Bin32.one else Bin32.div (Config.sinPi num den) (Bin32.mul Bin32.pi (Bin32.ofRatio num den))

/-- `beta_k = 0.1102 * (FIR_AS_DB - 8.7)` (R175). -/
def firBeta (asDb : Sc) : Sc := Bin32.mul 0x3DE1B08A#32 (Bin32.sub asDb 0x410B3333#32)

/-- `g[k]` of R175 for centre `c`, with `2 * fc * (k - c)` the rational `num * (k - c) / den`. At a half-length of 0, which R9
does not exclude, the centre is 0 and the one tap's `(k - c) / c` is 0/0: the model reads it as +0 (DESIGN CHOICE, log 30). -/
def firTap (asDb : Sc) (num den c k : Nat) : Sc :=
  let m : Int := (k : Int) - (c : Int)
  let u := Bin32.ofRatio m c
  let b := firBeta asDb
  Bin32.div
    (Bin32.mul (sinc ((num : Int) * m) den)
      (Config.besselI0 (Bin32.mul b (Bin32.sqrt (Bin32.sub Bin32.one (Bin32.mul u u))))))
    (Config.besselI0 b)

/-- A FIR ROM of `2 * c + 1` taps scaled to unit gain at DC (R175), or the table's. -/
def fir (kind : FirKind) (asDb : Sc) (num den c : Nat) : List Sc :=
  match kind with
  | .kaiserSinc =>
    let g := (List.range (2 * c + 1)).map (firTap asDb num den c)
    let s := Bin32.sum .firGain g
    g.map fun t => Bin32.div t s
  | .table roms => (tableRom roms (2 * c + 1)).getD (List.replicate (2 * c + 1) 0)

/-- `H_ZOOM(M)`: cutoff `0.5 / M`, centre `M * ZOOM_FIR_M` (R175). -/
def zoomTaps (p : Params) (m : Nat) : List Sc := fir p.spg.zoomFir p.spg.firAsDb 1 m (m * p.spg.zoomFirM)

/-- `H_ANF`: R175's formula with M = ANF_DECIM (R176). -/
def anfTaps (p : Params) : List Sc :=
  fir p.spg.anfFir p.spg.firAsDb 1 p.spg.anfDecim (p.spg.anfDecim * p.spg.anfFirM)

/-- `H_CW`: R175's formula with centre `D_CW * CW_FIR_M` and cutoff `CW_BW_HZ / (2 * FS_AUDIO)` (R266). -/
def cwTaps (p : Params) : List Sc :=
  fir p.cw.cwFir p.spg.firAsDb p.cw.cwBwHz p.cw.fsAudio (p.cw.dCw * p.cw.cwFirM)

/-- `W_CW`: FFT_CW taps of unit energy (R270). -/
def cwWindow (p : Params) : List Sc := window p.spg.kaiserBeta p.cw.wCw p.cw.fftCw p.cw.fftCw

/-- The vectors' Hilbert tap (R262): with `m = k - 15`, `(2 / (pi * m)) * (0.54 + 0.46 * cos(pi * m / 15))` for odd m and 0 for
even m. R262 gives it for HILB_DELAY 15 alone; for another HILB_DELAY the model puts that in place of both 15s, at 0 the
angle `pi * m / 0` as `Config.cosPi m 0` (DESIGN CHOICE, log 21). -/
def hammingTap (delay k : Nat) : Sc :=
  let m : Int := (k : Int) - (delay : Int)
  if m % 2 = 0 then 0
  else
    Bin32.mul (Bin32.div Bin32.two (Bin32.mul Bin32.pi (Bin32.ofInt m)))
      (Bin32.add 0x3F0A3D71#32 (Bin32.mul 0x3EEB851F#32 (Config.cosPi m delay)))

/-- `H_HILB[0..HILB_LEN-1]` (R262). -/
def hilbertTaps (p : Params) : List Sc :=
  match p.cw.hHilb with
  | .hamming => (List.range p.cw.hilbLen).map (hammingTap p.cw.hilbDelay)
  | .table taps => taps

end Rom
end Sys2Proof
end

