-- ==== Sys2Proof/Machine/Decimator.lean ====
section
/-! DEFINITION. The decimation stage (41_decimators.md): DC blocker, FIR decimator step, and the sample path of one IQ
sample (R170). -/

namespace Sys2Proof
namespace Machine

/-- `dcblock(x)` (R171): `y = x - x1 + (1 - DCBLOCK_ALPHA) * y1`. -/
def DcBlocker.step (d : DcBlocker) (p : Params) (x : Cx) : DcBlocker × Cx :=
  let y := Bin32.cadd (Bin32.csub x d.x1) (Bin32.scale (Bin32.sub Bin32.one p.spg.dcblockAlpha) d.y1)
  (⟨x, y⟩, y)

/-- `sum over k of h[k] * dl[L-1-k]` (R174), the additions in `NUM`'s order. -/
def firOutput (taps : List Sc) (dl : List Cx) : Cx :=
  Bin32.csum .firRe .firIm (List.zipWith Bin32.scale taps dl.reverse)

/-- `dec_push(dec, s)` for factor `m` and ROM `taps` (R174). -/
def Decim.push (d : Decim) (m : Nat) (taps : List Sc) (x : Cx) : Decim × Option Cx :=
  let dl := Bin32.push d.dl x
  if d.ph + 1 = m then (⟨dl, 0⟩, some (firOutput taps dl))
  else (⟨dl, d.ph + 1⟩, none)

/-- What `process_samples` carries from sample to sample (R192): the stages' state and the scratch lists. -/
structure FrontEnd where
  dcb : DcBlocker
  zdec : Decim
  adec : Decim
  full : List Cx
  zc : List Cx
  ac : List Cx
deriving DecidableEq, Repr

/-- What is fixed during one `process_samples`: whether the zoom decimator and the ANF decimator run, their factors
and ROMs. -/
structure FrontConfig where
  zoomOn : Bool
  zoomM : Nat
  zoomTaps : List Sc
  anfOn : Bool
  anfM : Nat
  anfTaps : List Sc
deriving DecidableEq, Repr

/-- One decimator of the loop of R192: it runs when `on`, and an output is appended to `out`. -/
def Decim.feed (d : Decim) (on : Bool) (m : Nat) (taps : List Sc) (out : List Cx) (x : Cx) : Decim × List Cx :=
  if on then
    let r := d.push m taps x
    (r.1, out ++ r.2.toList)
  else (d, out)

/-- One turn of the loop of R192: DC blocker, I/Q swap (R172), then the waterfall chunk, the zoom decimator and the ANF
decimator. -/
def FrontEnd.step (p : Params) (c : FrontConfig) (f : FrontEnd) (x : Cx) : FrontEnd :=
  let b := f.dcb.step p x
  let sample := Bin32.swap b.2
  let z := f.zdec.feed c.zoomOn c.zoomM c.zoomTaps f.zc sample
  let a := f.adec.feed c.anfOn c.anfM c.anfTaps f.ac sample
  { dcb := b.1, zdec := z.1, adec := a.1, full := f.full ++ [sample], zc := z.2, ac := a.2 }

end Machine
end Sys2Proof
end

