-- ==== Sys2Proof/Machine/Level.lean ====
section
/-! DEFINITION. The auto-level estimator and the S-meter extractor (43_autolevel_smeter.md), called with the calibrated
waterfall vector `q`. -/

namespace Sys2Proof
namespace Machine

/-- `centre + offset` clamped to the bins `0..n-1` (R231, R242). -/
def clampBin (n : Nat) (i : Int) : Nat := (min (max i 0) ((n : Int) - 1)).toNat

/-- `wf_bin(f) = clamp(N_WF div 2 + trunc(f * N_WF / FS_IQ), 0, N_WF - 1)` (R231). -/
def wfBin (p : Params) (f : Int) : Nat :=
  clampBin p.spg.nWf ((p.spg.nWf / 2 : Nat) + (f * p.spg.nWf).tdiv p.spg.fsIq)

/-- The elements `lo..hi` of a vector. -/
def slice (v : List Sc) (lo hi : Nat) : List Sc := (v.drop lo).take (hi - lo + 1)

/-- The slice maximum of R232 for the passband registers. -/
def passbandPeak (p : Params) (r : CfgRegs) (q : List Sc) : Sc :=
  let a := wfBin p r.filterLow.toInt
  let b := wfBin p r.filterHigh.toInt
  Bin32.maxOf (slice q (min a b) (max a b))

/-- `smeter(q)` (R232, R233): the event carries the raw peak and the beta, the block keeps the smoothed level. -/
def State.smeter (s : State) (q : List Sc) : State :=
  let peak := passbandPeak s.par s.regs q
  State.emit { s with meterDb := Bin32.lpf s.meterDb peak s.par.feed.smeterBeta } .iq
    (.plain .meterUpdate [peak, s.par.feed.smeterBeta])

/-- The floor candidate of R222: element `K` of the ascending sort (R221), clamped (R224). -/
def floorCandidate (p : Params) (q : List Sc) : Sc :=
  Bin32.clamp ((Bin32.sortAsc q).getD p.percentileIndex 0) p.feed.levelLoDb (Bin32.sub p.feed.levelHiDb p.feed.headroomDb)

/-- The level events of R222, in its order (R226). -/
def levelEvents (r : CfgRegs) (lo hi : Sc) : List Event :=
  (if r.specAuto then [.plain .specMin [lo], .plain .specMax [hi]] else [])
    ++ (if r.wfAuto then [.plain .wfMin [lo], .plain .wfMax [hi]] else [])

/-- `autolevel(q)` (R222, R223, R225). -/
def State.autolevel (s : State) (q : List Sc) : State :=
  if !s.regs.specAuto && !s.regs.wfAuto then s
  else
    let gmin := Bin32.lpf s.gridMin (floorCandidate s.par q) s.par.feed.autoBeta
    let gmax := Bin32.add gmin s.par.feed.headroomDb
    State.emitAll { s with gridMin := gmin, gridMax := gmax } .iq (levelEvents s.regs gmin gmax)

end Machine
end Sys2Proof
end

