-- ==== Sys2Proof/Machine/Cw.lean ====
section
/-! DEFINITION. The CW tone decoder and the command AUD.SAMPLES (45_cw.md). -/

namespace Sys2Proof
namespace Machine

/-! ## Hilbert stage, mixer -/

/-- `hilbert(x)` on the delay line after `x` has entered it (R262). -/
def hilbertOutput (p : Params) (dl : List Sc) : Cx :=
  ⟨dl.getD (p.cw.hilbLen - 1 - p.cw.hilbDelay) 0,
   Bin32.sum .hilbert (List.zipWith Bin32.mul (Rom.hilbertTaps p) dl.reverse)⟩

/-- `c * cis(-ph)` with `ph = 2 * pi * acc / 2^32` (R265). -/
def mixDown (acc : BitVec 32) (c : Cx) : Cx :=
  let co := Config.cosPi ((2 * acc.toNat : Nat) : Int) (2 ^ 32)
  let si := Config.sinPi ((2 * acc.toNat : Nat) : Int) (2 ^ 32)
  ⟨Bin32.add (Bin32.mul c.re co) (Bin32.mul c.im si), Bin32.sub (Bin32.mul c.im co) (Bin32.mul c.re si)⟩

/-! ## Threshold update, per block (R270 to R276) -/

/-- `Q = shift_128(P)`, the shifted powers of the windowed block (R270, R271). -/
def blockPowers (p : Params) (blk : List Cx) : List Sc :=
  Bin32.shift ((Bin32.dft (List.zipWith Bin32.scale (Rom.cwWindow p) blk)).map Bin32.normSq)

/-- `imax` of R271. -/
def peakBin (p : Params) (q : List Sc) : Nat := Bin32.argmax q 0 (p.cw.fftCw - 1)

/-- The signal regime of R272: `P_in > P_out`, strictly, for the window of R271 around `imax`. -/
def signalPresent (p : Params) (q : List Sc) (imax : Nat) : Bool :=
  let hw := p.peakWidth / 2
  let pIn := Bin32.sum .cwInWindow (slice q (imax - hw) (min (imax + hw) (p.cw.fftCw - 1)))
  Bin32.lt (Bin32.sub (Bin32.sum .cwTotal q) pIn) pIn

/-- The two filtered levels after the update (R273, R274), `(pf, nf)`. -/
def filteredLevels (p : Params) (r : CfgRegs) (c : CwState) (signal : Bool) : Sc × Sc :=
  let floor := Bin32.add c.noiseFiltered r.cwSnr
  if signal then
    (Bin32.lpf c.peakFiltered (Bin32.maxNum floor (Bin32.maxOf c.dly)) r.cwPeakBeta, c.noiseFiltered)
  else
    (Bin32.lpf c.peakFiltered floor r.cwPeakBeta,
     Bin32.lpf c.noiseFiltered (Bin32.sub (Bin32.minOf c.dly) p.cw.cwNoiseOffsetDb) r.cwNoiseBeta)

/-- `threshold_update()` (R274 to R276) in the regime given. -/
def CwState.updateThresholds (c : CwState) (p : Params) (r : CfgRegs) (signal : Bool) : CwState :=
  let l := filteredLevels p r c signal
  let pulse := p.thresholdPulse r.cwSnr l.1 l.2
  { c with
    peakFiltered := l.1
    noiseFiltered := l.2
    thresholdPulse := pulse
    thresholdSilence := Bin32.sub pulse r.cwGist }

/-- The tracked tone frequency of R279: `reg[CW_TONE] + (imax - FFT_CW / 2) * FS_AUDIO / (D_CW * FFT_CW)`. -/
def tuneHz (p : Params) (r : CfgRegs) (imax : Nat) : Sc :=
  Bin32.add (Bin32.ofInt r.cwTone.toNat)
    (Bin32.ofRatio (((imax : Int) - (p.cw.fftCw / 2 : Nat)) * p.cw.fsAudio) (p.cw.dCw * p.cw.fftCw))

/-- `tune_report()` (R279). -/
def CwState.tuneReport (c : CwState) (p : Params) (r : CfgRegs) (imax : Nat) : CwState × List Event :=
  if c.peakOn then ({ c with peakHz := tuneHz p r imax }, [.plain .cwTune [tuneHz p r imax]])
  else (c, [])

/-! ## Per decimated sample (R267) -/

/-- Step 1 of R267: the sample enters the block buffer and its power the RMS window. -/
def CwState.take (c : CwState) (d : Cx) : CwState :=
  { c with
    blk := c.blk.set c.blkN d
    blkN := c.blkN + 1
    rwin := Bin32.push c.rwin (Bin32.normSq d)
    hopN := c.hopN + 1 }

/-- The RMS level of the window, dB (R268). -/
def CwState.rmsLevel (c : CwState) (p : Params) : Sc :=
  Bin32.dB p.spg.epsPwr (Bin32.divNat (Bin32.sum .rmsWindow c.rwin) p.cw.cwRmsLen)

/-- Step 2 of R267: every CW_RMS_HOP samples a level enters the delay queue, and the oldest leaves a full one
(R269). -/
def CwState.rmsHop (c : CwState) (p : Params) : CwState × Option Sc :=
  if c.hopN = p.cw.cwRmsHop then
    let r := c.rmsLevel p
    if c.dly.length = p.cwDlyLen then ({ c with hopN := 0, dly := c.dly.drop 1 ++ [r] }, c.dly.head?)
    else ({ c with hopN := 0, dly := c.dly ++ [r] }, none)
  else (c, none)

/-- Step 3 of R267: at the end of a block, the threshold update and the tuning report. -/
def CwState.blockEnd (c : CwState) (p : Params) (r : CfgRegs) : CwState × List Event :=
  if c.blkN = p.cw.fftCw then
    let q := blockPowers p c.blk
    let imax := peakBin p q
    let t := (c.updateThresholds p r (signalPresent p q imax)).tuneReport p r imax
    ({ t.1 with blkN := 0 }, t.2)
  else (c, [])

/-- CW_SIGNAL's payload (R278): word 0 bit 0 the flag, word 1 DUR_MS. -/
def cwSignalEvent (p : Params) (on : Bool) : Event :=
  .plain .cwSignal [(BitVec.ofBool on).setWidth 32, p.durMs]

/-- Step 4 of R267: the trigger on a judged level and its report (R277, R278). -/
def CwState.judge (c : CwState) (p : Params) (out : Option Sc) : CwState × List Event :=
  match out with
  | none => (c, [])
  | some r =>
    let on := schmitt c.peakOn r c.thresholdPulse c.thresholdSilence
    ({ c with peakOn := on }, [cwSignalEvent p on])

/-- `cw_sample(d)` (R267). -/
def CwState.sample (c : CwState) (p : Params) (r : CfgRegs) (d : Cx) : CwState × List Event :=
  let h := (c.take d).rmsHop p
  let b := h.1.blockEnd p r
  let j := b.1.judge p h.2
  (j.1, b.2 ++ j.2)

/-! ## The command -/

/-- The decoder's part of the loop of R260 for a Hilbert output `c` (MODE.CW_EN = 1): mixer, decimator, `cw_sample`. -/
def State.decodeTone (s : State) (c : Cx) : State :=
  let o := s.cwdec.push s.par.cw.dCw (Rom.cwTaps s.par) (mixDown s.ddsAcc c)
  let s1 := { s with ddsAcc := s.ddsAcc + s.ddsFtw, cwdec := o.1 }
  match o.2 with
  | none => s1
  | some d =>
    let r := s1.cw.sample s1.par s1.regs d
    State.emitAll { s1 with cw := r.1 } .aud r.2

/-- One turn of the loop of R260: the Hilbert delay line advances whatever MODE.CW_EN says (R54, R263). -/
def State.audioStep (s : State) (w : Word) : State :=
  let s1 := { s with hilbDl := Bin32.push s.hilbDl (audioSample w) }
  if s1.regs.cwEn then s1.decodeTone (hilbertOutput s1.par s1.hilbDl) else s1

/-- AUD.SAMPLES samples (R260): port 1 only. -/
def execAudSamples (samples : List Word) (s : State) : Host.Outcome State Fault Refusal :=
  guarded [(notOnPort s .aud, .wrongPort)] s (samples.foldl State.audioStep s)

end Machine
end Sys2Proof
end

