-- ==== Sys2Proof/Machine/Spgram.lean ====
section
/-! DEFINITION. ChunkedSpgram (40_spgram.md): the procedures `spg_write`, `get_psd` and the commands SPG.WRITE,
SPG.GETPSD, SPG.SETALPHA, SPG.CLEAR and SPG.RESET, legal on port 0 only (R340). -/

namespace Sys2Proof
namespace Machine

/-- WINDOW_KIND[u] (R8, R144). -/
def UnitId.windowKind (k : UnitId) (p : Params) : WindowKind :=
  match k with
  | .spectrum => p.spg.windowSpec
  | .waterfall => p.spg.windowWf
  | .anf => p.spg.windowAnf

/-- The window of a unit: the ROM selected by the unit and its chunk size (R41, R143). -/
def SpgUnit.window (u : SpgUnit) (p : Params) (k : UnitId) : List Sc :=
  Rom.window p.spg.kaiserBeta (k.windowKind p) u.c u.n

/-- The saturating increment of `num_transforms` (R42, R148). -/
def bumpTransforms (nt : BitVec 32) : BitVec 32 := if nt = BitVec.allOnes 32 then nt else nt + 1

/-- `accumulate(u, X)` on the powers `|X[k]|^2` (R148): seed on the first transform since a clear, else
`gamma * psd[k] + alpha * |X[k]|^2` in each bin. -/
def SpgUnit.accumulate (u : SpgUnit) (powers : List Sc) : SpgUnit :=
  { u with
    psd :=
      if u.nt = 0 then powers
      else List.zipWith (fun old new => Bin32.add (Bin32.mul u.gamma old) (Bin32.mul u.alpha new)) u.psd powers
    nt := bumpTransforms u.nt }

/-- The ring after a chunk's windowed samples have entered it (R147 step 1). -/
def pushChunk (ring : List Cx) (w : List Sc) (chunk : List Cx) : List Cx :=
  (List.zipWith Bin32.scale w chunk).foldl Bin32.push ring

/-- `spg_write(u, chunk)` (R147): window and push, one transform of the newest N of B samples, accumulate. -/
def SpgUnit.write (u : SpgUnit) (p : Params) (k : UnitId) (chunk : List Cx) : SpgUnit :=
  let ring := pushChunk u.ring (u.window p k) chunk
  let x := ring.drop (u.b - u.n)
  SpgUnit.accumulate { u with ring := ring } ((Bin32.dft x).map Bin32.normSq)

/-- `get_psd(u)` in dB, shifted order (R150, R151). -/
def SpgUnit.getPsd (u : SpgUnit) (p : Params) : List Sc :=
  let s := Bin32.shift u.psd
  let t := if u.acc && u.nt != 0 then s.map fun v => Bin32.divNat v u.nt.toNat else s
  t.map (Bin32.dB p.spg.epsPwr)

/-- SPG.SETALPHA's effect on a unit (R153). -/
def SpgUnit.setAlpha (u : SpgUnit) (v : Sc) : SpgUnit :=
  if v = Bin32.minusOne then { u with acc := true, alpha := Bin32.one, gamma := Bin32.one }
  else { u with acc := false, alpha := v, gamma := Bin32.sub Bin32.one v }

/-- SPG.WRITE u, chunk (R146): BAD_LENGTH when the count is not the unit's chunk size, then BAD_VALUE. -/
def execSpgWrite (unit : BitVec 4) (chunk : List (Word × Word)) (s : State) : Host.Outcome State Fault Refusal :=
  let k := unitSel unit
  let u := s.unit k
  guarded
    [ (notOnPort s .iq, .wrongPort),
      (badUnit unit, .badUnit),
      (chunk.length != u.c, .badLength),
      (samplesNotAdmitted s chunk, .badValue) ]
    s (s.setUnit k (u.write s.par k (complexSamples chunk)))

/-- SPG.GETPSD u (R149): one PSD_DATA event, no state of the unit written. -/
def execSpgGetpsd (unit : BitVec 4) (s : State) : Host.Outcome State Fault Refusal :=
  let k := unitSel unit
  guarded
    [ (notOnPort s .iq, .wrongPort),
      (badUnit unit, .badUnit) ]
    s (s.emit .iq ⟨.psdData, k.bits, false, (s.unit k).getPsd s.par⟩)

/-- SPG.SETALPHA u, v (R153): BAD_VALUE for a scalar not admitted and for one that is neither -1.0 nor in [0, 1]. -/
def execSpgSetalpha (unit : BitVec 4) (v : Word) (s : State) : Host.Outcome State Fault Refusal :=
  let k := unitSel unit
  guarded
    [ (notOnPort s .iq, .wrongPort),
      (badUnit unit, .badUnit),
      (notAdmitted s v || !alphaLegal v, .badValue) ]
    s (s.setUnit k ((s.unit k).setAlpha v))

/-- SPG.CLEAR u (R154). -/
def execSpgClear (unit : BitVec 4) (s : State) : Host.Outcome State Fault Refusal :=
  let k := unitSel unit
  guarded
    [ (notOnPort s .iq, .wrongPort),
      (badUnit unit, .badUnit) ]
    s (s.setUnit k (s.unit k).clear)

/-- SPG.RESET u (R155): operands, checks and effect as SPG.CLEAR. -/
def execSpgReset (unit : BitVec 4) (s : State) : Host.Outcome State Fault Refusal :=
  let k := unitSel unit
  guarded
    [ (notOnPort s .iq, .wrongPort),
      (badUnit unit, .badUnit) ]
    s (s.setUnit k (s.unit k).clear)

end Machine
end Sys2Proof
end

