-- ==== Sys2Proof/Machine/Anf.lean ====
section
/-! DEFINITION. The automatic notch filter tracker (44_anf.md). -/

namespace Sys2Proof
namespace Machine

/-- The rate gate: `now - L > P`, strictly (R196). -/
def gatePasses (now last : BitVec 64) (periodMs : Nat) : Bool := decide (last.toNat + periodMs < now.toNat)

/-- `anf_bin(f) = clamp(N div 2 + trunc(f / ANF_RES_HZ), 0, N - 1)` (R242). -/
def anfBin (p : Params) (f : Int) : Nat := clampBin p.nAnf ((p.nAnf / 2 : Nat) + f.tdiv p.spg.anfResHz)

/-- The mean of R244: the values of the range without the ANF_TOP_EXCL largest. -/
def meanWithoutTop (excl : Nat) (vals : List Sc) : Sc :=
  let rest := (Bin32.sortAsc vals).reverse.drop excl
  Bin32.divNat (Bin32.sum .anfMean rest) rest.length

/-- The candidate frequency of bin `imax`, rounded to the ANF_RES_HZ grid (R245). -/
def anfCandidate (p : Params) (imax : Nat) : Int :=
  p.spg.anfResHz
    * Bin32.roundDiv (((imax : Int) - (p.nAnf / 2 : Nat)) * p.spg.fsIq) (p.spg.anfDecim * p.nAnf * p.spg.anfResHz)

/-- `estimate(p, lo, hi)` (R243 to R245); 0 stands for "no tone". -/
def anfEstimate (p : Params) (psd : List Sc) (lo hi : Nat) : Int :=
  if hi - lo + 1 ≤ p.feed.anfTopExcl then 0
  else
    let imax := Bin32.argmax psd lo hi
    let mean := meanWithoutTop p.feed.anfTopExcl (slice psd lo hi)
    if Bin32.lt p.feed.anfMarginDb (Bin32.sub (psd.getD imax 0) mean) then anfCandidate p imax else 0

/-- The value of one estimation for the passband registers, after the sign correction of R246, as an i32. A frequency beyond
i32, which R9 leaves possible at FS_IQ / ANF_DECIM / 2 of 2^31 Hz or more, is taken modulo 2^32 (DESIGN CHOICE, log 31). -/
def anfValue (p : Params) (r : CfgRegs) (psd : List Sc) : Word :=
  let a := anfBin p r.filterLow.toInt
  let b := anfBin p r.filterHigh.toInt
  let f := anfEstimate p psd (min a b) (max a b)
  BitVec.ofInt 32 (if r.lsb then -f else f)

/-- "All entries agree" (R53, R248): each equals the newest. -/
def anfAgree (h : List Word) : Bool := h.all (· == h.getLastD 0)

/-- The published form of an agreed value: 0 becomes ANF_DEFAULT_HZ (R249). -/
def anfPublish (p : Params) (f : Word) : Word := if f = 0 then p.feed.anfDefaultHz else f

/-- Agreement and publication (R248, R249) once the history holds the new estimate `f`. -/
def State.anfDecide (s : State) (f : Word) : State :=
  let v := anfPublish s.par f
  if anfAgree s.anfHist && v != s.anfPublished then
    State.emit { s with anfPublished := v } .iq (.plain .anfFreq [v])
  else s

/-- `anf_update()` (R241). -/
def State.anfUpdate (s : State) : State :=
  if !gatePasses s.timeMs s.lastAnfMs s.par.feed.anfPeriodMs then s
  else
    let f := anfValue s.par s.regs (s.anf.getPsd s.par)
    State.anfDecide { s with lastAnfMs := s.timeMs, anfHist := Bin32.push s.anfHist f } f

end Machine
end Sys2Proof
end

