-- ==== Sys2Proof/Machine/Feed.lean ====
section
/-! DEFINITION. The spectrum and waterfall feed and the command DSP.SAMPLES (42_feed.md). -/

namespace Sys2Proof
namespace Machine

/-- The ANF branch runs on receive frames with MODE.ANF_EN (R193). -/
def anfBranch (r : CfgRegs) (tx : Bool) : Bool := !tx && r.anfEn

/-- What `process_samples` fixes at its start: `z = reg[ZOOM]` decides whether the zoom decimator runs; its factor is
`S.zdec.M` (R44, R92, R192). -/
def State.frontConfig (s : State) (tx : Bool) : FrontConfig where
  zoomOn := decide (1 < s.regs.zoom.toNat)
  zoomM := s.zdecM
  zoomTaps := Rom.zoomTaps s.par s.zdecM
  anfOn := anfBranch s.regs tx
  anfM := s.par.spg.anfDecim
  anfTaps := Rom.anfTaps s.par

/-- The loop of R192 over a frame, from the state's DC blocker and decimators. -/
def State.frontEnd (s : State) (buf : List Cx) (tx : Bool) : FrontEnd :=
  buf.foldl (FrontEnd.step s.par (s.frontConfig tx))
    { dcb := s.dcb, zdec := s.zdec, adec := s.adec, full := [], zc := [], ac := [] }

/-- `process_samples(buf, tx)` (R192, R193). -/
def State.processSamples (s : State) (buf : List Cx) (tx : Bool) : State :=
  let f := s.frontEnd buf tx
  { s with
    dcb := f.dcb
    zdec := f.zdec
    adec := f.adec
    spectrum := s.spectrum.write s.par .spectrum (if s.regs.zoom = 1 then f.full else f.zc)
    waterfall := s.waterfall.write s.par .waterfall f.full
    anf := if anfBranch s.regs tx then s.anf.write s.par .anf f.ac else s.anf }

/-- `beta_zoom(b, z) = pow(b, (z - 1) / 2 + 1)`, the exponent real; `pow(0, e) = 0` and `pow(1, e) = 1` (R198). -/
def betaZoom (b : Sc) (z : Nat) : Sc :=
  if Bin32.isZero b then 0
  else if b = Bin32.one then Bin32.one
  else Config.pow b (Bin32.ofRatio ((z + 1 : Nat) : Int) 2)

/-- The new contents of the spectrum filter for the calibrated vector `v` (R197). -/
def State.filteredSpectrum (s : State) (v : List Sc) : List Sc :=
  if s.specLpfValid then
    let bp := betaZoom s.regs.specBeta s.regs.zoom.toNat
    List.zipWith (fun y x => Bin32.lpf y x bp) s.specLpf v
  else v

/-- `update_spectrum(tx)` (R197). -/
def State.updateSpectrum (s : State) (tx : Bool) : State :=
  if !gatePasses s.timeMs s.lastSpecMs s.par.feed.specPeriodMs then s
  else
    let v := (s.spectrum.getPsd s.par).map fun x => Bin32.add x s.par.feed.specCalDb
    let out := s.filteredSpectrum v
    State.emit { s with specLpf := out, specLpfValid := true, lastSpecMs := s.timeMs } .iq ⟨.spectrumData, 0, tx, out⟩

/-- What follows a receive emission of the waterfall (R199): the S-meter unless recording (R230), then the hold counter
or the estimator. -/
def State.afterRxWaterfall (s : State) (q : List Sc) : State :=
  let s1 := if s.regs.recActive then s else s.smeter q
  if s1.minMaxDelay = 0 then s1.autolevel q else { s1 with minMaxDelay := s1.minMaxDelay - 1 }

/-- `update_waterfall(tx)` (R199, R200, R201). -/
def State.updateWaterfall (s : State) (tx : Bool) : State :=
  if !gatePasses s.timeMs s.lastWfMs s.par.feed.wfPeriodMs then s
  else
    let q := (s.waterfall.getPsd s.par).map fun x => Bin32.add x s.par.feed.wfCalDb
    let s1 := State.emit { s with lastWfMs := s.timeMs } .iq ⟨.waterfallData, 0, tx, q⟩
    if tx then { s1 with minMaxDelay := s1.par.feed.minmaxDelayTx } else s1.afterRxWaterfall q

/-- The settle counter's step: tested first, then decremented if it is not zero (R190, R195). -/
def State.countSettle (s : State) : State :=
  if s.psdDelay = 0 then s else { s with psdDelay := s.psdDelay - 1 }

/-- The outputs of a settled frame, in the order of R190 (R202). -/
def State.produceOutputs (s : State) (tx : Bool) : State :=
  let s1 := (s.updateSpectrum tx).updateWaterfall tx
  if anfBranch s1.regs tx then s1.anfUpdate else s1

/-- The effect of a DSP.SAMPLES whose checks have passed (R190). -/
def State.frame (s : State) (tx : Bool) (buf : List Cx) : State :=
  let s1 := s.processSamples buf tx
  if s1.settled then s1.countSettle.produceOutputs tx else s1.countSettle

/-- DSP.SAMPLES tx, buf (R190, R191): port 0 only; BAD_LENGTH when the count is not RADIO_CHUNK, then BAD_VALUE. -/
def execDspSamples (tx : Bool) (buf : List (Word × Word)) (s : State) : Host.Outcome State Fault Refusal :=
  guarded
    [ (notOnPort s .iq, .wrongPort),
      (buf.length != s.par.spg.radioChunk, .badLength),
      (samplesNotAdmitted s buf, .badValue) ]
    s (s.frame tx (complexSamples buf))

end Machine
end Sys2Proof
end

