-- ==== Sys2Proof/Machine/Dispatch.lean ====
section
/-! DEFINITION. The meaning of each command, one arm per constructor of Instr. -/

namespace Sys2Proof
namespace Machine

def exec (i : Instr) (s : State) : Host.Outcome State Fault Refusal :=
  match i with
  | .nop => Sys2Proof.Machine.execNop s
  | .cfgWr reg value => Sys2Proof.Machine.execCfgWr reg value s
  | .cfgRd reg => Sys2Proof.Machine.execCfgRd reg s
  | .dspRst mask => Sys2Proof.Machine.execDspRst mask s
  | .zoom z => Sys2Proof.Machine.execZoom z s
  | .cwTone hz => Sys2Proof.Machine.execCwTone hz s
  | .spgWrite unit chunk => Sys2Proof.Machine.execSpgWrite unit chunk s
  | .spgGetpsd unit => Sys2Proof.Machine.execSpgGetpsd unit s
  | .spgSetalpha unit v => Sys2Proof.Machine.execSpgSetalpha unit v s
  | .spgClear unit => Sys2Proof.Machine.execSpgClear unit s
  | .spgReset unit => Sys2Proof.Machine.execSpgReset unit s
  | .dspSamples tx buf => Sys2Proof.Machine.execDspSamples tx buf s
  | .audSamples samples => Sys2Proof.Machine.execAudSamples samples s

end Machine
end Sys2Proof
end

