-- ==== Sys2Proof/WellFormed.lean ====
section
/-! DEFINITION. Which terms of `Instr` are commands: a sample count must fit the header's ARG field (R112, R119). -/

namespace Sys2Proof

/-- The largest sample count a header can carry: ARG is an unsigned 16-bit field (R112, R119). -/
def maxSamples : Nat := 65535

/-- A term of `Instr` that some words encode: the sample count of formats US and S fits in `ARG`
(R114, R119, R120). Every other field has its width in its type. -/
def Instr.wellFormed : Instr → Bool
  | .nop => true
  | .cfgWr _ _ => true
  | .cfgRd _ => true
  | .dspRst _ => true
  | .zoom _ => true
  | .cwTone _ => true
  | .spgWrite _ chunk => chunk.length ≤ maxSamples
  | .spgGetpsd _ => true
  | .spgSetalpha _ _ => true
  | .spgClear _ => true
  | .spgReset _ => true
  | .dspSamples _ buf => buf.length ≤ maxSamples
  | .audSamples samples => samples.length ≤ maxSamples

end Sys2Proof
end

