-- ==== Sys2Proof/Decode.lean ====
section
/-! DEFINITION. The decoder and the encoder of the commands (30_encoding.md R111 to R120), total on any words. -/

namespace Sys2Proof

/-- One row of the opcode map (R115), with the length rule of R113 for it: `fixedWords` words plus
`perSample` words for each of the `h[15:0]` samples. -/
structure OpRow where
  opc : BitVec 8
  mnemonic : String
  matchBits : Word
  mask : Word
  fixedWords : Nat
  perSample : Nat
deriving DecidableEq, Repr

/-- The opcode map, row by row in the order of R115; lengths from R113. -/
def opcodeMap : List OpRow :=
  [ ⟨0x00, "NOP",          0x00000000, 0xFFFFFFFF, 1, 0⟩,
    ⟨0x01, "CFG.WR",       0x01000000, 0xFFFF0000, 2, 0⟩,
    ⟨0x02, "CFG.RD",       0x02000000, 0xFFFF0000, 1, 0⟩,
    ⟨0x03, "DSP.RST",      0x03000000, 0xFFFFFFFC, 1, 0⟩,
    ⟨0x04, "ZOOM",         0x04000000, 0xFFFF0000, 1, 0⟩,
    ⟨0x05, "CW.TONE",      0x05000000, 0xFFFF0000, 1, 0⟩,
    ⟨0x10, "SPG.WRITE",    0x10000000, 0xFF0F0000, 1, 2⟩,
    ⟨0x11, "SPG.GETPSD",   0x11000000, 0xFF0FFFFF, 1, 0⟩,
    ⟨0x12, "SPG.SETALPHA", 0x12000000, 0xFF0FFFFF, 2, 0⟩,
    ⟨0x13, "SPG.CLEAR",    0x13000000, 0xFF0FFFFF, 1, 0⟩,
    ⟨0x14, "SPG.RESET",    0x14000000, 0xFF0FFFFF, 1, 0⟩,
    ⟨0x20, "DSP.SAMPLES",  0x20000000, 0xFFFE0000, 1, 2⟩,
    ⟨0x21, "AUD.SAMPLES",  0x21000000, 0xFFFF0000, 1, 1⟩ ]

/-- `h[31:24]`, the opcode field OPC (R112). -/
def hdrOpc (h : Word) : BitVec 8 := h.extractLsb' 24 8

/-- `h[23:20]`, the unit selector UNIT (R112, R120). -/
def hdrUnit (h : Word) : BitVec 4 := h.extractLsb' 20 4

/-- `h[16]`, the transmit flag TX (R112). -/
def hdrTx (h : Word) : Bool := h.getLsbD 16

/-- `h[15:0]`, the immediate ARG (R112, R120). -/
def hdrArg (h : Word) : BitVec 16 := h.extractLsb' 0 16

/-- `h[1:0]`, the domain mask of DSP.RST (R114, R304). -/
def hdrMask (h : Word) : BitVec 2 := h.extractLsb' 0 2

/-- The row of R115 whose OPC the header carries, if any. -/
def opcodeRow (h : Word) : Option OpRow := opcodeMap.find? fun r => r.opc == hdrOpc h

/-- Command length in words, from the header alone, before any validity check (R111, R113); an illegal
OPC has length 1. -/
def commandLength (h : Word) : Nat :=
  match opcodeRow h with
  | none => 1
  | some r => r.fixedWords + r.perSample * (hdrArg h).toNat

/-- Why words are no command. -/
inductive DecodeError where
  /-- Fewer words than the header calls for: the command is not ready (R111). -/
  | incomplete
  /-- `h[31:24]` is no OPC of R115 (R116 check 1). -/
  | badOpcode
  /-- A legal OPC with a reserved bit set: `h & mask ≠ match` (R116 check 2). -/
  | badEncoding
deriving DecidableEq, Repr

/-- The words of a payload of complex samples, two by two, I then Q (R84, R120). A last single word, which
no length of R113 leaves, is dropped. -/
def samplePairs : List Word → List (Word × Word)
  | i :: q :: rest => (i, q) :: samplePairs rest
  | _ => []

/-- The instruction of a header whose OPC and reserved bits have passed the checks, with its payload
words (R114, R120). -/
def assemble (h : Word) (payload : List Word) : Option Instr :=
  match (hdrOpc h).toNat with
  | 0x00 => some .nop
  | 0x01 => some (.cfgWr (hdrArg h) (payload.headD 0))
  | 0x02 => some (.cfgRd (hdrArg h))
  | 0x03 => some (.dspRst (hdrMask h))
  | 0x04 => some (.zoom (hdrArg h))
  | 0x05 => some (.cwTone (hdrArg h))
  | 0x10 => some (.spgWrite (hdrUnit h) (samplePairs payload))
  | 0x11 => some (.spgGetpsd (hdrUnit h))
  | 0x12 => some (.spgSetalpha (hdrUnit h) (payload.headD 0))
  | 0x13 => some (.spgClear (hdrUnit h))
  | 0x14 => some (.spgReset (hdrUnit h))
  | 0x20 => some (.dspSamples (hdrTx h) (samplePairs payload))
  | 0x21 => some (.audSamples payload)
  | _ => none

/-- The decoder: the command at the front of `words`, which are the words of one port from a header on.
Checks 1 and 2 of R116 in that order; the words after the command's own are not read. -/
def decode (words : List Word) : Except DecodeError Instr :=
  match words with
  | [] => .error .incomplete
  | h :: rest =>
    let n := commandLength h
    if words.length < n then .error .incomplete
    else
      match opcodeRow h with
      | none => .error .badOpcode
      | some r =>
        if h &&& r.mask ≠ r.matchBits then .error .badEncoding
        else
          match assemble h (rest.take (n - 1)) with
          | none => .error .badOpcode
          | some i => .ok i

/-! ## The encoder -/

/-- A header word from its fields (R112), reserved bits 19:17 zero. -/
def header (opc : BitVec 8) (unit : BitVec 4) (tx : Bool) (arg : BitVec 16) : Word :=
  opc ++ unit ++ (0 : BitVec 3) ++ BitVec.ofBool tx ++ arg

/-- The payload words of complex samples, I then Q each (R84, R120). -/
def sampleWords (samples : List (Word × Word)) : List Word :=
  samples.flatMap fun s => [s.1, s.2]

/-- The words of a command, from the formats of R114 and the opcodes of R115. -/
def encode : Instr → List Word
  | .nop => [header 0x00 0 false 0]
  | .cfgWr reg value => [header 0x01 0 false reg, value]
  | .cfgRd reg => [header 0x02 0 false reg]
  | .dspRst mask => [header 0x03 0 false (mask.setWidth 16)]
  | .zoom z => [header 0x04 0 false z]
  | .cwTone hz => [header 0x05 0 false hz]
  | .spgWrite u chunk => header 0x10 u false (BitVec.ofNat 16 chunk.length) :: sampleWords chunk
  | .spgGetpsd u => [header 0x11 u false 0]
  | .spgSetalpha u v => [header 0x12 u false 0, v]
  | .spgClear u => [header 0x13 u false 0]
  | .spgReset u => [header 0x14 u false 0]
  | .dspSamples tx buf => header 0x20 0 tx (BitVec.ofNat 16 buf.length) :: sampleWords buf
  | .audSamples samples => header 0x21 0 false (BitVec.ofNat 16 samples.length) :: samples

/-! ## The words of a table row -/

/-- `n` words from the bits of `v`, the first word the least significant (bits 31:0). -/
def wordsOf (v : Nat) : Nat → List Word
  | 0 => []
  | n + 1 => BitVec.ofNat 32 v :: wordsOf (v / 2 ^ 32) n

/-- The words of an instruction whose bits are `w`: the header is bits 31:0, payload word k is bits
32k+63:32k+32, and every bit above `nbits` is zero; as many words as the header calls for (R113). -/
def tableWords (nbits w : Nat) : List Word :=
  let bits := w % 2 ^ nbits
  wordsOf bits (commandLength (BitVec.ofNat 32 bits))

/-- The instruction the decoder reads from an instruction whose bits are `w`; `none` where it refuses. -/
def decodeTableWord (nbits w : Nat) : Option Instr :=
  match decode (tableWords nbits w) with
  | .ok i => some i
  | .error _ => none

end Sys2Proof
end

