-- ==== Sys2Proof/Machine/Fetch.lean ====
section
/-! DEFINITION. Taking the next command from a port's stream (30_encoding.md R111, R113, R116), and the turns of the
environment that are no command: the time base, arriving words, the reset input. -/

namespace Sys2Proof
namespace Machine

/-- The block is halted: S.run is FAULT (R331). -/
def State.halted (s : State) : Bool := s.run == .fault

/-- Output pin `fault`: 1 in FAULT (R34, R331). -/
def State.pinFault (s : State) : Bool := s.halted

/-- Output pins `fault_code[7:0]` (R34, R331). -/
def State.pinFaultCode (s : State) : BitVec 8 := s.faultCode

/-- A word carried over a byte-serial link: least significant byte first (R83). The block itself sees whole words. -/
def linkBytes (w : Word) : List (BitVec 8) :=
  [w.extractLsb' 0 8, w.extractLsb' 8 8, w.extractLsb' 16 8, w.extractLsb' 24 8]

/-- The word that four bytes of a byte-serial link make, the first the least significant (R83). -/
def linkWord (b0 b1 b2 b3 : BitVec 8) : Word := b3 ++ b2 ++ b1 ++ b0

/-- The words of a port's next command when it is ready: its header and all the payload words the header calls for have
arrived (R111). -/
def State.readyWords (s : State) (p : Port) : Option (List Word) :=
  match s.stream p with
  | [] => none
  | h :: rest =>
    if (h :: rest).length < commandLength h then none else some ((h :: rest).take (commandLength h))

/-- The state with the first `n` words of a port's stream consumed, `p` being the port whose command runs (R111). -/
def State.consume (s : State) (p : Port) (n : Nat) : State :=
  { s.setStream p ((s.stream p).drop n) with cur := p }

/-- What a port's turn comes to. -/
inductive Issue where
  /-- No step: the block is halted (R331) or the port has no ready command (R111). -/
  | idle
  /-- The command `i` runs, from the state with its words consumed. -/
  | command (i : Instr) (s : State)
  /-- The words are no command: the fault is raised, the words are consumed (R116 checks 1 and 2, R331). -/
  | illegal (f : FaultCode) (s : State)
deriving DecidableEq, Repr

/-- The fault of words that are no command (R116). A ready command is never incomplete. -/
def decodeFault : DecodeError → FaultCode
  | .badEncoding => .badEncoding
  | .badOpcode => .badOpcode
  | .incomplete => .badOpcode

/-- A port's turn: its next command, if the block runs and the command is ready (R91, R111, R331). -/
def State.issue (s : State) (p : Port) : Issue :=
  if s.halted then .idle
  else
    match s.readyWords p with
    | none => .idle
    | some ws =>
      match decode ws with
      | .ok i => .command i (s.consume p ws.length)
      | .error e => .illegal (decodeFault e) (s.consume p ws.length)

/-- A tick of the time base (R344): it runs in FAULT too (R331). -/
def State.tick (s : State) (d : Nat) : Host.Outcome State Fault Refusal :=
  if s.timeMs.toNat + d < 2 ^ 64 then .next { s with timeMs := BitVec.ofNat 64 (s.timeMs.toNat + d) }
  else .fault .timeBeyond64Bits

/-- A word arrives on a port's stream; a halted block ignores it (R331). -/
def State.arriveWord (s : State) (p : Port) (w : Word) : State :=
  if s.halted then s else s.setStream p (s.stream p ++ [w])

/-- Hardware reset (R360): every field at its reset value, the streams empty, nothing emitted; the environment's
further turns are not the block's and stay. -/
def State.hardReset (s : State) : State := { State.resetOf s.par with agenda := s.agenda }

/-- The port a command's words are placed on for `withFetchWord`: the only legal one for AUD.SAMPLES, port 0, where every
other command is legal, for the rest (R115). -/
def servingPort (ws : List Word) : Port := if hdrOpc (ws.headD 0) = 0x21 then .aud else .iq

/-- The state with a command's words at the front of its port's stream and the next turn given to that port. -/
def State.place (s : State) (ws : List Word) : State :=
  let p := servingPort ws
  { s.setStream p (ws ++ s.stream p) with agenda := .port p :: s.agenda }

end Machine
end Sys2Proof
end

