-- ==== Sys2Proof/Machine/Step.lean ====
section
/-! DEFINITION. One atomic step of the block and its environment (20_memory.md R90, R91). -/

namespace Sys2Proof
namespace Machine

/-- A port's turn run to its end (R90). -/
def runPort (p : Port) (s : State) : Host.Outcome State Fault Refusal :=
  match s.issue p with
  | .idle => .next s
  | .command i t => exec i t
  | .illegal f t => .next (raise f t)

/-- One step: the environment's next turn is taken (R91, R341). -/
def step (s : State) : Host.Outcome State Fault Refusal :=
  match s.agenda with
  | [] => .fault .noTurn
  | .tick d :: rest => State.tick { s with agenda := rest } d
  | .arrive p w :: rest => .next (State.arriveWord { s with agenda := rest } p w)
  | .port p :: rest => runPort p { s with agenda := rest }
  | .rst :: rest => .next (State.hardReset { s with agenda := rest })

/-- `s` with the instruction of bits `w` at the front of its port's stream and the next turn given to that port. -/
def State.withFetchWord (s : State) (nbits w : Nat) : State := s.place (tableWords nbits w)

end Machine
end Sys2Proof
end

