-- ==== Sys2Proof/Safety.lean ====
section
/-! DEFINITION. The terms the statements use: sums and rounding of the datapath, what a well-formed state of the block is, and
which parts of two states agree. -/

namespace Sys2Proof

/-! ## The datapath (00_scope.md R20) -/

/-- `t` is the sum of the scalars listed, each added exactly once with `NUM.add`, in some order and grouping: the order is
`NUM`'s (R20, R174). -/
inductive Bin32.SumOf : List Sc → Sc → Prop where
  | one (x : Sc) : SumOf [x] x
  | add {xs ys : List Sc} {a b : Sc} : SumOf xs a → SumOf ys b → SumOf (xs ++ ys) (Bin32.add a b)
  | reorder {xs ys : List Sc} {t : Sc} : xs.Perm ys → SumOf xs t → SumOf ys t

/-- `y` is bin `k` of the forward DFT of `x`, N the length of `x` (R18): each part the sum over n of that part of
`x[n] * cis(-2*pi*k*n/N)`, with no scaling, the product R12's. -/
def Bin32.DftOf (x : List Cx) (k : Nat) (y : Cx) : Prop :=
  let terms := x.zipIdx.map fun (xn, n) =>
    let co := Config.cosPi (-(2 * (k : Int) * (n : Int))) x.length
    let si := Config.sinPi (-(2 * (k : Int) * (n : Int))) x.length
    (⟨Bin32.sub (Bin32.mul xn.re co) (Bin32.mul xn.im si), Bin32.add (Bin32.mul xn.re si) (Bin32.mul xn.im co)⟩ : Cx)
  SumOf (terms.map Cx.re) y.re ∧ SumOf (terms.map Cx.im) y.im

/-- `r` is the real number `v`, given in units of 2^-149, correctly rounded to binary32 (R20): below the overflow bound
`(2^25 - 1) * 2^252` no finite scalar is nearer than `r`, and `r` is even where another one is equally near; from the bound
on `r` is the infinity of the sign of `v`. -/
def Bin32.RoundsTo (v : ℝ) (r : Sc) : Prop :=
  (|v| < (2 ^ 25 - 1) * 2 ^ 252 →
      Bin32.isFinite r = true
        ∧ ∀ z : Sc, Bin32.isFinite z = true →
            |(Bin32.fix r : ℝ) - v| ≤ |(Bin32.fix z : ℝ) - v|
              ∧ (|(Bin32.fix r : ℝ) - v| = |(Bin32.fix z : ℝ) - v| → Bin32.fix z ≠ Bin32.fix r → r.toNat % 2 = 0))
    ∧ ((2 ^ 25 - 1) * 2 ^ 252 ≤ v → r = Bin32.inf false)
    ∧ (v ≤ -((2 ^ 25 - 1) * 2 ^ 252) → r = Bin32.inf true)

namespace Machine

/-! ## Parts that agree -/

/-- The IQ domain of 10_state.md sections 4 to 7 (R31) is the same in both states. -/
abbrev SameIq (s t : State) : Prop :=
  t.spectrum = s.spectrum ∧ t.waterfall = s.waterfall ∧ t.anf = s.anf ∧ t.dcb = s.dcb ∧ t.zdecM = s.zdecM
    ∧ t.zdec = s.zdec ∧ t.adec = s.adec ∧ t.psdDelay = s.psdDelay ∧ t.minMaxDelay = s.minMaxDelay
    ∧ t.lastSpecMs = s.lastSpecMs ∧ t.lastWfMs = s.lastWfMs ∧ t.lastAnfMs = s.lastAnfMs
    ∧ t.specLpf = s.specLpf ∧ t.specLpfValid = s.specLpfValid
    ∧ t.gridMin = s.gridMin ∧ t.gridMax = s.gridMax ∧ t.meterDb = s.meterDb
    ∧ t.anfHist = s.anfHist ∧ t.anfPublished = s.anfPublished

/-- The CW domain of 10_state.md section 8 (R31) is the same in both states. -/
abbrev SameCw (s t : State) : Prop :=
  t.hilbDl = s.hilbDl ∧ t.ddsAcc = s.ddsAcc ∧ t.ddsFtw = s.ddsFtw ∧ t.cwdec = s.cwdec ∧ t.cw = s.cw

/-- The global state (R34) and the parameters (R8) are the same. -/
abbrev SameGlobal (s t : State) : Prop :=
  t.par = s.par ∧ t.run = s.run ∧ t.faultCode = s.faultCode ∧ t.timeMs = s.timeMs

/-- The command streams, the environment's turns and the current port are the same. -/
abbrev SameInputs (s t : State) : Prop :=
  t.inIq = s.inIq ∧ t.inAud = s.inAud ∧ t.inCfg = s.inCfg ∧ t.agenda = s.agenda ∧ t.cur = s.cur

/-- The event streams are the same. -/
abbrev SameEvents (s t : State) : Prop := t.outIq = s.outIq ∧ t.outAud = s.outAud ∧ t.outCfg = s.outCfg

/-! ## Well-formed states -/

/-- A unit's vectors have the lengths of its geometry (R41). -/
abbrev SpgUnit.Shaped (u : SpgUnit) : Prop := u.ring.length = u.b ∧ u.psd.length = u.n

/-- A unit's weights: `gamma = 1 - alpha` with alpha in [0, 1] in exponential mode, both 1 in accumulate mode (R41). -/
abbrev SpgUnit.Weighted (u : SpgUnit) : Prop :=
  (u.acc = false → Bin32.inUnit u.alpha = true ∧ u.gamma = Bin32.sub Bin32.one u.alpha)
    ∧ (u.acc = true → u.alpha = Bin32.one ∧ u.gamma = Bin32.one)

/-- The three units have the geometry of R142, unit 0 for the zoom factor in force. -/
abbrev State.UnitsFit (s : State) : Prop :=
  s.spectrum.n = s.par.spg.nSpec ∧ s.spectrum.b = s.par.spg.bSpec ∧ s.spectrum.c = s.par.cSpec s.regs.zoom.toNat
    ∧ s.waterfall.n = s.par.spg.nWf ∧ s.waterfall.b = s.par.spg.bWf ∧ s.waterfall.c = s.par.cWf
    ∧ s.anf.n = s.par.nAnf ∧ s.anf.b = s.par.bAnf ∧ s.anf.c = s.par.cAnf
    ∧ s.spectrum.Shaped ∧ s.waterfall.Shaped ∧ s.anf.Shaped

/-- The decimators at a command boundary: delay lines of the ROMs' lengths (R44, R45, R55), both IQ phases zero (R46), the
CW phase below its factor. -/
abbrev State.DecimatorsFit (s : State) : Prop :=
  s.zdecM = s.regs.zoom.toNat ∧ s.zdec.dl.length = s.par.lZoom s.zdecM ∧ s.zdec.ph = 0
    ∧ s.adec.dl.length = s.par.lAnf ∧ s.adec.ph = 0
    ∧ s.cwdec.dl.length = s.par.lCw ∧ s.cwdec.ph < s.par.cw.dCw

/-- The buffers of the feed and of the CW decoder and the ANF history have their lengths, their counts their ranges (R50,
R53, R54, R56 to R58). -/
abbrev State.BuffersFit (s : State) : Prop :=
  s.specLpf.length = s.par.spg.nSpec ∧ s.hilbDl.length = s.par.cw.hilbLen
    ∧ s.cw.blk.length = s.par.cw.fftCw ∧ s.cw.blkN < s.par.cw.fftCw
    ∧ s.cw.rwin.length = s.par.cw.cwRmsLen ∧ s.cw.hopN < s.par.cw.cwRmsHop
    ∧ s.cw.dly.length ≤ s.par.cwDlyLen ∧ s.anfHist.length = s.par.feed.anfHistLen

/-- The configuration registers hold legal values (R35, R37, R39, R177, R306) and the tuning word belongs to the tone
(R264). -/
abbrev State.ConfigLegal (s : State) : Prop :=
  s.par.zoomLegal s.regs.zoom.toNat = true ∧ s.par.toneLegal s.regs.cwTone.toNat = true
    ∧ s.ddsFtw = s.par.ftw s.regs.cwTone.toNat
    ∧ s.regs.mode.extractLsb' 6 26 = 0
    ∧ Bin32.lt 0 s.regs.cwGist = true
    ∧ Bin32.inUnit s.regs.cwPeakBeta = true ∧ Bin32.inUnit s.regs.cwNoiseBeta = true ∧ Bin32.inUnit s.regs.specBeta = true

/-- A state of a block with valid parameters in which every part has its shape and every register a legal value. -/
abbrev State.Sound (s : State) : Prop :=
  s.par.valid = true ∧ s.UnitsFit ∧ s.DecimatorsFit ∧ s.BuffersFit ∧ s.ConfigLegal

/-- Every unit's weights are as R41 says. -/
abbrev State.WeightsHold (s : State) : Prop := s.spectrum.Weighted ∧ s.waterfall.Weighted ∧ s.anf.Weighted

/-- The ceiling belongs to the floor (R51, R225). -/
abbrev State.CeilingHolds (s : State) : Prop := s.gridMax = Bin32.add s.gridMin s.par.feed.headroomDb

/-- The fault code is 0 exactly while the block runs (R34, R332). -/
abbrev State.FaultMarked (s : State) : Prop := s.run = .run ↔ s.faultCode = 0

end Machine
end Sys2Proof
end

