-- ==== Sys2Proof/Certificates/Slice0/Obligations.lean ====
section
/-! DEFINITION. Statements about the model for the provers, rule by rule of spec/. A fault of the block is the next state
`{ s with run := .fault, faultCode := <code of R332> }` (R331; log 9). Turns and the agenda are the model's form of the environment (log 10);
scalar formulas are rounded operation by operation (log 8). -/

open Sys2Proof Sys2Proof.Machine

/-! ## Encoding and decoding -/

/-- Every well-formed command decodes from its words, whatever words follow them (R111 to R115, R120). -/
def Obligations.DecodeOfEncode : Prop :=
  ∀ (i : Instr) (more : List Word), i.wellFormed = true →
    decode (encode i ++ more) = .ok i ∧ commandLength ((encode i).headD 0) = (encode i).length

/-- No bit of a command's words is dropped: the words that decode to a command are its encoding, and the command is well
formed (R112 to R115, R120). -/
def Obligations.EncodeOfDecode : Prop :=
  ∀ (ws : List Word) (i : Instr), decode ws = .ok i →
    i.wellFormed = true ∧ ws.take (commandLength (ws.headD 0)) = encode i

/-- Words written out from the spec's encodings (R125, 95_test_vectors.md section 5) decode to their commands. -/
def Obligations.SpecWordsDecode : Prop :=
  decode [0x00000000#32] = .ok .nop
    ∧ decode [0x01000007#32, 0x40400000#32] = .ok (.cfgWr 0x07 0x40400000#32)
    ∧ decode [0x02000001#32] = .ok (.cfgRd 0x01)
    ∧ decode [0x03000002#32] = .ok (.dspRst 2)
    ∧ decode [0x050002BC#32] = .ok (.cwTone 700)
    ∧ decode [0x10000002#32, 0x3F800000#32, 0#32, 0x40000000#32, 1#32]
        = .ok (.spgWrite 0 [(0x3F800000#32, 0#32), (0x40000000#32, 1#32)])
    ∧ decode [0x12100000#32, 0x3E800000#32] = .ok (.spgSetalpha 1 0x3E800000#32)
    ∧ decode [0x20010001#32, 5#32, 6#32] = .ok (.dspSamples true [(5#32, 6#32)])
    ∧ decode [0x21000003#32, 0#32, 0x000003E8#32, 0x0000FC18#32] = .ok (.audSamples [0#32, 0x3E8#32, 0xFC18#32])

/-! ## Steps -/

/-- A running block whose port has a ready command runs exactly the decoded command, on the state with the turn taken, the
command's words consumed and the port noted (R90, R111). -/
def Obligations.StepRunsDecodedCommand : Prop :=
  ∀ (s : State) (p : Port) (rest : List Turn) (ws : List Word) (i : Instr),
    s.agenda = .port p :: rest → s.run = .run → s.readyWords p = some ws → decode ws = .ok i →
      step s = exec i { State.setStream { s with agenda := rest } p ((s.stream p).drop ws.length) with cur := p }

/-- The words of a well-formed command at the front of a port's stream are the command that the port's turn runs,
whatever follows them (R33, R111). -/
def Obligations.StepRunsEncodedCommand : Prop :=
  ∀ (s : State) (p : Port) (rest : List Turn) (i : Instr) (more : List Word),
    i.wellFormed = true → s.agenda = .port p :: rest → s.run = .run → s.stream p = encode i ++ more →
      step s = exec i { State.setStream { s with agenda := rest } p more with cur := p }

/-- A port whose stream holds no whole command has no step: its turn passes and nothing else changes (R99, R111; log 10). -/
def Obligations.UnreadyPortHasNoStep : Prop :=
  ∀ (s : State) (p : Port) (rest : List Turn), s.agenda = .port p :: rest →
    (s.stream p = [] ∨ (s.stream p).length < commandLength ((s.stream p).headD 0)) →
      step s = .next { s with agenda := rest }

/-- An opcode outside R115 raises BAD_OPCODE, consuming one word; a legal opcode with a reserved bit set raises
BAD_ENCODING, consuming the length its header gives (R113, R116, R117, R331). -/
def Obligations.IllegalHeaderHalts : Prop :=
  ∀ (s : State) (p : Port) (rest : List Turn) (h : Word) (ws : List Word),
    s.agenda = .port p :: rest → s.run = .run → s.stream p = h :: ws →
      (((0x06 ≤ (hdrOpc h).toNat ∧ (hdrOpc h).toNat ≤ 0x0F) ∨ (0x15 ≤ (hdrOpc h).toNat ∧ (hdrOpc h).toNat ≤ 0x1F)
          ∨ 0x22 ≤ (hdrOpc h).toNat) →
        step s = .next { State.setStream { s with agenda := rest } p ws with
          cur := p, run := .fault, faultCode := 1 })
      ∧ (∀ r ∈ opcodeMap, r.opc = hdrOpc h → h &&& r.mask ≠ r.matchBits → commandLength h ≤ (h :: ws).length →
        step s = .next { State.setStream { s with agenda := rest } p ((h :: ws).drop (commandLength h)) with
          cur := p, run := .fault, faultCode := 2 })

/-- A word that arrives on a running block joins the end of its port's stream, so that a port's words run in the order of their
arrival (R33, R111); a halted block executes no command and ignores arriving words: only the turn is taken (R331). The turns are
log 10's. -/
def Obligations.HaltedBlockRunsNothing : Prop :=
  ∀ (s : State) (p : Port) (w : Word) (rest : List Turn),
    (s.run = .run → s.agenda = .arrive p w :: rest →
        step s = .next (State.setStream { s with agenda := rest } p (s.stream p ++ [w])))
      ∧ (s.run = .fault → s.agenda = .port p :: rest → step s = .next { s with agenda := rest })
      ∧ (s.run = .fault → s.agenda = .arrive p w :: rest → step s = .next { s with agenda := rest })

/-- Only the reset input leaves FAULT: any other turn keeps the halt, the first fault's code and everything else but the
time (R331). -/
def Obligations.OnlyResetLeavesFault : Prop :=
  ∀ (s t : State), s.run = .fault → s.agenda.head? ≠ some .rst → step s = .next t →
    t = { s with timeMs := t.timeMs, agenda := s.agenda.tail } ∧ s.timeMs.toNat ≤ t.timeMs.toNat

/-- The reset input restores every field to its reset value, empties the streams and keeps the parameters; a valid parameter
set leaves reset in RUN with fault code 0, an invalid one in FAULT with BAD_PARAM (R8, R34, R335, R360, R362); that validity
includes what R175, R176, R266 and R262 ask of the FIR and Hilbert ROMs is the model's choice (log 5, log 21). The values are
the reset columns of 10_state.md, in the parameters (R34, R35, R41 to R62, R361); the numbers State.reset gives the OPEN ones are
the model's (log 1). -/
def Obligations.ResetInputRestoresAll : Prop :=
  ∀ (s : State) (rest : List Turn), s.agenda = .rst :: rest →
    ∃ t, step s = .next t ∧ t = { State.resetOf s.par with agenda := rest }
      ∧ (∀ p, t.stream p = [] ∧ t.events p = []) ∧ t.par = s.par ∧ t.timeMs = 0
      ∧ (s.par.valid = true → t.run = .run ∧ t.faultCode = 0)
      ∧ (s.par.valid = false → t.run = .fault ∧ t.faultCode = 9)
      ∧ (let g := s.par.spg
         t.spectrum
            = { c := g.radioChunk, n := g.nSpec, b := g.bSpec
                ring := List.replicate g.bSpec ⟨0, 0⟩, psd := List.replicate g.nSpec 0
                alpha := g.alpha0Spec, gamma := Bin32.sub 0x3F800000#32 g.alpha0Spec, acc := false, nt := 0 }
          ∧ t.waterfall
            = { c := g.radioChunk, n := g.nWf, b := g.bWf
                ring := List.replicate g.bWf ⟨0, 0⟩, psd := List.replicate g.nWf 0
                alpha := g.alpha0Wf, gamma := Bin32.sub 0x3F800000#32 g.alpha0Wf, acc := false, nt := 0 }
          ∧ (let n := g.fsIq / (g.anfDecim * g.anfResHz)
             let c := g.radioChunk / g.anfDecim
             t.anf
              = { c := c, n := n, b := max n c
                  ring := List.replicate (max n c) ⟨0, 0⟩, psd := List.replicate n 0
                  alpha := g.alpha0Anf, gamma := Bin32.sub 0x3F800000#32 g.alpha0Anf, acc := false, nt := 0 })
          ∧ t.dcb = ⟨⟨0, 0⟩, ⟨0, 0⟩⟩
          ∧ t.zdecM = 1 ∧ t.zdec = ⟨List.replicate (2 * g.zoomFirM + 1) ⟨0, 0⟩, 0⟩
          ∧ t.adec = ⟨List.replicate (2 * g.anfDecim * g.anfFirM + 1) ⟨0, 0⟩, 0⟩)
      ∧ (let f := s.par.feed
         t.psdDelay = f.psdDelayInit ∧ t.minMaxDelay = 0 ∧ t.lastSpecMs = 0 ∧ t.lastWfMs = 0 ∧ t.lastAnfMs = 0
          ∧ t.specLpf = List.replicate s.par.spg.nSpec 0 ∧ t.specLpfValid = false
          ∧ t.gridMin = f.levelLoDb ∧ t.gridMax = Bin32.add f.levelLoDb f.headroomDb ∧ t.meterDb = f.levelLoDb
          ∧ t.anfHist = List.replicate f.anfHistLen 0 ∧ t.anfPublished = f.anfDefaultHz)
      ∧ (let w := s.par.cw
         let pulse := s.par.thresholdPulse w.cwSnr0 w.cwPeakInitDb w.cwNoiseInitDb
         t.hilbDl = List.replicate w.hilbLen 0 ∧ t.ddsAcc = 0 ∧ t.ddsFtw = s.par.ftw w.cwToneInit.toNat
          ∧ t.cwdec = ⟨List.replicate (2 * w.dCw * w.cwFirM + 1) ⟨0, 0⟩, 0⟩
          ∧ t.cw
            = { blk := List.replicate w.fftCw ⟨0, 0⟩, blkN := 0, rwin := List.replicate w.cwRmsLen 0, hopN := 0, dly := []
                peakFiltered := w.cwPeakInitDb, noiseFiltered := w.cwNoiseInitDb
                thresholdPulse := pulse, thresholdSilence := Bin32.sub pulse w.cwGist0, peakOn := false, peakHz := 0 }
          ∧ t.regs
            = { zoom := 1, mode := 0, filterLow := 0, filterHigh := 0, cwTone := w.cwToneInit, cwSnr := w.cwSnr0
                cwGist := w.cwGist0, cwPeakBeta := w.cwPeakBeta0, cwNoiseBeta := w.cwNoiseBeta0
                specBeta := s.par.feed.specBeta0 })

/-- The register file right after reset, index by index (the reset column of R35, with R36, R38 and R62), for every parameter
set (log 1). That CHUNK of SPG_CTL reads C modulo 2^16 for a parameter set with C above 65535, which R41 excludes, is the model's
choice (log 22), and so is what ANF_HIST0 to ANF_HIST2 read for an ANF_HIST_LEN other than 3 (log 29). -/
def Obligations.ResetRegisterValues : Prop :=
  ∀ p : Params,
    (List.range 0x1B).map (fun i => (State.resetOf p).readReg (BitVec.ofNat 16 i))
        = [some (if p.feed.psdDelayInit = 0 then 2 else 0), some 1, some 0, some 0, some 0, some p.cw.cwToneInit,
           some p.cw.cwSnr0, some p.cw.cwGist0, some p.cw.cwPeakBeta0, some p.cw.cwNoiseBeta0, some p.feed.specBeta0,
           some (BitVec.ofNat 32 p.feed.psdDelayInit.toNat), some 0, some p.feed.levelLoDb,
           some (Bin32.add p.feed.levelLoDb p.feed.headroomDb), some p.feed.levelLoDb, some p.cw.cwPeakInitDb,
           some p.cw.cwNoiseInitDb, some (p.thresholdPulse p.cw.cwSnr0 p.cw.cwPeakInitDb p.cw.cwNoiseInitDb),
           some (Bin32.sub (p.thresholdPulse p.cw.cwSnr0 p.cw.cwPeakInitDb p.cw.cwNoiseInitDb) p.cw.cwGist0),
           some p.feed.anfDefaultHz, some 0, some 0, some 0, some 0, some 0, some 0]
      ∧ (List.range 12).map (fun i => (State.resetOf p).readReg (BitVec.ofNat 16 (0x20 + i)))
        = [some p.spg.alpha0Spec, some (Bin32.sub Bin32.one p.spg.alpha0Spec), some 0,
           some (BitVec.ofNat 32 (2 ^ 16 * (p.spg.radioChunk % 2 ^ 16))),
           some p.spg.alpha0Wf, some (Bin32.sub Bin32.one p.spg.alpha0Wf), some 0,
           some (BitVec.ofNat 32 (2 ^ 16 * (p.spg.radioChunk % 2 ^ 16))),
           some p.spg.alpha0Anf, some (Bin32.sub Bin32.one p.spg.alpha0Anf), some 0,
           some (BitVec.ofNat 32 (2 ^ 16 * ((p.spg.radioChunk / p.spg.anfDecim) % 2 ^ 16)))]

/-- A tick adds its milliseconds to the time counter and changes nothing else, in FAULT too (R331, R344). -/
def Obligations.TickAdvancesOnlyTime : Prop :=
  ∀ (s : State) (d : Nat) (rest : List Turn), s.agenda = .tick d :: rest → s.timeMs.toNat + d < 2 ^ 64 →
    ∃ t, step s = .next t ∧ t = { s with timeMs := t.timeMs, agenda := rest }
      ∧ t.timeMs.toNat = s.timeMs.toNat + d

/-- Every command answers a next state, and a fault is precise: the command either leaves S.run and S.fault_code alone, or
changes nothing but them, to FAULT and a code of R332 that a command's own checks raise (R331, R332). -/
def Obligations.FaultsArePrecise : Prop :=
  ∀ (i : Instr) (s : State), ∃ t, exec i s = .next t
    ∧ ((t.run = s.run ∧ t.faultCode = s.faultCode)
      ∨ (t = { s with run := .fault, faultCode := t.faultCode }
          ∧ 3 ≤ t.faultCode.toNat ∧ t.faultCode.toNat ≤ 8))

/-- The seven unit and sample commands raise WRONG_PORT on every port but their own, before any other of their checks
(R334, R340). -/
def Obligations.WrongPortRaisesFirst : Prop :=
  ∀ (s : State) (u : BitVec 4) (v : Word) (chunk : List (Word × Word)) (tx : Bool) (ws : List Word),
    (s.cur ≠ .iq → ∀ i ∈ [Instr.spgWrite u chunk, .spgGetpsd u, .spgSetalpha u v, .spgClear u, .spgReset u,
        .dspSamples tx chunk], exec i s = .next { s with run := .fault, faultCode := 8 })
      ∧ (s.cur ≠ .aud → exec (.audSamples ws) s = .next { s with run := .fault, faultCode := 8 })

/-! ## Control commands -/

/-- NOP (R301): the word 0x00000000 exactly, on any port; a non-zero bit below the opcode raises BAD_ENCODING; no effect. -/
def Obligations.NopHasNoEffect : Prop :=
  (∀ more : List Word, decode (0x00000000#32 :: more) = .ok .nop)
    ∧ (∀ s : State, exec .nop s = .next s)
    ∧ (∀ (s : State) (p : Port) (rest : List Turn) (x : BitVec 24) (more : List Word),
        s.agenda = .port p :: rest → s.run = .run → s.stream p = (0x00#8 ++ x : BitVec 32) :: more →
          step s = .next
            (if x = 0 then { State.setStream { s with agenda := rest } p more with cur := p }
             else { State.setStream { s with agenda := rest } p more with cur := p, run := .fault, faultCode := 2 }))

/-- CFG.WR (R302, R39): the three checks in order, with the legal values of each register; then the register holds the value
and every other register reads as before; nothing outside the register file changes. -/
def Obligations.CfgWrWritesOneRegister : Prop :=
  (∀ (i : BitVec 16) (w : Word) (more : List Word), decode (((0x0100#16 ++ i : BitVec 32)) :: w :: more) = .ok (.cfgWr i w))
    ∧ ∀ (i : BitVec 16) (w : Word) (s : State),
      let rw := i.toNat ∈ [0x02, 0x03, 0x04, 0x06, 0x07, 0x08, 0x09, 0x0A]
      let legal :=
        (i.toNat = 0x02 → w.toNat < 64)
          ∧ (i.toNat ∈ [0x06, 0x07, 0x08, 0x09, 0x0A] →
              Bin32.isFinite w = true ∧ Bin32.mag w ≤ Bin32.mag s.par.spg.inMax)
          ∧ (i.toNat = 0x07 → 0 < Bin32.fix w)
          ∧ (i.toNat ∈ [0x08, 0x09, 0x0A] → 0 ≤ Bin32.fix w ∧ Bin32.fix w ≤ 2 ^ 149)
      (s.readReg i = none → exec (.cfgWr i w) s = .next { s with run := .fault, faultCode := 5 })
      ∧ (s.readReg i ≠ none → ¬ rw → exec (.cfgWr i w) s = .next { s with run := .fault, faultCode := 6 })
      ∧ (rw → ¬ legal → exec (.cfgWr i w) s = .next { s with run := .fault, faultCode := 7 })
      ∧ (rw → legal →
          ∃ t, exec (.cfgWr i w) s = .next t ∧ t = { s with regs := t.regs }
            ∧ t.readReg i = some w ∧ ∀ j : BitVec 16, j ≠ i → t.readReg j = s.readReg j)

/-- CFG.RD (R303): BAD_REG for an index without a register; else one RD_DATA event with the register's content, on the
port that issued the command, and no state written. And the words of any event on its port (R121 to R123): the header, with the
code of its kind, its unit and TX and the number of payload words, and then the payload. That a number above 65535 stands in the
header modulo 2^16 is the model's choice (log 22). -/
def Obligations.CfgRdReportsRegister : Prop :=
  (∀ (i : BitVec 16) (more : List Word), decode (((0x0200#16 ++ i : BitVec 32)) :: more) = .ok (.cfgRd i))
    ∧ ∀ (i : BitVec 16) (s : State),
      (s.readReg i = none → exec (.cfgRd i) s = .next { s with run := .fault, faultCode := 5 })
      ∧ (∀ v, s.readReg i = some v →
          exec (.cfgRd i) s = .next (s.emit s.cur ⟨.rdData, 0, false, [v]⟩))
      ∧ ∀ kc ∈ [(EventKind.spectrumData, 0x81), (.waterfallData, 0x82), (.meterUpdate, 0x83), (.specMin, 0x84), (.specMax, 0x85),
            (.wfMin, 0x86), (.wfMax, 0x87), (.anfFreq, 0x88), (.cwSignal, 0x89), (.cwTune, 0x8A), (.rdData, 0x8B),
            (.psdData, 0x8C)],
          ∀ (u : BitVec 4) (tx : Bool) (payload : List Word),
            Event.words ⟨kc.1, u, tx, payload⟩
              = BitVec.ofNat 32 (kc.2 * 2 ^ 24 + u.toNat * 2 ^ 20 + (if tx then 1 else 0) * 2 ^ 16 + payload.length % 2 ^ 16)
                :: payload

/-- The register map (R35 to R38): what each of the 39 registers reads as, and that no other index holds a register. That CHUNK
of SPG_CTL reads C modulo 2^16 in a state with C above 65535, which R41 excludes, is the model's choice (log 22), and so is what
ANF_HIST0 to ANF_HIST2 read of a history of other than 3 entries (log 29). -/
def Obligations.RegisterMap : Prop :=
  ∀ s : State,
    (List.range 0x1B).map (fun i => s.readReg (BitVec.ofNat 16 i))
        = [some (BitVec.ofNat 32 ((if s.cw.peakOn then 1 else 0) + (if s.psdDelay = 0 then 2 else 0)
             + (if s.specLpfValid then 4 else 0))), some s.regs.zoom, some s.regs.mode, some s.regs.filterLow,
           some s.regs.filterHigh,
           some s.regs.cwTone, some s.regs.cwSnr, some s.regs.cwGist, some s.regs.cwPeakBeta, some s.regs.cwNoiseBeta,
           some s.regs.specBeta, some (s.psdDelay.setWidth 32), some (s.minMaxDelay.setWidth 32), some s.gridMin,
           some s.gridMax, some s.meterDb, some s.cw.peakFiltered, some s.cw.noiseFiltered, some s.cw.thresholdPulse,
           some s.cw.thresholdSilence, some s.anfPublished, some (s.anfHist.getD 0 0), some (s.anfHist.getD 1 0),
           some (s.anfHist.getD 2 0), some s.cw.peakHz, some (BitVec.ofNat 32 s.timeMs.toNat),
           some (BitVec.ofNat 32 (s.timeMs.toNat / 2 ^ 32))]
      ∧ (∀ u : UnitId, ∀ b : BitVec 16, b = BitVec.ofNat 16 (0x20 + 4 * u.bits.toNat) →
          s.readReg b = some (s.unit u).alpha ∧ s.readReg (b + 1) = some (s.unit u).gamma
            ∧ s.readReg (b + 2) = some (s.unit u).nt
            ∧ s.readReg (b + 3)
                = some (BitVec.ofNat 32 (2 ^ 16 * ((s.unit u).c % 2 ^ 16) + (if (s.unit u).acc then 1 else 0))))
      ∧ (∀ i : BitVec 16, s.readReg i = none ↔ (0x1B ≤ i.toNat ∧ i.toNat ≤ 0x1F) ∨ 0x2C ≤ i.toNat)

/-- DSP.RST (R304): bit 0 clears the IQ domain and bit 1 the CW domain, each as the rule lists it; a clear bit leaves its
domain as it is; no configuration register, global state or event changes. -/
def Obligations.DspRstResetsDomains : Prop :=
  (∀ (m : BitVec 2) (more : List Word),
      decode (((0x0300#16 ++ (0#14 ++ m : BitVec 16) : BitVec 32)) :: more) = .ok (.dspRst m))
    ∧ (∀ (x : BitVec 14) (m : BitVec 2) (more : List Word), x ≠ 0 →
      decode (((0x0300#16 ++ (x ++ m : BitVec 16) : BitVec 32)) :: more) = .error .badEncoding)
    ∧ ∀ (m : BitVec 2) (s : State), ∃ t, exec (.dspRst m) s = .next t
      ∧ SameGlobal s t ∧ SameInputs s t ∧ SameEvents s t ∧ t.regs = s.regs
      ∧ (m.getLsbD 0 = false → SameIq s t)
      ∧ (m.getLsbD 0 = true →
          (∀ u : UnitId, t.unit u = { s.unit u with
              ring := List.replicate (s.unit u).b Cx.zero, psd := List.replicate (s.unit u).n 0, nt := 0 })
          ∧ t.dcb = ⟨Cx.zero, Cx.zero⟩ ∧ t.zdecM = s.zdecM
          ∧ t.zdec = ⟨List.replicate (s.par.lZoom s.zdecM) Cx.zero, 0⟩
          ∧ t.adec = ⟨List.replicate s.par.lAnf Cx.zero, 0⟩
          ∧ t.psdDelay = s.par.feed.psdDelayInit ∧ t.minMaxDelay = 0 ∧ t.specLpfValid = false
          ∧ t.anfHist = List.replicate s.par.feed.anfHistLen 0 ∧ t.specLpf = s.specLpf
          ∧ t.lastSpecMs = s.lastSpecMs ∧ t.lastWfMs = s.lastWfMs ∧ t.lastAnfMs = s.lastAnfMs
          ∧ t.gridMin = s.gridMin ∧ t.gridMax = s.gridMax ∧ t.meterDb = s.meterDb ∧ t.anfPublished = s.anfPublished)
      ∧ (m.getLsbD 1 = false → SameCw s t)
      ∧ (m.getLsbD 1 = true →
          t.hilbDl = List.replicate s.par.cw.hilbLen 0 ∧ t.ddsAcc = 0 ∧ t.ddsFtw = s.ddsFtw
          ∧ t.cwdec = ⟨List.replicate s.par.lCw Cx.zero, 0⟩
          ∧ t.cw.blk = List.replicate s.par.cw.fftCw Cx.zero ∧ t.cw.blkN = 0
          ∧ t.cw.rwin = List.replicate s.par.cw.cwRmsLen 0 ∧ t.cw.hopN = 0 ∧ t.cw.dly = []
          ∧ t.cw.peakFiltered = s.par.cw.cwPeakInitDb ∧ t.cw.noiseFiltered = s.par.cw.cwNoiseInitDb
          ∧ t.cw.thresholdPulse = s.par.thresholdPulse s.regs.cwSnr s.par.cw.cwPeakInitDb s.par.cw.cwNoiseInitDb
          ∧ t.cw.thresholdSilence = Bin32.sub t.cw.thresholdPulse s.regs.cwGist
          ∧ t.cw.peakOn = false ∧ t.cw.peakHz = 0)

/-- ZOOM (R305, R177): an illegal factor raises BAD_VALUE; a legal one sets the register, rebuilds the zoom decimator,
sets and clears unit 0, arms the settle counter and unseeds the spectrum filter, and changes nothing else. -/
def Obligations.ZoomRebuildsUnitZero : Prop :=
  (∀ (z : BitVec 16) (more : List Word), decode (((0x0400#16 ++ z : BitVec 32)) :: more) = .ok (.zoom z))
    ∧ ∀ (z : BitVec 16) (s : State),
      (¬(1 ≤ z.toNat ∧ z.toNat ≤ s.par.spg.zoomMax ∧ z.toNat ∣ s.par.spg.radioChunk) →
          exec (.zoom z) s = .next { s with run := .fault, faultCode := 7 })
      ∧ (1 ≤ z.toNat ∧ z.toNat ≤ s.par.spg.zoomMax ∧ z.toNat ∣ s.par.spg.radioChunk →
          exec (.zoom z) s = .next
            { s with
              regs := { s.regs with zoom := z.setWidth 32 }
              zdecM := z.toNat
              zdec := ⟨List.replicate (2 * z.toNat * s.par.spg.zoomFirM + 1) Cx.zero, 0⟩
              spectrum :=
                { s.spectrum with
                  c := s.par.spg.radioChunk / z.toNat
                  ring := List.replicate s.spectrum.b Cx.zero
                  psd := List.replicate s.spectrum.n 0
                  nt := 0 }
              psdDelay := s.par.feed.psdDelayInit
              specLpfValid := false })

/-- CW.TONE (R306): 0 and a tone at or above half the audio rate raise BAD_VALUE; a legal one sets the register and the
tuning word, zeroes the phase and the CW decimator, and changes nothing else. -/
def Obligations.CwToneRetunesDds : Prop :=
  (∀ (f : BitVec 16) (more : List Word), decode (((0x0500#16 ++ f : BitVec 32)) :: more) = .ok (.cwTone f))
    ∧ ∀ (f : BitVec 16) (s : State),
      (f.toNat = 0 ∨ s.par.cw.fsAudio ≤ 2 * f.toNat →
          exec (.cwTone f) s = .next { s with run := .fault, faultCode := 7 })
      ∧ (f.toNat ≠ 0 ∧ 2 * f.toNat < s.par.cw.fsAudio →
          exec (.cwTone f) s = .next
            { s with
              regs := { s.regs with cwTone := f.setWidth 32 }
              ddsFtw := s.par.ftw f.toNat
              ddsAcc := 0
              cwdec := ⟨List.replicate s.par.lCw Cx.zero, 0⟩ })

/-- The tuning word is `round(2^32 * f / FS_AUDIO) mod 2^32`: the integer within half a unit of the quotient, the upper
one at a tie (R14, R264). -/
def Obligations.TuningWordIsNearest : Prop :=
  ∀ (p : Params) (f : Nat), 0 < p.cw.fsAudio →
    ∃ n : Nat, p.ftw f = BitVec.ofNat 32 n
      ∧ 2 * n * p.cw.fsAudio ≤ 2 * 2 ^ 32 * f + p.cw.fsAudio ∧ 2 * 2 ^ 32 * f < (2 * n + 1) * p.cw.fsAudio

/-! ## Spectrogram units -/

/-- SPG.WRITE (R146 to R148): with a chunk of the unit's size and admitted scalars, the windowed samples enter the ring, one
transform of the newest N samples is accumulated bin by bin (seeding after a clear), the count rises; nothing but the
unit changes. Each bin of the transform is the sum of R18, its additions in `NUM`'s order (R20). The model's choice in it: the
products of that sum, |X|^2 and the accumulated sum are rounded operation by operation (log 8), the angles exact (log 2). -/
def Obligations.SpgWriteAccumulates : Prop :=
  ∀ (sel : BitVec 4) (k : UnitId) (chunk : List (Word × Word)) (s : State),
    s.cur = .iq → unitOf sel = some k → chunk.length = (s.unit k).c →
    (∀ w ∈ chunk, Bin32.admitted s.par.spg.inMax w.1 = true ∧ Bin32.admitted s.par.spg.inMax w.2 = true) →
      ∃ t, exec (.spgWrite sel chunk) s = .next t ∧ t = s.setUnit k (t.unit k)
        ∧ (t.unit k).c = (s.unit k).c ∧ (t.unit k).n = (s.unit k).n ∧ (t.unit k).b = (s.unit k).b
        ∧ (t.unit k).alpha = (s.unit k).alpha ∧ (t.unit k).gamma = (s.unit k).gamma ∧ (t.unit k).acc = (s.unit k).acc
        ∧ (t.unit k).ring
            = (List.zipWith Bin32.scale ((s.unit k).window s.par k) (chunk.map fun w => (⟨w.1, w.2⟩ : Cx))).foldl Bin32.push
                (s.unit k).ring
        ∧ (t.unit k).nt.toNat = min ((s.unit k).nt.toNat + 1) (2 ^ 32 - 1)
        ∧ ((s.unit k).Shaped → (s.unit k).n ≤ (s.unit k).b →
            ∀ j, j < (s.unit k).n →
              ∃ x : Cx, Bin32.DftOf ((t.unit k).ring.drop ((s.unit k).b - (s.unit k).n)) j x
                ∧ (t.unit k).psd[j]? = some
                  (let power := Bin32.add (Bin32.mul x.re x.re) (Bin32.mul x.im x.im)
                   if (s.unit k).nt = 0 then power
                   else Bin32.add (Bin32.mul (s.unit k).gamma ((s.unit k).psd.getD j 0)) (Bin32.mul (s.unit k).alpha power)))

/-- SPG.GETPSD (R149, R151): on port 0 and a unit 0 to 2 one PSD_DATA event of N values, element i the dB of bin
`(i - N div 2) mod N`, divided by the count in accumulate mode when that is not 0; nothing else changes. That the quotient by the
count is rounded once, the count itself not, is the model's choice (log 8). -/
def Obligations.SpgGetpsdReports : Prop :=
  (∀ (sel : BitVec 4) (more : List Word),
      decode (((0x11#8 ++ (sel ++ 0#20 : BitVec 24) : BitVec 32)) :: more) = .ok (.spgGetpsd sel))
    ∧ ∀ (sel : BitVec 4) (s : State),
      (s.cur ≠ .iq → exec (.spgGetpsd sel) s = .next { s with run := .fault, faultCode := 8 })
      ∧ (s.cur = .iq → 3 ≤ sel.toNat → exec (.spgGetpsd sel) s = .next { s with run := .fault, faultCode := 3 })
      ∧ ∀ k, s.cur = .iq → unitOf sel = some k →
        ∃ out : List Sc, exec (.spgGetpsd sel) s = .next { s with outIq := s.outIq ++ [⟨.psdData, sel, false, out⟩] }
          ∧ out.length = (s.unit k).psd.length
          ∧ ∀ i, i < out.length →
              out[i]? = some
                (let n := (s.unit k).psd.length
                 let v := (s.unit k).psd.getD ((i + (n - n / 2)) % n) 0
                 Bin32.mul Bin32.ten (Config.log10 (Bin32.maxNum
                   (if (s.unit k).acc = true ∧ (s.unit k).nt ≠ 0 then Bin32.divNat v (s.unit k).nt.toNat else v)
                   s.par.spg.epsPwr)))

/-- SPG.SETALPHA (R153): on port 0, -1.0 selects accumulate mode with both weights 1.0; a value in [0, 1] selects
exponential mode with gamma = 1 - alpha; any other scalar raises BAD_VALUE; ring, accumulator and count are kept. -/
def Obligations.SpgSetalphaSelectsMode : Prop :=
  (∀ (sel : BitVec 4) (v : Word) (more : List Word),
      decode (((0x12#8 ++ (sel ++ 0#20 : BitVec 24) : BitVec 32)) :: v :: more) = .ok (.spgSetalpha sel v))
    ∧ ∀ (sel : BitVec 4) (v : Word) (s : State),
      (s.cur ≠ .iq → exec (.spgSetalpha sel v) s = .next { s with run := .fault, faultCode := 8 })
      ∧ (s.cur = .iq → 3 ≤ sel.toNat → exec (.spgSetalpha sel v) s = .next { s with run := .fault, faultCode := 3 })
      ∧ ∀ k, s.cur = .iq → unitOf sel = some k →
        let admitted := Bin32.isFinite v = true ∧ Bin32.mag v ≤ Bin32.mag s.par.spg.inMax
        let unit := 0 ≤ Bin32.fix v ∧ Bin32.fix v ≤ 2 ^ 149
        (¬ admitted ∨ (v ≠ 0xBF800000#32 ∧ ¬ unit) →
            exec (.spgSetalpha sel v) s = .next { s with run := .fault, faultCode := 7 })
        ∧ (admitted → v = 0xBF800000#32 →
            exec (.spgSetalpha sel v) s
              = .next (s.setUnit k { s.unit k with acc := true, alpha := 0x3F800000#32, gamma := 0x3F800000#32 }))
        ∧ (admitted → unit →
            exec (.spgSetalpha sel v) s
              = .next (s.setUnit k { s.unit k with acc := false, alpha := v, gamma := Bin32.sub 0x3F800000#32 v }))

/-- SPG.CLEAR and SPG.RESET (R154 to R156): on port 0 both zero the unit's ring, accumulator and count, keep its weights,
mode and geometry, and change nothing else; another port raises WRONG_PORT, a unit above 2 BAD_UNIT. -/
def Obligations.SpgClearAndResetZeroUnit : Prop :=
  (∀ (sel : BitVec 4) (more : List Word),
      decode (((0x13#8 ++ (sel ++ 0#20 : BitVec 24) : BitVec 32)) :: more) = .ok (.spgClear sel)
        ∧ decode (((0x14#8 ++ (sel ++ 0#20 : BitVec 24) : BitVec 32)) :: more) = .ok (.spgReset sel))
    ∧ ∀ (sel : BitVec 4) (s : State), ∀ i ∈ [Instr.spgClear sel, .spgReset sel],
      (s.cur ≠ .iq → exec i s = .next { s with run := .fault, faultCode := 8 })
      ∧ (s.cur = .iq → 3 ≤ sel.toNat → exec i s = .next { s with run := .fault, faultCode := 3 })
      ∧ (∀ k, s.cur = .iq → unitOf sel = some k →
          exec i s = .next (s.setUnit k
            { s.unit k with
              ring := List.replicate (s.unit k).b Cx.zero
              psd := List.replicate (s.unit k).n 0
              nt := 0 }))

/-- The checks of SPG.WRITE and DSP.SAMPLES on port 0, in priority order (R146, R190, R191, R334): BAD_UNIT, then BAD_LENGTH,
then BAD_VALUE for a scalar that is not finite or above IN_MAX in magnitude. -/
def Obligations.SampleCommandChecks : Prop :=
  ∀ (sel : BitVec 4) (k : UnitId) (tx : Bool) (chunk : List (Word × Word)) (s : State), s.cur = .iq →
    let bad := ∃ w ∈ chunk, ¬ (Bin32.isFinite w.1 = true ∧ Bin32.mag w.1 ≤ Bin32.mag s.par.spg.inMax
        ∧ Bin32.isFinite w.2 = true ∧ Bin32.mag w.2 ≤ Bin32.mag s.par.spg.inMax)
    (3 ≤ sel.toNat → exec (.spgWrite sel chunk) s = .next { s with run := .fault, faultCode := 3 })
      ∧ (unitOf sel = some k → chunk.length ≠ (s.unit k).c →
          exec (.spgWrite sel chunk) s = .next { s with run := .fault, faultCode := 4 })
      ∧ (unitOf sel = some k → chunk.length = (s.unit k).c → bad →
          exec (.spgWrite sel chunk) s = .next { s with run := .fault, faultCode := 7 })
      ∧ (chunk.length ≠ s.par.spg.radioChunk →
          exec (.dspSamples tx chunk) s = .next { s with run := .fault, faultCode := 4 })
      ∧ (chunk.length = s.par.spg.radioChunk → bad →
          exec (.dspSamples tx chunk) s = .next { s with run := .fault, faultCode := 7 })

/-! ## DSP.SAMPLES -/

/-- DSP.SAMPLES (R190 to R193, R195): with a frame of RADIO_CHUNK admitted samples it completes; units 0 and 1 are written with
the decimated and the full-rate samples, unit 2 only on the ANF branch. While the settle counter is not 0 that and the count
down are all; at 0 the spectrum, then the waterfall, then on the ANF branch the ANF update follow. No configuration register, no
CW state, no other port's events and no global state change. -/
def Obligations.DspSamplesWritesUnits : Prop :=
  ∀ (tx : Bool) (buf : List (Word × Word)) (s : State),
    s.cur = .iq → buf.length = s.par.spg.radioChunk →
    (∀ w ∈ buf, Bin32.admitted s.par.spg.inMax w.1 = true ∧ Bin32.admitted s.par.spg.inMax w.2 = true) →
      let f := s.frontEnd (buf.map fun w => (⟨w.1, w.2⟩ : Cx)) tx
      let anfOn := tx = false ∧ s.regs.mode.getLsbD 0 = true
      let s1 : State :=
        { s with
          dcb := f.dcb, zdec := f.zdec, adec := f.adec
          spectrum := s.spectrum.write s.par .spectrum (if s.regs.zoom = 1 then f.full else f.zc)
          waterfall := s.waterfall.write s.par .waterfall f.full
          anf := if anfOn then s.anf.write s.par .anf f.ac else s.anf }
      let s2 := (s1.updateSpectrum tx).updateWaterfall tx
      (s.psdDelay ≠ 0 → exec (.dspSamples tx buf) s = .next { s1 with psdDelay := s.psdDelay - 1 })
        ∧ (s.psdDelay = 0 → exec (.dspSamples tx buf) s = .next (if anfOn then s2.anfUpdate else s2))
        ∧ ∃ t, exec (.dspSamples tx buf) s = .next t
          ∧ SameGlobal s t ∧ SameInputs s t ∧ SameCw s t ∧ t.regs = s.regs ∧ t.zdecM = s.zdecM
          ∧ t.outAud = s.outAud ∧ t.outCfg = s.outCfg
          ∧ t.dcb = s1.dcb ∧ t.zdec = s1.zdec ∧ t.adec = s1.adec
          ∧ t.spectrum = s1.spectrum ∧ t.waterfall = s1.waterfall ∧ t.anf = s1.anf
          ∧ t.psdDelay.toNat = s.psdDelay.toNat - 1

/-- The sample path (R170 to R172, R192): element i of the full-rate chunk is the swapped output of the DC blocker at sample i,
the blocker ends with the last input and output, and each such sample enters the zoom decimator (when ZOOM is above 1) and the
ANF decimator (on the ANF branch), whose outputs are appended to their chunks. That the blocker's expression is rounded operation by
operation, left to right, is the model's choice (log 8). -/
def Obligations.FullRateChunkIsSwappedDcBlocked : Prop :=
  ∀ (s : State) (tx : Bool) (buf : List Cx) (x : Cx),
    let f := s.frontEnd buf tx
    let g := s.frontEnd (buf ++ [x]) tx
    let y := Bin32.swap (Bin32.cadd (Bin32.csub x f.dcb.x1) (Bin32.scale (Bin32.sub Bin32.one s.par.spg.dcblockAlpha) f.dcb.y1))
    let z := f.zdec.push s.zdecM (Rom.zoomTaps s.par s.zdecM) y
    let a := f.adec.push s.par.spg.anfDecim (Rom.anfTaps s.par) y
    g.full = f.full ++ [y] ∧ g.dcb.x1 = x ∧ g.dcb.y1 = Bin32.swap (g.full.getLastD Cx.zero)
      ∧ (g.zdec, g.zc) = (if 1 < s.regs.zoom.toNat then (z.1, f.zc ++ z.2.toList) else (f.zdec, f.zc))
      ∧ (g.adec, g.ac)
          = (if tx = false ∧ s.regs.mode.getLsbD 0 = true then (a.1, f.ac ++ a.2.toList) else (f.adec, f.ac))
      ∧ s.frontEnd [] tx = { dcb := s.dcb, zdec := s.zdec, adec := s.adec, full := [], zc := [], ac := [] }

/-- The decimator step (R174): the sample enters the delay line; at the M-th input since the phase was zero the phase returns to
zero and the output is the FIR sum, each tap times its sample added once, h[0] meeting the newest sample; else the phase rises.
So a decimator of factor m gives one output for every m inputs from phase zero, keeps its delay line's length and ends at
phase zero after a multiple of m inputs. -/
def Obligations.DecimatorCountsOutputs : Prop :=
  (∀ (m : Nat) (taps : List Sc) (d : Decim) (x : Cx),
      let dl := Bin32.push d.dl x
      let at' := fun k => dl.getD (taps.length - 1 - k) Cx.zero
      (d.ph + 1 ≠ m → d.push m taps x = (⟨dl, d.ph + 1⟩, none))
        ∧ (d.ph + 1 = m → ∃ y : Cx, d.push m taps x = (⟨dl, 0⟩, some y)
            ∧ (taps ≠ [] → d.dl.length = taps.length →
                Bin32.SumOf ((List.range taps.length).map fun k => Bin32.mul (taps.getD k 0) (at' k).re) y.re
                  ∧ Bin32.SumOf ((List.range taps.length).map fun k => Bin32.mul (taps.getD k 0) (at' k).im) y.im)))
    ∧ ∀ (m n : Nat) (taps : List Sc) (d : Decim) (xs out : List Cx), 1 ≤ m → d.ph = 0 → xs.length = n * m →
      let r := xs.foldl (fun (a : Decim × List Cx) x => a.1.feed true m taps a.2 x) (d, out)
      r.1.ph = 0 ∧ r.1.dl.length = d.dl.length ∧ r.2.length = out.length + n

/-- In a sound state every chunk the feed writes has its unit's chunk size (R46, R192). -/
def Obligations.FeedChunksFitUnits : Prop :=
  ∀ (s : State) (tx : Bool) (buf : List Cx), s.Sound → buf.length = s.par.spg.radioChunk →
    let f := s.frontEnd buf tx
    f.full.length = s.waterfall.c
      ∧ (if s.regs.zoom = 1 then f.full else f.zc).length = s.spectrum.c
      ∧ (tx = false → s.regs.mode.getLsbD 0 = true → f.ac.length = s.anf.c)
      ∧ f.zdec.ph = 0 ∧ f.adec.ph = 0

/-- While the settle counter is not zero a frame emits nothing and updates no output state; it is still accumulated and
the counter falls by one (R195). -/
def Obligations.SettlingFrameIsDropped : Prop :=
  ∀ (tx : Bool) (buf : List (Word × Word)) (s t : State),
    exec (.dspSamples tx buf) s = .next t → t.run = s.run → s.run = .run → s.psdDelay ≠ 0 →
      SameEvents s t ∧ t.psdDelay = s.psdDelay - 1
        ∧ t.lastSpecMs = s.lastSpecMs ∧ t.lastWfMs = s.lastWfMs ∧ t.lastAnfMs = s.lastAnfMs
        ∧ t.specLpf = s.specLpf ∧ t.specLpfValid = s.specLpfValid ∧ t.gridMin = s.gridMin ∧ t.gridMax = s.gridMax
        ∧ t.meterDb = s.meterDb ∧ t.anfHist = s.anfHist ∧ t.anfPublished = s.anfPublished
        ∧ t.minMaxDelay = s.minMaxDelay

/-- The events of one DSP.SAMPLES (R202): at most one of each kind, in the order of R202, all on port 0; and of a frame that
runs with the settle counter at 0, which are there: the spectrum and the waterfall exactly when their gates pass (R196), with
a receive waterfall the meter unless recording (R199, R230) and, without a hold, the level events of each display whose bit is
set (R199, R222); an ANF frequency only past its gate, on the ANF branch. -/
def Obligations.FrameEventsInOrder : Prop :=
  ∀ (tx : Bool) (buf : List (Word × Word)) (s t : State), exec (.dspSamples tx buf) s = .next t →
    ∃ es : List Event, t.outIq = s.outIq ++ es ∧ t.outAud = s.outAud ∧ t.outCfg = s.outCfg
      ∧ (es.map Event.kind).Sublist
          [.spectrumData, .waterfallData, .meterUpdate, .specMin, .specMax, .wfMin, .wfMax, .anfFreq]
      ∧ (t.run = s.run → s.run = .run → s.psdDelay = 0 →
          let ks := es.map Event.kind
          let rx := s.lastWfMs.toNat + s.par.feed.wfPeriodMs < s.timeMs.toNat ∧ tx = false
          (.spectrumData ∈ ks ↔ s.lastSpecMs.toNat + s.par.feed.specPeriodMs < s.timeMs.toNat)
            ∧ (.waterfallData ∈ ks ↔ s.lastWfMs.toNat + s.par.feed.wfPeriodMs < s.timeMs.toNat)
            ∧ (.meterUpdate ∈ ks ↔ rx ∧ s.regs.mode.getLsbD 5 = false)
            ∧ (∀ k ∈ [EventKind.specMin, .specMax], k ∈ ks ↔ rx ∧ s.minMaxDelay = 0 ∧ s.regs.mode.getLsbD 3 = true)
            ∧ (∀ k ∈ [EventKind.wfMin, .wfMax], k ∈ ks ↔ rx ∧ s.minMaxDelay = 0 ∧ s.regs.mode.getLsbD 4 = true)
            ∧ (.anfFreq ∈ ks → tx = false ∧ s.regs.mode.getLsbD 0 = true
                ∧ s.lastAnfMs.toNat + s.par.feed.anfPeriodMs < s.timeMs.toNat))

/-- A transmit frame runs no S-meter, no estimator and no ANF branch: their state stays, and its events are a spectrum and
a waterfall at most, with TX set; a waterfall emission arms the hold (R199, R201). -/
def Obligations.TransmitFrameLeavesReceiveState : Prop :=
  ∀ (buf : List (Word × Word)) (s t : State), exec (.dspSamples true buf) s = .next t → t.run = s.run → s.run = .run →
    t.meterDb = s.meterDb ∧ t.gridMin = s.gridMin ∧ t.gridMax = s.gridMax ∧ t.anf = s.anf ∧ t.adec = s.adec
      ∧ t.anfHist = s.anfHist ∧ t.anfPublished = s.anfPublished ∧ t.lastAnfMs = s.lastAnfMs
      ∧ ∃ es : List Event, t.outIq = s.outIq ++ es
          ∧ (∀ e ∈ es, e.tx = true ∧ (e.kind = .spectrumData ∨ e.kind = .waterfallData))
          ∧ t.minMaxDelay
              = if .waterfallData ∈ es.map Event.kind then s.par.feed.minmaxDelayTx else s.minMaxDelay

/-- `update_spectrum` (R16, R196 to R198): nothing unless more than the period has passed; else the calibrated spectrum seeds or
blends into the filter bin by bin, and the filter's contents are the event and the time is noted. The blend's beta is SPEC_BETA
to the power (z - 1) / 2 + 1, that is 1, 1.5, 2.5, 4.5, 8.5, 16.5 for z = 1, 2, 4, 8, 16, 32; it is 0 for 0 (of either sign, log 26)
and 1 for 1. The blend is rounded operation by operation (log 8). -/
def Obligations.SpectrumEmission : Prop :=
  (∀ (s : State) (tx : Bool),
      (s.timeMs.toNat ≤ s.lastSpecMs.toNat + s.par.feed.specPeriodMs → s.updateSpectrum tx = s)
        ∧ (s.lastSpecMs.toNat + s.par.feed.specPeriodMs < s.timeMs.toNat →
            ∃ out : List Sc,
              s.updateSpectrum tx
                = { s with
                    specLpf := out, specLpfValid := true, lastSpecMs := s.timeMs
                    outIq := s.outIq ++ [⟨.spectrumData, 0, tx, out⟩] }
              ∧ (s.specLpf.length = (s.spectrum.getPsd s.par).length → out.length = s.specLpf.length
                  ∧ ∀ i, i < out.length →
                    out[i]? = some
                      (let v := Bin32.add ((s.spectrum.getPsd s.par).getD i 0) s.par.feed.specCalDb
                       let b := s.regs.specBeta
                       let beta :=
                         if b = 0#32 ∨ b = 0x80000000#32 then 0
                         else if b = 0x3F800000#32 then 0x3F800000#32
                         else Config.pow b (Bin32.ofRatio (s.regs.zoom.toNat + 1) 2)
                       if s.specLpfValid = true then
                         Bin32.add (Bin32.mul beta (s.specLpf.getD i 0)) (Bin32.mul (Bin32.sub Bin32.one beta) v)
                       else v))))
    ∧ [1, 2, 4, 8, 16, 32].map (fun z : Nat => Bin32.ofRatio (z + 1) 2)
        = [0x3F800000#32, 0x3FC00000#32, 0x40200000#32, 0x40900000#32, 0x41080000#32, 0x41840000#32]

/-- `update_waterfall` (R196, R199 to R201, R230): nothing unless more than the period has passed; else the calibrated vector q is
emitted and the time noted. A transmit emission arms the hold and is all. After a receive emission `smeter(q)` runs unless
MODE[5] is set; then a hold above 0 counts down, and at 0 `autolevel(q)` runs: no other event, no other change. -/
def Obligations.WaterfallEmissionAndHold : Prop :=
  ∀ (s : State) (tx : Bool),
    let q := (s.waterfall.getPsd s.par).map (Bin32.add · s.par.feed.wfCalDb)
    let s1 : State := { s with lastWfMs := s.timeMs, outIq := s.outIq ++ [⟨.waterfallData, 0, tx, q⟩] }
    let s2 := if s.regs.mode.getLsbD 5 = true then s1 else s1.smeter q
    (s.timeMs.toNat ≤ s.lastWfMs.toNat + s.par.feed.wfPeriodMs → s.updateWaterfall tx = s)
      ∧ (s.lastWfMs.toNat + s.par.feed.wfPeriodMs < s.timeMs.toNat →
          (tx = true → s.updateWaterfall tx = { s1 with minMaxDelay := s.par.feed.minmaxDelayTx })
          ∧ (tx = false → s.minMaxDelay = 0 → s.updateWaterfall tx = s2.autolevel q)
          ∧ (tx = false → s.minMaxDelay ≠ 0 → s.updateWaterfall tx = { s2 with minMaxDelay := s.minMaxDelay - 1 })
          ∧ (s.updateWaterfall tx).lastWfMs = s.timeMs
          ∧ (∃ more : List Event, (s.updateWaterfall tx).outIq = s.outIq ++ ⟨.waterfallData, 0, tx, q⟩ :: more)
          ∧ (tx = false → (s.updateWaterfall tx).minMaxDelay.toNat = s.minMaxDelay.toNat - 1)
          ∧ (s.minMaxDelay ≠ 0 ∨ tx = true →
              (s.updateWaterfall tx).gridMin = s.gridMin ∧ (s.updateWaterfall tx).gridMax = s.gridMax)
          ∧ (s.regs.mode.getLsbD 5 = true ∨ tx = true → (s.updateWaterfall tx).meterDb = s.meterDb))

/-! ## Level estimator and S-meter -/

/-- The percentile (R221): on a vector without NaNs, element K of the ascending sort is the least value of the vector such
that at least K + 1 elements are not above it. -/
def Obligations.PercentileIsLeastWithEnoughBelow : Prop :=
  ∀ (q : List Sc) (k : Nat), (∀ x ∈ q, Bin32.isNan x = false) → k < q.length →
    ∃ x ∈ q, (Bin32.sortAsc q)[k]? = some x
      ∧ k + 1 ≤ q.countP (fun y => Bin32.le y x)
      ∧ ∀ z ∈ q, Bin32.lt z x = true → q.countP (fun y => Bin32.le y z) ≤ k

/-- `autolevel` (R16, R221, R222, R224, R225): with both auto bits clear nothing; else the floor moves toward the percentile
element clamped to the device bounds, the ceiling is the new floor plus the headroom, and each display whose bit is set gets
its two events, in order. The model's choice in it: the low-pass is rounded operation by operation (log 8), a vector shorter than
the percentile index reads 0 there (log 20), and NaNs are ordered by log 3. -/
def Obligations.AutolevelMovesFloor : Prop :=
  ∀ (s : State) (q : List Sc),
    let f := s.par.feed
    let cand := Bin32.clamp ((Bin32.sortAsc q).getD (s.par.spg.nWf * f.autoPctNum / f.autoPctDen) 0) f.levelLoDb
      (Bin32.sub f.levelHiDb f.headroomDb)
    let lo := Bin32.add (Bin32.mul f.autoBeta s.gridMin) (Bin32.mul (Bin32.sub Bin32.one f.autoBeta) cand)
    let hi := Bin32.add lo f.headroomDb
    s.autolevel q
      = if s.regs.mode.getLsbD 3 = false ∧ s.regs.mode.getLsbD 4 = false then s
        else
          { s with
            gridMin := lo
            gridMax := hi
            outIq := s.outIq
              ++ (if s.regs.mode.getLsbD 3 then [⟨.specMin, 0, false, [lo]⟩, ⟨.specMax, 0, false, [hi]⟩] else [])
              ++ (if s.regs.mode.getLsbD 4 then [⟨.wfMin, 0, false, [lo]⟩, ⟨.wfMax, 0, false, [hi]⟩] else []) }

/-- The passband slice (R231, R232): the bin of a frequency is N_WF div 2 plus the truncated f * N_WF / FS_IQ where that lies in
0..N_WF-1, bin 0 below and bin N_WF-1 above; so bins are monotone in the frequency and 0 Hz has bin N_WF div 2; swapping the
two edge registers changes nothing. -/
def Obligations.PassbandBins : Prop :=
  ∀ (p : Params), 1 ≤ p.spg.nWf → 1 ≤ p.spg.fsIq →
    (∀ f : Int,
        let i : Int := (p.spg.nWf / 2 : Nat) + (f * p.spg.nWf).tdiv p.spg.fsIq
        (i < 0 → wfBin p f = 0) ∧ (0 ≤ i → i < p.spg.nWf → (wfBin p f : Int) = i)
          ∧ (p.spg.nWf ≤ i → wfBin p f = p.spg.nWf - 1))
      ∧ (∀ f : Int, wfBin p f ≤ p.spg.nWf - 1)
      ∧ (∀ f g : Int, f ≤ g → wfBin p f ≤ wfBin p g)
      ∧ wfBin p 0 = p.spg.nWf / 2
      ∧ ∀ (r : CfgRegs) (q : List Sc),
          passbandPeak p { r with filterLow := r.filterHigh, filterHigh := r.filterLow } q = passbandPeak p r q

/-- `smeter` (R16, R232, R233): the block keeps the smoothed slice maximum, the event carries the raw one and the beta. That the
low-pass is rounded operation by operation is the model's choice (log 8). -/
def Obligations.SmeterKeepsSmoothedLevel : Prop :=
  ∀ (s : State) (q : List Sc), ∃ peak : Sc,
    s.smeter q
      = { s with
          meterDb := Bin32.add (Bin32.mul s.par.feed.smeterBeta s.meterDb)
            (Bin32.mul (Bin32.sub Bin32.one s.par.feed.smeterBeta) peak)
          outIq := s.outIq ++ [⟨.meterUpdate, 0, false, [peak, s.par.feed.smeterBeta]⟩] }
    ∧ ((∀ x ∈ q, Bin32.isNan x = false) → q.length = s.par.spg.nWf → 1 ≤ s.par.spg.nWf →
        let a := wfBin s.par s.regs.filterLow.toInt
        let b := wfBin s.par s.regs.filterHigh.toInt
        (∃ i, min a b ≤ i ∧ i ≤ max a b ∧ q[i]? = some peak)
          ∧ ∀ i, min a b ≤ i → i ≤ max a b → Bin32.le (q.getD i 0) peak = true)

/-! ## ANF tracker -/

/-- `argmax` (R17): on a range inside a vector without NaNs it is the least index of a greatest element. -/
def Obligations.ArgmaxIsLeastGreatest : Prop :=
  ∀ (v : List Sc) (lo hi : Nat), lo ≤ hi → hi < v.length → (∀ x ∈ v, Bin32.isNan x = false) →
    lo ≤ Bin32.argmax v lo hi ∧ Bin32.argmax v lo hi ≤ hi
      ∧ (∀ j, lo ≤ j → j ≤ hi → Bin32.le (v.getD j 0) (v.getD (Bin32.argmax v lo hi) 0) = true)
      ∧ (∀ j, lo ≤ j → j < Bin32.argmax v lo hi → Bin32.lt (v.getD j 0) (v.getD (Bin32.argmax v lo hi) 0) = true)

/-- `anf_update` (R241 to R249): nothing unless more than the period has passed; else exactly one value enters the history, and
only when all entries agree and the published form differs is it published, with one event. The value (valid parameters, a vector of
N_ANF values without NaNs): the search range lies between the bins of the two edges; with no more bins than ANF_TOP_EXCL it is
0; else, when the greatest bin exceeds the mean of the range without its ANF_TOP_EXCL greatest values by more than the margin, the
offset of that bin (the lowest of equals) from the centre in units of ANF_RES_HZ, negated with MODE.LSB; else 0. A quotient by
a count is rounded once (log 8). The model's choice besides: a value beyond i32, which R9 leaves possible for a large FS_IQ, is taken
modulo 2^32 (log 31), and for an ANF_HIST_LEN other than 3 'all entries' are the whole history, an empty one agreeing (log 29). -/
def Obligations.AnfUpdatePublishesAgreement : Prop :=
  (∀ s : State,
      (s.timeMs.toNat ≤ s.lastAnfMs.toNat + s.par.feed.anfPeriodMs → s.anfUpdate = s)
        ∧ (s.lastAnfMs.toNat + s.par.feed.anfPeriodMs < s.timeMs.toNat →
            let f := anfValue s.par s.regs (s.anf.getPsd s.par)
            let v := if f = 0 then s.par.feed.anfDefaultHz else f
            let s1 := { s with lastAnfMs := s.timeMs, anfHist := Bin32.push s.anfHist f }
            ((∀ x ∈ s1.anfHist, x = f) → v ≠ s.anfPublished →
                s.anfUpdate = { s1 with anfPublished := v, outIq := s.outIq ++ [⟨.anfFreq, 0, false, [v]⟩] })
            ∧ ((∃ x ∈ s1.anfHist, x ≠ f) ∨ v = s.anfPublished → s.anfUpdate = s1)))
    ∧ ∀ (p : Params) (r : CfgRegs) (psd : List Sc), p.valid = true → psd.length = p.nAnf →
        (∀ x ∈ psd, Bin32.isNan x = false) →
        let n := p.spg.fsIq / (p.spg.anfDecim * p.spg.anfResHz)
        let bin := fun f : Int => max 0 (min ((n : Int) - 1) ((n / 2 : Nat) + f.tdiv p.spg.anfResHz))
        let lo := (min (bin r.filterLow.toInt) (bin r.filterHigh.toInt)).toNat
        let hi := (max (bin r.filterLow.toInt) (bin r.filterHigh.toInt)).toNat
        let range := (psd.drop lo).take (hi - lo + 1)
        let imax := Bin32.argmax psd lo hi
        hi < n
          ∧ (hi - lo + 1 ≤ p.feed.anfTopExcl → anfValue p r psd = 0)
          ∧ (p.feed.anfTopExcl < hi - lo + 1 →
              ∃ (top rest : List Sc) (total : Sc),
                (top ++ rest).Perm range ∧ top.length = p.feed.anfTopExcl
                ∧ (∀ x ∈ top, ∀ y ∈ rest, Bin32.le y x = true) ∧ Bin32.SumOf rest total
                ∧ (let tone := Bin32.lt p.feed.anfMarginDb (Bin32.sub (psd.getD imax 0) (Bin32.divNat total rest.length))
                   let f : Int := if tone then ((imax : Int) - (n / 2 : Nat)) * p.spg.anfResHz else 0
                   anfValue p r psd = BitVec.ofInt 32 (if r.mode.getLsbD 2 then -f else f)))

/-- Debounce (R250): whatever a command does to the published frequency, it is only ever a DSP.SAMPLES that changes it, and then
one value has entered the history, every entry equals it, and its published form is the new frequency. That for an ANF_HIST_LEN
other than 3 'all entries' are the whole history, an empty one agreeing, is the model's choice (log 29). -/
def Obligations.AnfPublishedOnlyOnAgreement : Prop :=
  ∀ (i : Instr) (s t : State), exec i s = .next t → t.anfPublished ≠ s.anfPublished →
    (∃ tx buf, i = .dspSamples tx buf)
      ∧ ∃ f : Word, t.anfHist = Bin32.push s.anfHist f ∧ (∀ x ∈ t.anfHist, x = f)
        ∧ (∀ a b c : Word, s.anfHist = [a, b, c] → b = f ∧ c = f ∧ t.anfHist = [f, f, f])
        ∧ t.anfPublished = if f = 0 then s.par.feed.anfDefaultHz else f

/-! ## CW decoder -/

/-- AUD.SAMPLES (R260): it completes on port 1 and changes the CW domain and port 1's events only; samples run in order. -/
def Obligations.AudSamplesStaysInCwDomain : Prop :=
  ∀ (ws vs : List Word) (s : State), s.cur = .aud →
    (∃ t, exec (.audSamples ws) s = .next t
        ∧ SameGlobal s t ∧ SameInputs s t ∧ SameIq s t ∧ t.regs = s.regs ∧ t.ddsFtw = s.ddsFtw
        ∧ t.outIq = s.outIq ∧ t.outCfg = s.outCfg
        ∧ (∃ es : List Event, t.outAud = s.outAud ++ es ∧ ∀ e ∈ es, e.kind = .cwSignal ∨ e.kind = .cwTune)
        ∧ exec (.audSamples (ws ++ vs)) s = exec (.audSamples vs) t)
      ∧ exec (.audSamples []) s = .next s

/-- With MODE.CW_EN = 0 only the Hilbert delay line advances, by the scaled samples (R54, R261 to R263). -/
def Obligations.HilbertAdvancesWithoutCw : Prop :=
  ∀ (ws : List Word) (s : State), s.cur = .aud → s.regs.mode.getLsbD 1 = false →
    exec (.audSamples ws) s
      = .next { s with
          hilbDl := ws.foldl (fun dl w => Bin32.push dl (Bin32.ofRatio (w.extractLsb' 0 16).toInt 32768)) s.hilbDl }

/-- AUD.SAMPLES with MODE.CW_EN = 1 (R260 to R267). Over a list of samples the phase advances by the tuning word for each, modulo
2^32, and the decimator phase by one modulo its factor (R174, R265, R266). For one sample (R262's lengths; O44 composes them): its
scaled value enters the Hilbert line, whose delayed sample and FIR sum are mixed with the phase's cosine and sine; the mixed
sample enters the decimator, and a decimated sample runs `cw_sample`, whose events port 1 carries; nothing else changes. The
products are rounded one by one (log 8), the angles exact multiples of pi (log 2). -/
def Obligations.EachSampleAdvancesPhases : Prop :=
  ∀ (s : State), s.cur = .aud → s.regs.mode.getLsbD 1 = true →
    (∀ ws : List Word, s.cwdec.ph < s.par.cw.dCw →
        ∃ t, exec (.audSamples ws) s = .next t
          ∧ t.ddsAcc.toNat = (s.ddsAcc.toNat + ws.length * s.ddsFtw.toNat) % 2 ^ 32
          ∧ t.cwdec.ph = (s.cwdec.ph + ws.length) % s.par.cw.dCw)
      ∧ ∀ w : Word, s.hilbDl.length = s.par.cw.hilbLen → (Rom.hilbertTaps s.par).length = s.par.cw.hilbLen →
          s.par.cw.hilbDelay < s.par.cw.hilbLen →
        let n := s.par.cw.hilbLen
        let line := Bin32.push s.hilbDl (Bin32.ofRatio (w.extractLsb' 0 16).toInt 32768)
        let re := line.getD (n - 1 - s.par.cw.hilbDelay) 0
        let co := Config.cosPi ((2 * s.ddsAcc.toNat : Nat) : Int) (2 ^ 32)
        let si := Config.sinPi ((2 * s.ddsAcc.toNat : Nat) : Int) (2 ^ 32)
        ∃ im : Sc,
          Bin32.SumOf ((List.range n).map fun k => Bin32.mul ((Rom.hilbertTaps s.par).getD k 0) (line.getD (n - 1 - k) 0)) im
          ∧ (let m : Cx :=
              ⟨Bin32.add (Bin32.mul re co) (Bin32.mul im si), Bin32.sub (Bin32.mul im co) (Bin32.mul re si)⟩
             let o := s.cwdec.push s.par.cw.dCw (Rom.cwTaps s.par) m
             let s1 : State := { s with hilbDl := line, ddsAcc := s.ddsAcc + s.ddsFtw, cwdec := o.1 }
             (o.2 = none → exec (.audSamples [w]) s = .next s1)
              ∧ ∀ d : Cx, o.2 = some d →
                  exec (.audSamples [w]) s
                    = .next { s1 with
                        cw := (s.cw.sample s.par s.regs d).1
                        outAud := s.outAud ++ (s.cw.sample s.par s.regs d).2 })

/-- The end of a block (R18, R267 step 3, R270 to R276, R279). Between blocks nothing happens. At FFT_CW samples: q is the shifted power
spectrum of the windowed block, imax its first greatest bin, the signal regime that the power within PW div 2 bins of imax
exceeds the rest, PW the rounded peak width; the thresholds are updated, the block starts anew, and while `peak_on` holds one
CW_TUNE reports the frequency of imax, which the block keeps. The update: both regimes' levels, the pulse threshold by the formula in
force, the silence threshold CW_GIST below it; the noise level moves only without a signal; rms_max and rms_min are the greatest
and least queued level. Scalar formulas are rounded operation by operation (log 8), the DFT's angles exact (log 2). -/
def Obligations.ThresholdUpdateByRegime : Prop :=
  (∀ (p : Params) (r : CfgRegs) (c : CwState) (signal : Bool),
      let low := Bin32.add c.noiseFiltered r.cwSnr
      let t := c.updateThresholds p r signal
      (signal = true → t.noiseFiltered = c.noiseFiltered
          ∧ t.peakFiltered = Bin32.lpf c.peakFiltered (Bin32.maxNum low (Bin32.maxOf c.dly)) r.cwPeakBeta)
        ∧ (signal = false →
            t.noiseFiltered = Bin32.lpf c.noiseFiltered (Bin32.sub (Bin32.minOf c.dly) p.cw.cwNoiseOffsetDb) r.cwNoiseBeta
            ∧ t.peakFiltered = Bin32.lpf c.peakFiltered low r.cwPeakBeta)
        ∧ (p.cw.cwThrFormula = .max →
            t.thresholdPulse = Bin32.maxNum (Bin32.add t.noiseFiltered r.cwSnr) (Bin32.sub t.peakFiltered p.cw.cwPeakMarginDb))
        ∧ (p.cw.cwThrFormula = .sum →
            t.thresholdPulse = Bin32.add (Bin32.add t.noiseFiltered r.cwSnr)
              (Bin32.maxNum (Bin32.add t.noiseFiltered r.cwSnr) (Bin32.sub t.peakFiltered p.cw.cwPeakMarginDb)))
        ∧ t.thresholdSilence = Bin32.sub t.thresholdPulse r.cwGist
        ∧ t = { c with
            peakFiltered := t.peakFiltered, noiseFiltered := t.noiseFiltered
            thresholdPulse := t.thresholdPulse, thresholdSilence := t.thresholdSilence })
    ∧ (∀ dly : List Sc, dly ≠ [] → (∀ x ∈ dly, Bin32.isNan x = false) →
        Bin32.maxOf dly ∈ dly ∧ Bin32.minOf dly ∈ dly
          ∧ ∀ x ∈ dly, Bin32.le x (Bin32.maxOf dly) = true ∧ Bin32.le (Bin32.minOf dly) x = true)
    ∧ ∀ (p : Params) (r : CfgRegs) (c : CwState),
        (c.blkN ≠ p.cw.fftCw → c.blockEnd p r = (c, []))
        ∧ (c.blkN = p.cw.fftCw → c.blk.length = p.cw.fftCw → 1 ≤ p.cw.fftCw → 0 < p.cw.fsAudio →
            ∃ (q : List Sc) (pIn pAll : Sc),
              let n := p.cw.fftCw
              let x := List.zipWith Bin32.scale (Rom.cwWindow p) c.blk
              let imax := Bin32.argmax q 0 (n - 1)
              let hw := (2 * (p.cw.cwWpm * p.cw.cwWpmK * n * p.cw.dCw) + p.cw.fsAudio) / (2 * p.cw.fsAudio) / 2
              let c1 := c.updateThresholds p r (Bin32.lt (Bin32.sub pAll pIn) pIn)
              let hz := Bin32.add (Bin32.ofInt r.cwTone.toNat)
                (Bin32.ofRatio (((imax : Int) - (n / 2 : Nat)) * p.cw.fsAudio) (p.cw.dCw * n))
              q.length = n
                ∧ (∀ i, i < n → ∃ y : Cx, Bin32.DftOf x ((i + (n - n / 2)) % n) y
                    ∧ q[i]? = some (Bin32.add (Bin32.mul y.re y.re) (Bin32.mul y.im y.im)))
                ∧ Bin32.SumOf ((q.drop (imax - hw)).take (min (imax + hw) (n - 1) - (imax - hw) + 1)) pIn
                ∧ Bin32.SumOf q pAll
                ∧ c.blockEnd p r
                    = if c.peakOn then ({ c1 with blkN := 0, peakHz := hz }, [⟨.cwTune, 0, false, [hz]⟩])
                      else ({ c1 with blkN := 0 }, []))

/-- The trigger on one judged level (R277) and its report (R267 step 4, R278): from off it goes on exactly above the pulse
threshold, from on it goes off exactly below the silence threshold, equality keeps it; nothing else of the decoder changes, and
one CW_SIGNAL reports the new flag and DUR_MS, the quotient 1000 * D_CW * CW_RMS_HOP / FS_AUDIO rounded once (log 8). Without a judged level nothing happens. -/
def Obligations.JudgeIsSchmittTrigger : Prop :=
  ∀ (c : CwState) (p : Params) (r : Sc),
    let dur := Bin32.ofRatio ((1000 * p.cw.dCw * p.cw.cwRmsHop : Nat) : Int) p.cw.fsAudio
    (∃ on : Bool, c.judge p (some r)
        = ({ c with peakOn := on }, [⟨.cwSignal, 0, false, [if on then 1 else 0, dur]⟩])
      ∧ (c.peakOn = false → (on = true ↔ Bin32.lt c.thresholdPulse r = true))
      ∧ (c.peakOn = true → (on = false ↔ Bin32.lt r c.thresholdSilence = true)))
    ∧ c.judge p none = (c, [])

/-- Hysteresis over a sequence of judged levels, the silence threshold below the pulse threshold (R277, R280): the decoder
ends on exactly when it was switched on, or on from the start, and no level since has been below the silence threshold. -/
def Obligations.HysteresisOverSequences : Prop :=
  ∀ (pulse silence : Sc) (start : Bool) (rs : List Sc), Bin32.lt silence pulse = true →
    (rs.foldl (fun on r => schmitt on r pulse silence) start = true
      ↔ (start = true ∧ ∀ r ∈ rs, Bin32.lt r silence = false)
        ∨ ∃ older r newer, rs = older ++ r :: newer ∧ Bin32.lt pulse r = true ∧ ∀ x ∈ newer, Bin32.lt x silence = false)

/-- `cw_sample` (R267 to R269): the sample enters the block and its power the window; every CW_RMS_HOP samples the level, ten times
the logarithm of the floored mean of the window, enters the queue of FFT_CW / CW_RMS_HOP levels (R8), one block of delay, a full
queue giving up its oldest, a queue not yet full nothing,
and between hops nothing moves; then the end of a block, then the decision on what left the queue, their events in this order. The
model's choice in it: the power is rounded operation by operation, the quotient of the mean once (log 8). -/
def Obligations.RmsQueueDelaysLevels : Prop :=
  (∀ (c : CwState) (p : Params) (r : CfgRegs) (d : Cx),
      let c1 : CwState :=
        { c with
          blk := c.blk.set c.blkN d, blkN := c.blkN + 1
          rwin := Bin32.push c.rwin (Bin32.add (Bin32.mul d.re d.re) (Bin32.mul d.im d.im)), hopN := c.hopN + 1 }
      let h := c1.rmsHop p
      let b := h.1.blockEnd p r
      let j := b.1.judge p h.2
      c.sample p r d = (j.1, b.2 ++ j.2))
    ∧ ∀ (c : CwState) (p : Params),
      (c.rwin ≠ [] → ∃ total : Sc, Bin32.SumOf c.rwin total
          ∧ c.rmsLevel p
              = Bin32.mul Bin32.ten (Config.log10 (Bin32.maxNum (Bin32.divNat total p.cw.cwRmsLen) p.spg.epsPwr)))
      ∧ (c.hopN ≠ p.cw.cwRmsHop → c.rmsHop p = (c, none))
      ∧ (c.hopN = p.cw.cwRmsHop → c.dly.length < p.cw.fftCw / p.cw.cwRmsHop →
          c.rmsHop p = ({ c with hopN := 0, dly := c.dly ++ [c.rmsLevel p] }, none))
      ∧ (∀ (x : Sc) (older : List Sc), c.hopN = p.cw.cwRmsHop → c.dly = x :: older →
          c.dly.length = p.cw.fftCw / p.cw.cwRmsHop →
          c.rmsHop p = ({ c with hopN := 0, dly := older ++ [c.rmsLevel p] }, some x))

/-! ## Whole-machine rules -/

/-- Configuration registers are written only by CFG.WR, ZOOM and CW.TONE (R31). -/
def Obligations.OnlyConfigCommandsWriteRegisters : Prop :=
  ∀ (i : Instr) (s t : State), exec i s = .next t → t.regs ≠ s.regs →
    (∃ r w, i = .cfgWr r w) ∨ (∃ z, i = .zoom z) ∨ (∃ f, i = .cwTone f)

/-- The IQ domain is written only by commands on port IQ and by DSP.RST and ZOOM; the CW domain only by commands on port
AUD and by DSP.RST and CW.TONE (R31). -/
def Obligations.DomainsHaveTheirWriters : Prop :=
  ∀ (i : Instr) (s t : State), exec i s = .next t →
    (¬ SameIq s t → (∃ m, i = .dspRst m) ∨ (∃ z, i = .zoom z) ∨ s.cur = .iq)
      ∧ (¬ SameCw s t → (∃ m, i = .dspRst m) ∨ (∃ f, i = .cwTone f) ∨ s.cur = .aud)

/-- Every event goes to the event stream of the port whose command produced it, after what that stream already holds; no
command changes the time, the parameters, the command streams or the turns (R121, R344). -/
def Obligations.EventsGoToIssuingPort : Prop :=
  ∀ (i : Instr) (s t : State), exec i s = .next t →
    (∀ p, p ≠ s.cur → t.events p = s.events p) ∧ (∃ es, t.events s.cur = s.events s.cur ++ es)
      ∧ t.timeMs = s.timeMs ∧ t.par = s.par ∧ SameInputs s t

/-- Commands of the two producer domains commute (R95): when the IQ port's next command is an SPG.* command or a
DSP.SAMPLES that does not fault and the AUD port's an AUD.SAMPLES, running them in either order leads to the same
state, but for the model's note of which port ran last (`cur`, log 15). -/
def Obligations.ProducerCommandsCommute : Prop :=
  ∀ (s a b c d : State) (rest : List Turn) (i : Instr) (ws vs samples : List Word),
    s.run = .run →
    ((∃ u ch, i = .spgWrite u ch) ∨ (∃ u, i = .spgGetpsd u) ∨ (∃ u v, i = .spgSetalpha u v) ∨ (∃ u, i = .spgClear u)
      ∨ (∃ u, i = .spgReset u) ∨ (∃ tx buf, i = .dspSamples tx buf)) →
    s.readyWords .iq = some ws → decode ws = .ok i →
    s.readyWords .aud = some vs → decode vs = .ok (.audSamples samples) →
    step { s with agenda := .port .iq :: .port .aud :: rest } = .next a → a.run = .run → step a = .next b →
    step { s with agenda := .port .aud :: .port .iq :: rest } = .next c → step c = .next d →
      { b with cur := .iq } = { d with cur := .iq }

/-! ## Invariants -/

/-- The block after reset with the vector values (the model's choice for the OPEN parameters, log 1) is sound and its marks
hold (R9, R41, R46, R360). -/
def Obligations.ResetIsSound : Prop :=
  State.reset.Sound ∧ State.reset.WeightsHold ∧ State.reset.CeilingHolds ∧ State.reset.FaultMarked

/-- Every step keeps a sound state sound: vector lengths, decimator phases, counts, legal registers, the tuning word
(R13, R39, R41, R44 to R46, R53 to R58, R177, R264). -/
def Obligations.StepKeepsSound : Prop :=
  ∀ s t : State, s.Sound → step s = .next t → t.Sound

/-- Every step keeps the weights of the units: gamma = 1 - alpha in exponential mode, both 1 in accumulate mode (R41). -/
def Obligations.StepKeepsWeights : Prop :=
  ∀ s t : State, s.par.valid = true → s.WeightsHold → step s = .next t → t.WeightsHold

/-- Every step keeps the ceiling tied to the floor, the fault code tied to the run state, and the parameters (R8, R51,
R225, R332). -/
def Obligations.StepKeepsCeilingAndFaultMark : Prop :=
  ∀ s t : State, s.CeilingHolds → s.FaultMarked → step s = .next t →
    t.CeilingHolds ∧ t.FaultMarked ∧ t.par = s.par

/-! ## The datapath -/

/-- `NUM.add`, and with it `NUM.sub`, `NUM.mul`, `NUM.div` and `NUM.sqrt`, are correctly rounded (R20): for finite operands the
result is a nearest binary32 to the exact one, at a tie the even one, and the infinity exactly when the exact result lies beyond the
largest finite scalar by half a unit of its last place or more. So are the quotients of a scalar by a count and of two integers
(log 8). Comparisons are those of the
exact values. -/
def Obligations.AddIsCorrectlyRounded : Prop :=
  (∀ x y : Sc, Bin32.isFinite x = true → Bin32.isFinite y = true →
      Bin32.RoundsTo ((Bin32.fix x : ℝ) + Bin32.fix y) (Bin32.add x y)
        ∧ Bin32.RoundsTo ((Bin32.fix x : ℝ) - Bin32.fix y) (Bin32.sub x y)
        ∧ Bin32.RoundsTo ((Bin32.fix x : ℝ) * Bin32.fix y / 2 ^ 149) (Bin32.mul x y)
        ∧ (Bin32.fix y ≠ 0 → Bin32.RoundsTo ((Bin32.fix x : ℝ) * 2 ^ 149 / Bin32.fix y) (Bin32.div x y))
        ∧ (0 ≤ Bin32.fix x → Bin32.RoundsTo (Real.sqrt ((Bin32.fix x : ℝ) * 2 ^ 149)) (Bin32.sqrt x))
        ∧ (Bin32.lt x y = true ↔ Bin32.fix x < Bin32.fix y))
    ∧ (∀ (x : Sc) (n : Nat), Bin32.isFinite x = true → n ≠ 0 → Bin32.RoundsTo ((Bin32.fix x : ℝ) / n) (Bin32.divNat x n))
    ∧ ∀ (a : Int) (b : Nat), b ≠ 0 → Bin32.RoundsTo ((a : ℝ) * 2 ^ 149 / b) (Bin32.ofRatio a b)

/-- The FFT shift (R19): element i of the shifted vector is element `(i - N div 2) mod N`, so that bin 0 lands at index
`N div 2`. -/
def Obligations.ShiftCentresBinZero : Prop :=
  ∀ t : List Sc, (Bin32.shift t).length = t.length
    ∧ (∀ i, i < t.length → (Bin32.shift t)[i]? = t[(i + (t.length - t.length / 2)) % t.length]?)
    ∧ (t ≠ [] → (Bin32.shift t)[t.length / 2]? = t[0]?)
end

