-- ==== Sys2Proof/Laws/State.lean ====
section
/-! SUPPORT. What each named update of the state does to each field: one lemma per field per update, so that no proof
unfolds a record update. -/

namespace Sys2Proof
namespace Machine

/-! ## `State.setStream` -/

@[simp] theorem State.setStream_par (s : State) (p : Port) (ws : List Word) : (s.setStream p ws).par = s.par := by cases p <;> rfl
@[simp] theorem State.setStream_run (s : State) (p : Port) (ws : List Word) : (s.setStream p ws).run = s.run := by cases p <;> rfl
@[simp] theorem State.setStream_faultCode (s : State) (p : Port) (ws : List Word) : (s.setStream p ws).faultCode = s.faultCode := by cases p <;> rfl
@[simp] theorem State.setStream_timeMs (s : State) (p : Port) (ws : List Word) : (s.setStream p ws).timeMs = s.timeMs := by cases p <;> rfl
@[simp] theorem State.setStream_regs (s : State) (p : Port) (ws : List Word) : (s.setStream p ws).regs = s.regs := by cases p <;> rfl
@[simp] theorem State.setStream_spectrum (s : State) (p : Port) (ws : List Word) : (s.setStream p ws).spectrum = s.spectrum := by cases p <;> rfl
@[simp] theorem State.setStream_waterfall (s : State) (p : Port) (ws : List Word) : (s.setStream p ws).waterfall = s.waterfall := by cases p <;> rfl
@[simp] theorem State.setStream_anf (s : State) (p : Port) (ws : List Word) : (s.setStream p ws).anf = s.anf := by cases p <;> rfl
@[simp] theorem State.setStream_dcb (s : State) (p : Port) (ws : List Word) : (s.setStream p ws).dcb = s.dcb := by cases p <;> rfl
@[simp] theorem State.setStream_zdecM (s : State) (p : Port) (ws : List Word) : (s.setStream p ws).zdecM = s.zdecM := by cases p <;> rfl
@[simp] theorem State.setStream_zdec (s : State) (p : Port) (ws : List Word) : (s.setStream p ws).zdec = s.zdec := by cases p <;> rfl
@[simp] theorem State.setStream_adec (s : State) (p : Port) (ws : List Word) : (s.setStream p ws).adec = s.adec := by cases p <;> rfl
@[simp] theorem State.setStream_psdDelay (s : State) (p : Port) (ws : List Word) : (s.setStream p ws).psdDelay = s.psdDelay := by cases p <;> rfl
@[simp] theorem State.setStream_minMaxDelay (s : State) (p : Port) (ws : List Word) : (s.setStream p ws).minMaxDelay = s.minMaxDelay := by cases p <;> rfl
@[simp] theorem State.setStream_lastSpecMs (s : State) (p : Port) (ws : List Word) : (s.setStream p ws).lastSpecMs = s.lastSpecMs := by cases p <;> rfl
@[simp] theorem State.setStream_lastWfMs (s : State) (p : Port) (ws : List Word) : (s.setStream p ws).lastWfMs = s.lastWfMs := by cases p <;> rfl
@[simp] theorem State.setStream_lastAnfMs (s : State) (p : Port) (ws : List Word) : (s.setStream p ws).lastAnfMs = s.lastAnfMs := by cases p <;> rfl
@[simp] theorem State.setStream_specLpf (s : State) (p : Port) (ws : List Word) : (s.setStream p ws).specLpf = s.specLpf := by cases p <;> rfl
@[simp] theorem State.setStream_specLpfValid (s : State) (p : Port) (ws : List Word) : (s.setStream p ws).specLpfValid = s.specLpfValid := by cases p <;> rfl
@[simp] theorem State.setStream_gridMin (s : State) (p : Port) (ws : List Word) : (s.setStream p ws).gridMin = s.gridMin := by cases p <;> rfl
@[simp] theorem State.setStream_gridMax (s : State) (p : Port) (ws : List Word) : (s.setStream p ws).gridMax = s.gridMax := by cases p <;> rfl
@[simp] theorem State.setStream_meterDb (s : State) (p : Port) (ws : List Word) : (s.setStream p ws).meterDb = s.meterDb := by cases p <;> rfl
@[simp] theorem State.setStream_anfHist (s : State) (p : Port) (ws : List Word) : (s.setStream p ws).anfHist = s.anfHist := by cases p <;> rfl
@[simp] theorem State.setStream_anfPublished (s : State) (p : Port) (ws : List Word) : (s.setStream p ws).anfPublished = s.anfPublished := by cases p <;> rfl
@[simp] theorem State.setStream_hilbDl (s : State) (p : Port) (ws : List Word) : (s.setStream p ws).hilbDl = s.hilbDl := by cases p <;> rfl
@[simp] theorem State.setStream_ddsAcc (s : State) (p : Port) (ws : List Word) : (s.setStream p ws).ddsAcc = s.ddsAcc := by cases p <;> rfl
@[simp] theorem State.setStream_ddsFtw (s : State) (p : Port) (ws : List Word) : (s.setStream p ws).ddsFtw = s.ddsFtw := by cases p <;> rfl
@[simp] theorem State.setStream_cwdec (s : State) (p : Port) (ws : List Word) : (s.setStream p ws).cwdec = s.cwdec := by cases p <;> rfl
@[simp] theorem State.setStream_cw (s : State) (p : Port) (ws : List Word) : (s.setStream p ws).cw = s.cw := by cases p <;> rfl
@[simp] theorem State.setStream_outIq (s : State) (p : Port) (ws : List Word) : (s.setStream p ws).outIq = s.outIq := by cases p <;> rfl
@[simp] theorem State.setStream_outAud (s : State) (p : Port) (ws : List Word) : (s.setStream p ws).outAud = s.outAud := by cases p <;> rfl
@[simp] theorem State.setStream_outCfg (s : State) (p : Port) (ws : List Word) : (s.setStream p ws).outCfg = s.outCfg := by cases p <;> rfl
@[simp] theorem State.setStream_agenda (s : State) (p : Port) (ws : List Word) : (s.setStream p ws).agenda = s.agenda := by cases p <;> rfl
@[simp] theorem State.setStream_cur (s : State) (p : Port) (ws : List Word) : (s.setStream p ws).cur = s.cur := by cases p <;> rfl

@[simp] theorem State.stream_setStream_same (s : State) (p : Port) (ws : List Word) :
    (s.setStream p ws).stream p = ws := by cases p <;> rfl
theorem State.stream_setStream_other (s : State) (p q : Port) (ws : List Word) (h : q ≠ p) :
    (s.setStream p ws).stream q = s.stream q := by cases p <;> cases q <;> first | rfl | exact absurd rfl h
@[simp] theorem State.events_setStream (s : State) (p q : Port) (ws : List Word) :
    (s.setStream p ws).events q = s.events q := by cases p <;> cases q <;> rfl

/-! ## `State.emitAll` -/

@[simp] theorem State.emitAll_par (s : State) (p : Port) (es : List Event) : (s.emitAll p es).par = s.par := by cases p <;> rfl
@[simp] theorem State.emitAll_run (s : State) (p : Port) (es : List Event) : (s.emitAll p es).run = s.run := by cases p <;> rfl
@[simp] theorem State.emitAll_faultCode (s : State) (p : Port) (es : List Event) : (s.emitAll p es).faultCode = s.faultCode := by cases p <;> rfl
@[simp] theorem State.emitAll_timeMs (s : State) (p : Port) (es : List Event) : (s.emitAll p es).timeMs = s.timeMs := by cases p <;> rfl
@[simp] theorem State.emitAll_regs (s : State) (p : Port) (es : List Event) : (s.emitAll p es).regs = s.regs := by cases p <;> rfl
@[simp] theorem State.emitAll_spectrum (s : State) (p : Port) (es : List Event) : (s.emitAll p es).spectrum = s.spectrum := by cases p <;> rfl
@[simp] theorem State.emitAll_waterfall (s : State) (p : Port) (es : List Event) : (s.emitAll p es).waterfall = s.waterfall := by cases p <;> rfl
@[simp] theorem State.emitAll_anf (s : State) (p : Port) (es : List Event) : (s.emitAll p es).anf = s.anf := by cases p <;> rfl
@[simp] theorem State.emitAll_dcb (s : State) (p : Port) (es : List Event) : (s.emitAll p es).dcb = s.dcb := by cases p <;> rfl
@[simp] theorem State.emitAll_zdecM (s : State) (p : Port) (es : List Event) : (s.emitAll p es).zdecM = s.zdecM := by cases p <;> rfl
@[simp] theorem State.emitAll_zdec (s : State) (p : Port) (es : List Event) : (s.emitAll p es).zdec = s.zdec := by cases p <;> rfl
@[simp] theorem State.emitAll_adec (s : State) (p : Port) (es : List Event) : (s.emitAll p es).adec = s.adec := by cases p <;> rfl
@[simp] theorem State.emitAll_psdDelay (s : State) (p : Port) (es : List Event) : (s.emitAll p es).psdDelay = s.psdDelay := by cases p <;> rfl
@[simp] theorem State.emitAll_minMaxDelay (s : State) (p : Port) (es : List Event) : (s.emitAll p es).minMaxDelay = s.minMaxDelay := by cases p <;> rfl
@[simp] theorem State.emitAll_lastSpecMs (s : State) (p : Port) (es : List Event) : (s.emitAll p es).lastSpecMs = s.lastSpecMs := by cases p <;> rfl
@[simp] theorem State.emitAll_lastWfMs (s : State) (p : Port) (es : List Event) : (s.emitAll p es).lastWfMs = s.lastWfMs := by cases p <;> rfl
@[simp] theorem State.emitAll_lastAnfMs (s : State) (p : Port) (es : List Event) : (s.emitAll p es).lastAnfMs = s.lastAnfMs := by cases p <;> rfl
@[simp] theorem State.emitAll_specLpf (s : State) (p : Port) (es : List Event) : (s.emitAll p es).specLpf = s.specLpf := by cases p <;> rfl
@[simp] theorem State.emitAll_specLpfValid (s : State) (p : Port) (es : List Event) : (s.emitAll p es).specLpfValid = s.specLpfValid := by cases p <;> rfl
@[simp] theorem State.emitAll_gridMin (s : State) (p : Port) (es : List Event) : (s.emitAll p es).gridMin = s.gridMin := by cases p <;> rfl
@[simp] theorem State.emitAll_gridMax (s : State) (p : Port) (es : List Event) : (s.emitAll p es).gridMax = s.gridMax := by cases p <;> rfl
@[simp] theorem State.emitAll_meterDb (s : State) (p : Port) (es : List Event) : (s.emitAll p es).meterDb = s.meterDb := by cases p <;> rfl
@[simp] theorem State.emitAll_anfHist (s : State) (p : Port) (es : List Event) : (s.emitAll p es).anfHist = s.anfHist := by cases p <;> rfl
@[simp] theorem State.emitAll_anfPublished (s : State) (p : Port) (es : List Event) : (s.emitAll p es).anfPublished = s.anfPublished := by cases p <;> rfl
@[simp] theorem State.emitAll_hilbDl (s : State) (p : Port) (es : List Event) : (s.emitAll p es).hilbDl = s.hilbDl := by cases p <;> rfl
@[simp] theorem State.emitAll_ddsAcc (s : State) (p : Port) (es : List Event) : (s.emitAll p es).ddsAcc = s.ddsAcc := by cases p <;> rfl
@[simp] theorem State.emitAll_ddsFtw (s : State) (p : Port) (es : List Event) : (s.emitAll p es).ddsFtw = s.ddsFtw := by cases p <;> rfl
@[simp] theorem State.emitAll_cwdec (s : State) (p : Port) (es : List Event) : (s.emitAll p es).cwdec = s.cwdec := by cases p <;> rfl
@[simp] theorem State.emitAll_cw (s : State) (p : Port) (es : List Event) : (s.emitAll p es).cw = s.cw := by cases p <;> rfl
@[simp] theorem State.emitAll_inIq (s : State) (p : Port) (es : List Event) : (s.emitAll p es).inIq = s.inIq := by cases p <;> rfl
@[simp] theorem State.emitAll_inAud (s : State) (p : Port) (es : List Event) : (s.emitAll p es).inAud = s.inAud := by cases p <;> rfl
@[simp] theorem State.emitAll_inCfg (s : State) (p : Port) (es : List Event) : (s.emitAll p es).inCfg = s.inCfg := by cases p <;> rfl
@[simp] theorem State.emitAll_agenda (s : State) (p : Port) (es : List Event) : (s.emitAll p es).agenda = s.agenda := by cases p <;> rfl
@[simp] theorem State.emitAll_cur (s : State) (p : Port) (es : List Event) : (s.emitAll p es).cur = s.cur := by cases p <;> rfl

/-! ## `State.emit` -/

@[simp] theorem State.emit_par (s : State) (p : Port) (e : Event) : (s.emit p e).par = s.par := by cases p <;> rfl
@[simp] theorem State.emit_run (s : State) (p : Port) (e : Event) : (s.emit p e).run = s.run := by cases p <;> rfl
@[simp] theorem State.emit_faultCode (s : State) (p : Port) (e : Event) : (s.emit p e).faultCode = s.faultCode := by cases p <;> rfl
@[simp] theorem State.emit_timeMs (s : State) (p : Port) (e : Event) : (s.emit p e).timeMs = s.timeMs := by cases p <;> rfl
@[simp] theorem State.emit_regs (s : State) (p : Port) (e : Event) : (s.emit p e).regs = s.regs := by cases p <;> rfl
@[simp] theorem State.emit_spectrum (s : State) (p : Port) (e : Event) : (s.emit p e).spectrum = s.spectrum := by cases p <;> rfl
@[simp] theorem State.emit_waterfall (s : State) (p : Port) (e : Event) : (s.emit p e).waterfall = s.waterfall := by cases p <;> rfl
@[simp] theorem State.emit_anf (s : State) (p : Port) (e : Event) : (s.emit p e).anf = s.anf := by cases p <;> rfl
@[simp] theorem State.emit_dcb (s : State) (p : Port) (e : Event) : (s.emit p e).dcb = s.dcb := by cases p <;> rfl
@[simp] theorem State.emit_zdecM (s : State) (p : Port) (e : Event) : (s.emit p e).zdecM = s.zdecM := by cases p <;> rfl
@[simp] theorem State.emit_zdec (s : State) (p : Port) (e : Event) : (s.emit p e).zdec = s.zdec := by cases p <;> rfl
@[simp] theorem State.emit_adec (s : State) (p : Port) (e : Event) : (s.emit p e).adec = s.adec := by cases p <;> rfl
@[simp] theorem State.emit_psdDelay (s : State) (p : Port) (e : Event) : (s.emit p e).psdDelay = s.psdDelay := by cases p <;> rfl
@[simp] theorem State.emit_minMaxDelay (s : State) (p : Port) (e : Event) : (s.emit p e).minMaxDelay = s.minMaxDelay := by cases p <;> rfl
@[simp] theorem State.emit_lastSpecMs (s : State) (p : Port) (e : Event) : (s.emit p e).lastSpecMs = s.lastSpecMs := by cases p <;> rfl
@[simp] theorem State.emit_lastWfMs (s : State) (p : Port) (e : Event) : (s.emit p e).lastWfMs = s.lastWfMs := by cases p <;> rfl
@[simp] theorem State.emit_lastAnfMs (s : State) (p : Port) (e : Event) : (s.emit p e).lastAnfMs = s.lastAnfMs := by cases p <;> rfl
@[simp] theorem State.emit_specLpf (s : State) (p : Port) (e : Event) : (s.emit p e).specLpf = s.specLpf := by cases p <;> rfl
@[simp] theorem State.emit_specLpfValid (s : State) (p : Port) (e : Event) : (s.emit p e).specLpfValid = s.specLpfValid := by cases p <;> rfl
@[simp] theorem State.emit_gridMin (s : State) (p : Port) (e : Event) : (s.emit p e).gridMin = s.gridMin := by cases p <;> rfl
@[simp] theorem State.emit_gridMax (s : State) (p : Port) (e : Event) : (s.emit p e).gridMax = s.gridMax := by cases p <;> rfl
@[simp] theorem State.emit_meterDb (s : State) (p : Port) (e : Event) : (s.emit p e).meterDb = s.meterDb := by cases p <;> rfl
@[simp] theorem State.emit_anfHist (s : State) (p : Port) (e : Event) : (s.emit p e).anfHist = s.anfHist := by cases p <;> rfl
@[simp] theorem State.emit_anfPublished (s : State) (p : Port) (e : Event) : (s.emit p e).anfPublished = s.anfPublished := by cases p <;> rfl
@[simp] theorem State.emit_hilbDl (s : State) (p : Port) (e : Event) : (s.emit p e).hilbDl = s.hilbDl := by cases p <;> rfl
@[simp] theorem State.emit_ddsAcc (s : State) (p : Port) (e : Event) : (s.emit p e).ddsAcc = s.ddsAcc := by cases p <;> rfl
@[simp] theorem State.emit_ddsFtw (s : State) (p : Port) (e : Event) : (s.emit p e).ddsFtw = s.ddsFtw := by cases p <;> rfl
@[simp] theorem State.emit_cwdec (s : State) (p : Port) (e : Event) : (s.emit p e).cwdec = s.cwdec := by cases p <;> rfl
@[simp] theorem State.emit_cw (s : State) (p : Port) (e : Event) : (s.emit p e).cw = s.cw := by cases p <;> rfl
@[simp] theorem State.emit_inIq (s : State) (p : Port) (e : Event) : (s.emit p e).inIq = s.inIq := by cases p <;> rfl
@[simp] theorem State.emit_inAud (s : State) (p : Port) (e : Event) : (s.emit p e).inAud = s.inAud := by cases p <;> rfl
@[simp] theorem State.emit_inCfg (s : State) (p : Port) (e : Event) : (s.emit p e).inCfg = s.inCfg := by cases p <;> rfl
@[simp] theorem State.emit_agenda (s : State) (p : Port) (e : Event) : (s.emit p e).agenda = s.agenda := by cases p <;> rfl
@[simp] theorem State.emit_cur (s : State) (p : Port) (e : Event) : (s.emit p e).cur = s.cur := by cases p <;> rfl

@[simp] theorem State.events_emitAll_same (s : State) (p : Port) (es : List Event) :
    (s.emitAll p es).events p = s.events p ++ es := by cases p <;> rfl
theorem State.events_emitAll_other (s : State) (p q : Port) (es : List Event) (h : q ≠ p) :
    (s.emitAll p es).events q = s.events q := by cases p <;> cases q <;> first | rfl | exact absurd rfl h
@[simp] theorem State.events_emit_same (s : State) (p : Port) (e : Event) :
    (s.emit p e).events p = s.events p ++ [e] := by cases p <;> rfl
theorem State.events_emit_other (s : State) (p q : Port) (e : Event) (h : q ≠ p) :
    (s.emit p e).events q = s.events q := by cases p <;> cases q <;> first | rfl | exact absurd rfl h
@[simp] theorem State.stream_emitAll (s : State) (p q : Port) (es : List Event) :
    (s.emitAll p es).stream q = s.stream q := by cases p <;> cases q <;> rfl
@[simp] theorem State.outIq_emitAll_iq (s : State) (es : List Event) : (s.emitAll .iq es).outIq = s.outIq ++ es := rfl
@[simp] theorem State.outAud_emitAll_iq (s : State) (es : List Event) : (s.emitAll .iq es).outAud = s.outAud := rfl
@[simp] theorem State.outCfg_emitAll_iq (s : State) (es : List Event) : (s.emitAll .iq es).outCfg = s.outCfg := rfl
@[simp] theorem State.outIq_emit_iq (s : State) (e : Event) : (s.emit .iq e).outIq = s.outIq ++ [e] := rfl
@[simp] theorem State.outAud_emit_iq (s : State) (e : Event) : (s.emit .iq e).outAud = s.outAud := rfl
@[simp] theorem State.outCfg_emit_iq (s : State) (e : Event) : (s.emit .iq e).outCfg = s.outCfg := rfl
@[simp] theorem State.outIq_emitAll_aud (s : State) (es : List Event) : (s.emitAll .aud es).outIq = s.outIq := rfl
@[simp] theorem State.outAud_emitAll_aud (s : State) (es : List Event) : (s.emitAll .aud es).outAud = s.outAud ++ es := rfl
@[simp] theorem State.outCfg_emitAll_aud (s : State) (es : List Event) : (s.emitAll .aud es).outCfg = s.outCfg := rfl

/-! ## `State.setUnit` -/

@[simp] theorem State.setUnit_par (s : State) (k : UnitId) (u : SpgUnit) : (s.setUnit k u).par = s.par := by cases k <;> rfl
@[simp] theorem State.setUnit_run (s : State) (k : UnitId) (u : SpgUnit) : (s.setUnit k u).run = s.run := by cases k <;> rfl
@[simp] theorem State.setUnit_faultCode (s : State) (k : UnitId) (u : SpgUnit) : (s.setUnit k u).faultCode = s.faultCode := by cases k <;> rfl
@[simp] theorem State.setUnit_timeMs (s : State) (k : UnitId) (u : SpgUnit) : (s.setUnit k u).timeMs = s.timeMs := by cases k <;> rfl
@[simp] theorem State.setUnit_regs (s : State) (k : UnitId) (u : SpgUnit) : (s.setUnit k u).regs = s.regs := by cases k <;> rfl
@[simp] theorem State.setUnit_dcb (s : State) (k : UnitId) (u : SpgUnit) : (s.setUnit k u).dcb = s.dcb := by cases k <;> rfl
@[simp] theorem State.setUnit_zdecM (s : State) (k : UnitId) (u : SpgUnit) : (s.setUnit k u).zdecM = s.zdecM := by cases k <;> rfl
@[simp] theorem State.setUnit_zdec (s : State) (k : UnitId) (u : SpgUnit) : (s.setUnit k u).zdec = s.zdec := by cases k <;> rfl
@[simp] theorem State.setUnit_adec (s : State) (k : UnitId) (u : SpgUnit) : (s.setUnit k u).adec = s.adec := by cases k <;> rfl
@[simp] theorem State.setUnit_psdDelay (s : State) (k : UnitId) (u : SpgUnit) : (s.setUnit k u).psdDelay = s.psdDelay := by cases k <;> rfl
@[simp] theorem State.setUnit_minMaxDelay (s : State) (k : UnitId) (u : SpgUnit) : (s.setUnit k u).minMaxDelay = s.minMaxDelay := by cases k <;> rfl
@[simp] theorem State.setUnit_lastSpecMs (s : State) (k : UnitId) (u : SpgUnit) : (s.setUnit k u).lastSpecMs = s.lastSpecMs := by cases k <;> rfl
@[simp] theorem State.setUnit_lastWfMs (s : State) (k : UnitId) (u : SpgUnit) : (s.setUnit k u).lastWfMs = s.lastWfMs := by cases k <;> rfl
@[simp] theorem State.setUnit_lastAnfMs (s : State) (k : UnitId) (u : SpgUnit) : (s.setUnit k u).lastAnfMs = s.lastAnfMs := by cases k <;> rfl
@[simp] theorem State.setUnit_specLpf (s : State) (k : UnitId) (u : SpgUnit) : (s.setUnit k u).specLpf = s.specLpf := by cases k <;> rfl
@[simp] theorem State.setUnit_specLpfValid (s : State) (k : UnitId) (u : SpgUnit) : (s.setUnit k u).specLpfValid = s.specLpfValid := by cases k <;> rfl
@[simp] theorem State.setUnit_gridMin (s : State) (k : UnitId) (u : SpgUnit) : (s.setUnit k u).gridMin = s.gridMin := by cases k <;> rfl
@[simp] theorem State.setUnit_gridMax (s : State) (k : UnitId) (u : SpgUnit) : (s.setUnit k u).gridMax = s.gridMax := by cases k <;> rfl
@[simp] theorem State.setUnit_meterDb (s : State) (k : UnitId) (u : SpgUnit) : (s.setUnit k u).meterDb = s.meterDb := by cases k <;> rfl
@[simp] theorem State.setUnit_anfHist (s : State) (k : UnitId) (u : SpgUnit) : (s.setUnit k u).anfHist = s.anfHist := by cases k <;> rfl
@[simp] theorem State.setUnit_anfPublished (s : State) (k : UnitId) (u : SpgUnit) : (s.setUnit k u).anfPublished = s.anfPublished := by cases k <;> rfl
@[simp] theorem State.setUnit_hilbDl (s : State) (k : UnitId) (u : SpgUnit) : (s.setUnit k u).hilbDl = s.hilbDl := by cases k <;> rfl
@[simp] theorem State.setUnit_ddsAcc (s : State) (k : UnitId) (u : SpgUnit) : (s.setUnit k u).ddsAcc = s.ddsAcc := by cases k <;> rfl
@[simp] theorem State.setUnit_ddsFtw (s : State) (k : UnitId) (u : SpgUnit) : (s.setUnit k u).ddsFtw = s.ddsFtw := by cases k <;> rfl
@[simp] theorem State.setUnit_cwdec (s : State) (k : UnitId) (u : SpgUnit) : (s.setUnit k u).cwdec = s.cwdec := by cases k <;> rfl
@[simp] theorem State.setUnit_cw (s : State) (k : UnitId) (u : SpgUnit) : (s.setUnit k u).cw = s.cw := by cases k <;> rfl
@[simp] theorem State.setUnit_inIq (s : State) (k : UnitId) (u : SpgUnit) : (s.setUnit k u).inIq = s.inIq := by cases k <;> rfl
@[simp] theorem State.setUnit_inAud (s : State) (k : UnitId) (u : SpgUnit) : (s.setUnit k u).inAud = s.inAud := by cases k <;> rfl
@[simp] theorem State.setUnit_inCfg (s : State) (k : UnitId) (u : SpgUnit) : (s.setUnit k u).inCfg = s.inCfg := by cases k <;> rfl
@[simp] theorem State.setUnit_outIq (s : State) (k : UnitId) (u : SpgUnit) : (s.setUnit k u).outIq = s.outIq := by cases k <;> rfl
@[simp] theorem State.setUnit_outAud (s : State) (k : UnitId) (u : SpgUnit) : (s.setUnit k u).outAud = s.outAud := by cases k <;> rfl
@[simp] theorem State.setUnit_outCfg (s : State) (k : UnitId) (u : SpgUnit) : (s.setUnit k u).outCfg = s.outCfg := by cases k <;> rfl
@[simp] theorem State.setUnit_agenda (s : State) (k : UnitId) (u : SpgUnit) : (s.setUnit k u).agenda = s.agenda := by cases k <;> rfl
@[simp] theorem State.setUnit_cur (s : State) (k : UnitId) (u : SpgUnit) : (s.setUnit k u).cur = s.cur := by cases k <;> rfl

@[simp] theorem State.unit_setUnit_same (s : State) (k : UnitId) (u : SpgUnit) : (s.setUnit k u).unit k = u := by
  cases k <;> rfl
theorem State.unit_setUnit_other (s : State) (k j : UnitId) (u : SpgUnit) (h : j ≠ k) :
    (s.setUnit k u).unit j = s.unit j := by cases k <;> cases j <;> first | rfl | exact absurd rfl h
@[simp] theorem State.events_setUnit (s : State) (k : UnitId) (u : SpgUnit) (q : Port) :
    (s.setUnit k u).events q = s.events q := by cases k <;> cases q <;> rfl
@[simp] theorem State.stream_setUnit (s : State) (k : UnitId) (u : SpgUnit) (q : Port) :
    (s.setUnit k u).stream q = s.stream q := by cases k <;> cases q <;> rfl

/-! ## `raise` -/

@[simp] theorem raise_par (s : State) (f : FaultCode) : (raise f s).par = s.par := rfl
@[simp] theorem raise_run (s : State) (f : FaultCode) : (raise f s).run = .fault := rfl
@[simp] theorem raise_faultCode (s : State) (f : FaultCode) : (raise f s).faultCode = f.code := rfl
@[simp] theorem raise_timeMs (s : State) (f : FaultCode) : (raise f s).timeMs = s.timeMs := rfl
@[simp] theorem raise_regs (s : State) (f : FaultCode) : (raise f s).regs = s.regs := rfl
@[simp] theorem raise_spectrum (s : State) (f : FaultCode) : (raise f s).spectrum = s.spectrum := rfl
@[simp] theorem raise_waterfall (s : State) (f : FaultCode) : (raise f s).waterfall = s.waterfall := rfl
@[simp] theorem raise_anf (s : State) (f : FaultCode) : (raise f s).anf = s.anf := rfl
@[simp] theorem raise_dcb (s : State) (f : FaultCode) : (raise f s).dcb = s.dcb := rfl
@[simp] theorem raise_zdecM (s : State) (f : FaultCode) : (raise f s).zdecM = s.zdecM := rfl
@[simp] theorem raise_zdec (s : State) (f : FaultCode) : (raise f s).zdec = s.zdec := rfl
@[simp] theorem raise_adec (s : State) (f : FaultCode) : (raise f s).adec = s.adec := rfl
@[simp] theorem raise_psdDelay (s : State) (f : FaultCode) : (raise f s).psdDelay = s.psdDelay := rfl
@[simp] theorem raise_minMaxDelay (s : State) (f : FaultCode) : (raise f s).minMaxDelay = s.minMaxDelay := rfl
@[simp] theorem raise_lastSpecMs (s : State) (f : FaultCode) : (raise f s).lastSpecMs = s.lastSpecMs := rfl
@[simp] theorem raise_lastWfMs (s : State) (f : FaultCode) : (raise f s).lastWfMs = s.lastWfMs := rfl
@[simp] theorem raise_lastAnfMs (s : State) (f : FaultCode) : (raise f s).lastAnfMs = s.lastAnfMs := rfl
@[simp] theorem raise_specLpf (s : State) (f : FaultCode) : (raise f s).specLpf = s.specLpf := rfl
@[simp] theorem raise_specLpfValid (s : State) (f : FaultCode) : (raise f s).specLpfValid = s.specLpfValid := rfl
@[simp] theorem raise_gridMin (s : State) (f : FaultCode) : (raise f s).gridMin = s.gridMin := rfl
@[simp] theorem raise_gridMax (s : State) (f : FaultCode) : (raise f s).gridMax = s.gridMax := rfl
@[simp] theorem raise_meterDb (s : State) (f : FaultCode) : (raise f s).meterDb = s.meterDb := rfl
@[simp] theorem raise_anfHist (s : State) (f : FaultCode) : (raise f s).anfHist = s.anfHist := rfl
@[simp] theorem raise_anfPublished (s : State) (f : FaultCode) : (raise f s).anfPublished = s.anfPublished := rfl
@[simp] theorem raise_hilbDl (s : State) (f : FaultCode) : (raise f s).hilbDl = s.hilbDl := rfl
@[simp] theorem raise_ddsAcc (s : State) (f : FaultCode) : (raise f s).ddsAcc = s.ddsAcc := rfl
@[simp] theorem raise_ddsFtw (s : State) (f : FaultCode) : (raise f s).ddsFtw = s.ddsFtw := rfl
@[simp] theorem raise_cwdec (s : State) (f : FaultCode) : (raise f s).cwdec = s.cwdec := rfl
@[simp] theorem raise_cw (s : State) (f : FaultCode) : (raise f s).cw = s.cw := rfl
@[simp] theorem raise_inIq (s : State) (f : FaultCode) : (raise f s).inIq = s.inIq := rfl
@[simp] theorem raise_inAud (s : State) (f : FaultCode) : (raise f s).inAud = s.inAud := rfl
@[simp] theorem raise_inCfg (s : State) (f : FaultCode) : (raise f s).inCfg = s.inCfg := rfl
@[simp] theorem raise_outIq (s : State) (f : FaultCode) : (raise f s).outIq = s.outIq := rfl
@[simp] theorem raise_outAud (s : State) (f : FaultCode) : (raise f s).outAud = s.outAud := rfl
@[simp] theorem raise_outCfg (s : State) (f : FaultCode) : (raise f s).outCfg = s.outCfg := rfl
@[simp] theorem raise_agenda (s : State) (f : FaultCode) : (raise f s).agenda = s.agenda := rfl
@[simp] theorem raise_cur (s : State) (f : FaultCode) : (raise f s).cur = s.cur := rfl

@[simp] theorem events_raise (s : State) (f : FaultCode) (q : Port) : (raise f s).events q = s.events q := by
  cases q <;> rfl
@[simp] theorem stream_raise (s : State) (f : FaultCode) (q : Port) : (raise f s).stream q = s.stream q := by
  cases q <;> rfl

/-! ## `State.setZoom` -/

@[simp] theorem State.setZoom_par (s : State) (z : BitVec 16) : (s.setZoom z).par = s.par := rfl
@[simp] theorem State.setZoom_run (s : State) (z : BitVec 16) : (s.setZoom z).run = s.run := rfl
@[simp] theorem State.setZoom_faultCode (s : State) (z : BitVec 16) : (s.setZoom z).faultCode = s.faultCode := rfl
@[simp] theorem State.setZoom_timeMs (s : State) (z : BitVec 16) : (s.setZoom z).timeMs = s.timeMs := rfl
@[simp] theorem State.setZoom_regs (s : State) (z : BitVec 16) : (s.setZoom z).regs = { s.regs with zoom := z.setWidth 32 } := rfl
@[simp] theorem State.setZoom_spectrum (s : State) (z : BitVec 16) : (s.setZoom z).spectrum = SpgUnit.clear { s.spectrum with c := s.par.cSpec z.toNat } := rfl
@[simp] theorem State.setZoom_waterfall (s : State) (z : BitVec 16) : (s.setZoom z).waterfall = s.waterfall := rfl
@[simp] theorem State.setZoom_anf (s : State) (z : BitVec 16) : (s.setZoom z).anf = s.anf := rfl
@[simp] theorem State.setZoom_dcb (s : State) (z : BitVec 16) : (s.setZoom z).dcb = s.dcb := rfl
@[simp] theorem State.setZoom_zdecM (s : State) (z : BitVec 16) : (s.setZoom z).zdecM = z.toNat := rfl
@[simp] theorem State.setZoom_zdec (s : State) (z : BitVec 16) : (s.setZoom z).zdec = Decim.zero (s.par.lZoom z.toNat) := rfl
@[simp] theorem State.setZoom_adec (s : State) (z : BitVec 16) : (s.setZoom z).adec = s.adec := rfl
@[simp] theorem State.setZoom_psdDelay (s : State) (z : BitVec 16) : (s.setZoom z).psdDelay = s.par.feed.psdDelayInit := rfl
@[simp] theorem State.setZoom_minMaxDelay (s : State) (z : BitVec 16) : (s.setZoom z).minMaxDelay = s.minMaxDelay := rfl
@[simp] theorem State.setZoom_lastSpecMs (s : State) (z : BitVec 16) : (s.setZoom z).lastSpecMs = s.lastSpecMs := rfl
@[simp] theorem State.setZoom_lastWfMs (s : State) (z : BitVec 16) : (s.setZoom z).lastWfMs = s.lastWfMs := rfl
@[simp] theorem State.setZoom_lastAnfMs (s : State) (z : BitVec 16) : (s.setZoom z).lastAnfMs = s.lastAnfMs := rfl
@[simp] theorem State.setZoom_specLpf (s : State) (z : BitVec 16) : (s.setZoom z).specLpf = s.specLpf := rfl
@[simp] theorem State.setZoom_specLpfValid (s : State) (z : BitVec 16) : (s.setZoom z).specLpfValid = false := rfl
@[simp] theorem State.setZoom_gridMin (s : State) (z : BitVec 16) : (s.setZoom z).gridMin = s.gridMin := rfl
@[simp] theorem State.setZoom_gridMax (s : State) (z : BitVec 16) : (s.setZoom z).gridMax = s.gridMax := rfl
@[simp] theorem State.setZoom_meterDb (s : State) (z : BitVec 16) : (s.setZoom z).meterDb = s.meterDb := rfl
@[simp] theorem State.setZoom_anfHist (s : State) (z : BitVec 16) : (s.setZoom z).anfHist = s.anfHist := rfl
@[simp] theorem State.setZoom_anfPublished (s : State) (z : BitVec 16) : (s.setZoom z).anfPublished = s.anfPublished := rfl
@[simp] theorem State.setZoom_hilbDl (s : State) (z : BitVec 16) : (s.setZoom z).hilbDl = s.hilbDl := rfl
@[simp] theorem State.setZoom_ddsAcc (s : State) (z : BitVec 16) : (s.setZoom z).ddsAcc = s.ddsAcc := rfl
@[simp] theorem State.setZoom_ddsFtw (s : State) (z : BitVec 16) : (s.setZoom z).ddsFtw = s.ddsFtw := rfl
@[simp] theorem State.setZoom_cwdec (s : State) (z : BitVec 16) : (s.setZoom z).cwdec = s.cwdec := rfl
@[simp] theorem State.setZoom_cw (s : State) (z : BitVec 16) : (s.setZoom z).cw = s.cw := rfl
@[simp] theorem State.setZoom_inIq (s : State) (z : BitVec 16) : (s.setZoom z).inIq = s.inIq := rfl
@[simp] theorem State.setZoom_inAud (s : State) (z : BitVec 16) : (s.setZoom z).inAud = s.inAud := rfl
@[simp] theorem State.setZoom_inCfg (s : State) (z : BitVec 16) : (s.setZoom z).inCfg = s.inCfg := rfl
@[simp] theorem State.setZoom_outIq (s : State) (z : BitVec 16) : (s.setZoom z).outIq = s.outIq := rfl
@[simp] theorem State.setZoom_outAud (s : State) (z : BitVec 16) : (s.setZoom z).outAud = s.outAud := rfl
@[simp] theorem State.setZoom_outCfg (s : State) (z : BitVec 16) : (s.setZoom z).outCfg = s.outCfg := rfl
@[simp] theorem State.setZoom_agenda (s : State) (z : BitVec 16) : (s.setZoom z).agenda = s.agenda := rfl
@[simp] theorem State.setZoom_cur (s : State) (z : BitVec 16) : (s.setZoom z).cur = s.cur := rfl

/-! ## `State.setTone` -/

@[simp] theorem State.setTone_par (s : State) (hz : BitVec 16) : (s.setTone hz).par = s.par := rfl
@[simp] theorem State.setTone_run (s : State) (hz : BitVec 16) : (s.setTone hz).run = s.run := rfl
@[simp] theorem State.setTone_faultCode (s : State) (hz : BitVec 16) : (s.setTone hz).faultCode = s.faultCode := rfl
@[simp] theorem State.setTone_timeMs (s : State) (hz : BitVec 16) : (s.setTone hz).timeMs = s.timeMs := rfl
@[simp] theorem State.setTone_regs (s : State) (hz : BitVec 16) : (s.setTone hz).regs = { s.regs with cwTone := hz.setWidth 32 } := rfl
@[simp] theorem State.setTone_spectrum (s : State) (hz : BitVec 16) : (s.setTone hz).spectrum = s.spectrum := rfl
@[simp] theorem State.setTone_waterfall (s : State) (hz : BitVec 16) : (s.setTone hz).waterfall = s.waterfall := rfl
@[simp] theorem State.setTone_anf (s : State) (hz : BitVec 16) : (s.setTone hz).anf = s.anf := rfl
@[simp] theorem State.setTone_dcb (s : State) (hz : BitVec 16) : (s.setTone hz).dcb = s.dcb := rfl
@[simp] theorem State.setTone_zdecM (s : State) (hz : BitVec 16) : (s.setTone hz).zdecM = s.zdecM := rfl
@[simp] theorem State.setTone_zdec (s : State) (hz : BitVec 16) : (s.setTone hz).zdec = s.zdec := rfl
@[simp] theorem State.setTone_adec (s : State) (hz : BitVec 16) : (s.setTone hz).adec = s.adec := rfl
@[simp] theorem State.setTone_psdDelay (s : State) (hz : BitVec 16) : (s.setTone hz).psdDelay = s.psdDelay := rfl
@[simp] theorem State.setTone_minMaxDelay (s : State) (hz : BitVec 16) : (s.setTone hz).minMaxDelay = s.minMaxDelay := rfl
@[simp] theorem State.setTone_lastSpecMs (s : State) (hz : BitVec 16) : (s.setTone hz).lastSpecMs = s.lastSpecMs := rfl
@[simp] theorem State.setTone_lastWfMs (s : State) (hz : BitVec 16) : (s.setTone hz).lastWfMs = s.lastWfMs := rfl
@[simp] theorem State.setTone_lastAnfMs (s : State) (hz : BitVec 16) : (s.setTone hz).lastAnfMs = s.lastAnfMs := rfl
@[simp] theorem State.setTone_specLpf (s : State) (hz : BitVec 16) : (s.setTone hz).specLpf = s.specLpf := rfl
@[simp] theorem State.setTone_specLpfValid (s : State) (hz : BitVec 16) : (s.setTone hz).specLpfValid = s.specLpfValid := rfl
@[simp] theorem State.setTone_gridMin (s : State) (hz : BitVec 16) : (s.setTone hz).gridMin = s.gridMin := rfl
@[simp] theorem State.setTone_gridMax (s : State) (hz : BitVec 16) : (s.setTone hz).gridMax = s.gridMax := rfl
@[simp] theorem State.setTone_meterDb (s : State) (hz : BitVec 16) : (s.setTone hz).meterDb = s.meterDb := rfl
@[simp] theorem State.setTone_anfHist (s : State) (hz : BitVec 16) : (s.setTone hz).anfHist = s.anfHist := rfl
@[simp] theorem State.setTone_anfPublished (s : State) (hz : BitVec 16) : (s.setTone hz).anfPublished = s.anfPublished := rfl
@[simp] theorem State.setTone_hilbDl (s : State) (hz : BitVec 16) : (s.setTone hz).hilbDl = s.hilbDl := rfl
@[simp] theorem State.setTone_ddsAcc (s : State) (hz : BitVec 16) : (s.setTone hz).ddsAcc = 0 := rfl
@[simp] theorem State.setTone_ddsFtw (s : State) (hz : BitVec 16) : (s.setTone hz).ddsFtw = s.par.ftw hz.toNat := rfl
@[simp] theorem State.setTone_cwdec (s : State) (hz : BitVec 16) : (s.setTone hz).cwdec = Decim.zero s.par.lCw := rfl
@[simp] theorem State.setTone_cw (s : State) (hz : BitVec 16) : (s.setTone hz).cw = s.cw := rfl
@[simp] theorem State.setTone_inIq (s : State) (hz : BitVec 16) : (s.setTone hz).inIq = s.inIq := rfl
@[simp] theorem State.setTone_inAud (s : State) (hz : BitVec 16) : (s.setTone hz).inAud = s.inAud := rfl
@[simp] theorem State.setTone_inCfg (s : State) (hz : BitVec 16) : (s.setTone hz).inCfg = s.inCfg := rfl
@[simp] theorem State.setTone_outIq (s : State) (hz : BitVec 16) : (s.setTone hz).outIq = s.outIq := rfl
@[simp] theorem State.setTone_outAud (s : State) (hz : BitVec 16) : (s.setTone hz).outAud = s.outAud := rfl
@[simp] theorem State.setTone_outCfg (s : State) (hz : BitVec 16) : (s.setTone hz).outCfg = s.outCfg := rfl
@[simp] theorem State.setTone_agenda (s : State) (hz : BitVec 16) : (s.setTone hz).agenda = s.agenda := rfl
@[simp] theorem State.setTone_cur (s : State) (hz : BitVec 16) : (s.setTone hz).cur = s.cur := rfl

/-! ## `State.resetIqDomain` -/

@[simp] theorem State.resetIqDomain_par (s : State)  : (s.resetIqDomain).par = s.par := rfl
@[simp] theorem State.resetIqDomain_run (s : State)  : (s.resetIqDomain).run = s.run := rfl
@[simp] theorem State.resetIqDomain_faultCode (s : State)  : (s.resetIqDomain).faultCode = s.faultCode := rfl
@[simp] theorem State.resetIqDomain_timeMs (s : State)  : (s.resetIqDomain).timeMs = s.timeMs := rfl
@[simp] theorem State.resetIqDomain_regs (s : State)  : (s.resetIqDomain).regs = s.regs := rfl
@[simp] theorem State.resetIqDomain_spectrum (s : State)  : (s.resetIqDomain).spectrum = s.spectrum.clear := rfl
@[simp] theorem State.resetIqDomain_waterfall (s : State)  : (s.resetIqDomain).waterfall = s.waterfall.clear := rfl
@[simp] theorem State.resetIqDomain_anf (s : State)  : (s.resetIqDomain).anf = s.anf.clear := rfl
@[simp] theorem State.resetIqDomain_dcb (s : State)  : (s.resetIqDomain).dcb = ⟨Cx.zero, Cx.zero⟩ := rfl
@[simp] theorem State.resetIqDomain_zdecM (s : State)  : (s.resetIqDomain).zdecM = s.zdecM := rfl
@[simp] theorem State.resetIqDomain_zdec (s : State)  : (s.resetIqDomain).zdec = Decim.zero (s.par.lZoom s.zdecM) := rfl
@[simp] theorem State.resetIqDomain_adec (s : State)  : (s.resetIqDomain).adec = Decim.zero s.par.lAnf := rfl
@[simp] theorem State.resetIqDomain_psdDelay (s : State)  : (s.resetIqDomain).psdDelay = s.par.feed.psdDelayInit := rfl
@[simp] theorem State.resetIqDomain_minMaxDelay (s : State)  : (s.resetIqDomain).minMaxDelay = 0 := rfl
@[simp] theorem State.resetIqDomain_lastSpecMs (s : State)  : (s.resetIqDomain).lastSpecMs = s.lastSpecMs := rfl
@[simp] theorem State.resetIqDomain_lastWfMs (s : State)  : (s.resetIqDomain).lastWfMs = s.lastWfMs := rfl
@[simp] theorem State.resetIqDomain_lastAnfMs (s : State)  : (s.resetIqDomain).lastAnfMs = s.lastAnfMs := rfl
@[simp] theorem State.resetIqDomain_specLpf (s : State)  : (s.resetIqDomain).specLpf = s.specLpf := rfl
@[simp] theorem State.resetIqDomain_specLpfValid (s : State)  : (s.resetIqDomain).specLpfValid = false := rfl
@[simp] theorem State.resetIqDomain_gridMin (s : State)  : (s.resetIqDomain).gridMin = s.gridMin := rfl
@[simp] theorem State.resetIqDomain_gridMax (s : State)  : (s.resetIqDomain).gridMax = s.gridMax := rfl
@[simp] theorem State.resetIqDomain_meterDb (s : State)  : (s.resetIqDomain).meterDb = s.meterDb := rfl
@[simp] theorem State.resetIqDomain_anfHist (s : State)  : (s.resetIqDomain).anfHist = List.replicate s.par.feed.anfHistLen 0 := rfl
@[simp] theorem State.resetIqDomain_anfPublished (s : State)  : (s.resetIqDomain).anfPublished = s.anfPublished := rfl
@[simp] theorem State.resetIqDomain_hilbDl (s : State)  : (s.resetIqDomain).hilbDl = s.hilbDl := rfl
@[simp] theorem State.resetIqDomain_ddsAcc (s : State)  : (s.resetIqDomain).ddsAcc = s.ddsAcc := rfl
@[simp] theorem State.resetIqDomain_ddsFtw (s : State)  : (s.resetIqDomain).ddsFtw = s.ddsFtw := rfl
@[simp] theorem State.resetIqDomain_cwdec (s : State)  : (s.resetIqDomain).cwdec = s.cwdec := rfl
@[simp] theorem State.resetIqDomain_cw (s : State)  : (s.resetIqDomain).cw = s.cw := rfl
@[simp] theorem State.resetIqDomain_inIq (s : State)  : (s.resetIqDomain).inIq = s.inIq := rfl
@[simp] theorem State.resetIqDomain_inAud (s : State)  : (s.resetIqDomain).inAud = s.inAud := rfl
@[simp] theorem State.resetIqDomain_inCfg (s : State)  : (s.resetIqDomain).inCfg = s.inCfg := rfl
@[simp] theorem State.resetIqDomain_outIq (s : State)  : (s.resetIqDomain).outIq = s.outIq := rfl
@[simp] theorem State.resetIqDomain_outAud (s : State)  : (s.resetIqDomain).outAud = s.outAud := rfl
@[simp] theorem State.resetIqDomain_outCfg (s : State)  : (s.resetIqDomain).outCfg = s.outCfg := rfl
@[simp] theorem State.resetIqDomain_agenda (s : State)  : (s.resetIqDomain).agenda = s.agenda := rfl
@[simp] theorem State.resetIqDomain_cur (s : State)  : (s.resetIqDomain).cur = s.cur := rfl

/-! ## `State.resetCwDomain` -/

@[simp] theorem State.resetCwDomain_par (s : State)  : (s.resetCwDomain).par = s.par := rfl
@[simp] theorem State.resetCwDomain_run (s : State)  : (s.resetCwDomain).run = s.run := rfl
@[simp] theorem State.resetCwDomain_faultCode (s : State)  : (s.resetCwDomain).faultCode = s.faultCode := rfl
@[simp] theorem State.resetCwDomain_timeMs (s : State)  : (s.resetCwDomain).timeMs = s.timeMs := rfl
@[simp] theorem State.resetCwDomain_regs (s : State)  : (s.resetCwDomain).regs = s.regs := rfl
@[simp] theorem State.resetCwDomain_spectrum (s : State)  : (s.resetCwDomain).spectrum = s.spectrum := rfl
@[simp] theorem State.resetCwDomain_waterfall (s : State)  : (s.resetCwDomain).waterfall = s.waterfall := rfl
@[simp] theorem State.resetCwDomain_anf (s : State)  : (s.resetCwDomain).anf = s.anf := rfl
@[simp] theorem State.resetCwDomain_dcb (s : State)  : (s.resetCwDomain).dcb = s.dcb := rfl
@[simp] theorem State.resetCwDomain_zdecM (s : State)  : (s.resetCwDomain).zdecM = s.zdecM := rfl
@[simp] theorem State.resetCwDomain_zdec (s : State)  : (s.resetCwDomain).zdec = s.zdec := rfl
@[simp] theorem State.resetCwDomain_adec (s : State)  : (s.resetCwDomain).adec = s.adec := rfl
@[simp] theorem State.resetCwDomain_psdDelay (s : State)  : (s.resetCwDomain).psdDelay = s.psdDelay := rfl
@[simp] theorem State.resetCwDomain_minMaxDelay (s : State)  : (s.resetCwDomain).minMaxDelay = s.minMaxDelay := rfl
@[simp] theorem State.resetCwDomain_lastSpecMs (s : State)  : (s.resetCwDomain).lastSpecMs = s.lastSpecMs := rfl
@[simp] theorem State.resetCwDomain_lastWfMs (s : State)  : (s.resetCwDomain).lastWfMs = s.lastWfMs := rfl
@[simp] theorem State.resetCwDomain_lastAnfMs (s : State)  : (s.resetCwDomain).lastAnfMs = s.lastAnfMs := rfl
@[simp] theorem State.resetCwDomain_specLpf (s : State)  : (s.resetCwDomain).specLpf = s.specLpf := rfl
@[simp] theorem State.resetCwDomain_specLpfValid (s : State)  : (s.resetCwDomain).specLpfValid = s.specLpfValid := rfl
@[simp] theorem State.resetCwDomain_gridMin (s : State)  : (s.resetCwDomain).gridMin = s.gridMin := rfl
@[simp] theorem State.resetCwDomain_gridMax (s : State)  : (s.resetCwDomain).gridMax = s.gridMax := rfl
@[simp] theorem State.resetCwDomain_meterDb (s : State)  : (s.resetCwDomain).meterDb = s.meterDb := rfl
@[simp] theorem State.resetCwDomain_anfHist (s : State)  : (s.resetCwDomain).anfHist = s.anfHist := rfl
@[simp] theorem State.resetCwDomain_anfPublished (s : State)  : (s.resetCwDomain).anfPublished = s.anfPublished := rfl
@[simp] theorem State.resetCwDomain_hilbDl (s : State)  : (s.resetCwDomain).hilbDl = List.replicate s.par.cw.hilbLen 0 := rfl
@[simp] theorem State.resetCwDomain_ddsAcc (s : State)  : (s.resetCwDomain).ddsAcc = 0 := rfl
@[simp] theorem State.resetCwDomain_ddsFtw (s : State)  : (s.resetCwDomain).ddsFtw = s.ddsFtw := rfl
@[simp] theorem State.resetCwDomain_cwdec (s : State)  : (s.resetCwDomain).cwdec = Decim.zero s.par.lCw := rfl
@[simp] theorem State.resetCwDomain_cw (s : State)  : (s.resetCwDomain).cw = CwState.resetOf s.par s.regs.cwSnr s.regs.cwGist := rfl
@[simp] theorem State.resetCwDomain_inIq (s : State)  : (s.resetCwDomain).inIq = s.inIq := rfl
@[simp] theorem State.resetCwDomain_inAud (s : State)  : (s.resetCwDomain).inAud = s.inAud := rfl
@[simp] theorem State.resetCwDomain_inCfg (s : State)  : (s.resetCwDomain).inCfg = s.inCfg := rfl
@[simp] theorem State.resetCwDomain_outIq (s : State)  : (s.resetCwDomain).outIq = s.outIq := rfl
@[simp] theorem State.resetCwDomain_outAud (s : State)  : (s.resetCwDomain).outAud = s.outAud := rfl
@[simp] theorem State.resetCwDomain_outCfg (s : State)  : (s.resetCwDomain).outCfg = s.outCfg := rfl
@[simp] theorem State.resetCwDomain_agenda (s : State)  : (s.resetCwDomain).agenda = s.agenda := rfl
@[simp] theorem State.resetCwDomain_cur (s : State)  : (s.resetCwDomain).cur = s.cur := rfl

/-! ## `State.consume` -/

@[simp] theorem State.consume_par (s : State) (p : Port) (n : Nat) : (s.consume p n).par = s.par := by cases p <;> rfl
@[simp] theorem State.consume_run (s : State) (p : Port) (n : Nat) : (s.consume p n).run = s.run := by cases p <;> rfl
@[simp] theorem State.consume_faultCode (s : State) (p : Port) (n : Nat) : (s.consume p n).faultCode = s.faultCode := by cases p <;> rfl
@[simp] theorem State.consume_timeMs (s : State) (p : Port) (n : Nat) : (s.consume p n).timeMs = s.timeMs := by cases p <;> rfl
@[simp] theorem State.consume_regs (s : State) (p : Port) (n : Nat) : (s.consume p n).regs = s.regs := by cases p <;> rfl
@[simp] theorem State.consume_spectrum (s : State) (p : Port) (n : Nat) : (s.consume p n).spectrum = s.spectrum := by cases p <;> rfl
@[simp] theorem State.consume_waterfall (s : State) (p : Port) (n : Nat) : (s.consume p n).waterfall = s.waterfall := by cases p <;> rfl
@[simp] theorem State.consume_anf (s : State) (p : Port) (n : Nat) : (s.consume p n).anf = s.anf := by cases p <;> rfl
@[simp] theorem State.consume_dcb (s : State) (p : Port) (n : Nat) : (s.consume p n).dcb = s.dcb := by cases p <;> rfl
@[simp] theorem State.consume_zdecM (s : State) (p : Port) (n : Nat) : (s.consume p n).zdecM = s.zdecM := by cases p <;> rfl
@[simp] theorem State.consume_zdec (s : State) (p : Port) (n : Nat) : (s.consume p n).zdec = s.zdec := by cases p <;> rfl
@[simp] theorem State.consume_adec (s : State) (p : Port) (n : Nat) : (s.consume p n).adec = s.adec := by cases p <;> rfl
@[simp] theorem State.consume_psdDelay (s : State) (p : Port) (n : Nat) : (s.consume p n).psdDelay = s.psdDelay := by cases p <;> rfl
@[simp] theorem State.consume_minMaxDelay (s : State) (p : Port) (n : Nat) : (s.consume p n).minMaxDelay = s.minMaxDelay := by cases p <;> rfl
@[simp] theorem State.consume_lastSpecMs (s : State) (p : Port) (n : Nat) : (s.consume p n).lastSpecMs = s.lastSpecMs := by cases p <;> rfl
@[simp] theorem State.consume_lastWfMs (s : State) (p : Port) (n : Nat) : (s.consume p n).lastWfMs = s.lastWfMs := by cases p <;> rfl
@[simp] theorem State.consume_lastAnfMs (s : State) (p : Port) (n : Nat) : (s.consume p n).lastAnfMs = s.lastAnfMs := by cases p <;> rfl
@[simp] theorem State.consume_specLpf (s : State) (p : Port) (n : Nat) : (s.consume p n).specLpf = s.specLpf := by cases p <;> rfl
@[simp] theorem State.consume_specLpfValid (s : State) (p : Port) (n : Nat) : (s.consume p n).specLpfValid = s.specLpfValid := by cases p <;> rfl
@[simp] theorem State.consume_gridMin (s : State) (p : Port) (n : Nat) : (s.consume p n).gridMin = s.gridMin := by cases p <;> rfl
@[simp] theorem State.consume_gridMax (s : State) (p : Port) (n : Nat) : (s.consume p n).gridMax = s.gridMax := by cases p <;> rfl
@[simp] theorem State.consume_meterDb (s : State) (p : Port) (n : Nat) : (s.consume p n).meterDb = s.meterDb := by cases p <;> rfl
@[simp] theorem State.consume_anfHist (s : State) (p : Port) (n : Nat) : (s.consume p n).anfHist = s.anfHist := by cases p <;> rfl
@[simp] theorem State.consume_anfPublished (s : State) (p : Port) (n : Nat) : (s.consume p n).anfPublished = s.anfPublished := by cases p <;> rfl
@[simp] theorem State.consume_hilbDl (s : State) (p : Port) (n : Nat) : (s.consume p n).hilbDl = s.hilbDl := by cases p <;> rfl
@[simp] theorem State.consume_ddsAcc (s : State) (p : Port) (n : Nat) : (s.consume p n).ddsAcc = s.ddsAcc := by cases p <;> rfl
@[simp] theorem State.consume_ddsFtw (s : State) (p : Port) (n : Nat) : (s.consume p n).ddsFtw = s.ddsFtw := by cases p <;> rfl
@[simp] theorem State.consume_cwdec (s : State) (p : Port) (n : Nat) : (s.consume p n).cwdec = s.cwdec := by cases p <;> rfl
@[simp] theorem State.consume_cw (s : State) (p : Port) (n : Nat) : (s.consume p n).cw = s.cw := by cases p <;> rfl
@[simp] theorem State.consume_outIq (s : State) (p : Port) (n : Nat) : (s.consume p n).outIq = s.outIq := by cases p <;> rfl
@[simp] theorem State.consume_outAud (s : State) (p : Port) (n : Nat) : (s.consume p n).outAud = s.outAud := by cases p <;> rfl
@[simp] theorem State.consume_outCfg (s : State) (p : Port) (n : Nat) : (s.consume p n).outCfg = s.outCfg := by cases p <;> rfl
@[simp] theorem State.consume_agenda (s : State) (p : Port) (n : Nat) : (s.consume p n).agenda = s.agenda := by cases p <;> rfl
@[simp] theorem State.consume_cur (s : State) (p : Port) (n : Nat) : (s.consume p n).cur = p := by cases p <;> rfl

@[simp] theorem State.stream_consume_same (s : State) (p : Port) (n : Nat) :
    (s.consume p n).stream p = (s.stream p).drop n := by cases p <;> rfl
theorem State.stream_consume_other (s : State) (p q : Port) (n : Nat) (h : q ≠ p) :
    (s.consume p n).stream q = s.stream q := by cases p <;> cases q <;> first | rfl | exact absurd rfl h
@[simp] theorem State.events_consume (s : State) (p q : Port) (n : Nat) : (s.consume p n).events q = s.events q := by
  cases p <;> cases q <;> rfl

end Machine
end Sys2Proof
end

