-- ==== Sys2Proof/Laws/Ops.lean ====
section
/-! SUPPORT. What the shared operations can do, once each: the checks of a command, a port's turn, a step, and which command
writes which part of the state. -/

namespace Sys2Proof
namespace Machine

/-! ## Checks (R116, R331, R334) -/

/-- The first failing check is one of the list's faults. -/
theorem firstFault_mem {checks : List (Bool × FaultCode)} {f : FaultCode} (h : firstFault checks = some f) :
    (true, f) ∈ checks := by
  induction checks with
  | nil => simp [firstFault] at h
  | cons c cs ih =>
    obtain ⟨b, g⟩ := c
    cases b
    · exact List.mem_cons_of_mem _ (ih h)
    · simp only [firstFault, Option.some.injEq] at h
      exact h ▸ List.mem_cons_self

theorem firstFault_eq_none {checks : List (Bool × FaultCode)} :
    firstFault checks = none ↔ ∀ c ∈ checks, c.1 = false := by
  induction checks with
  | nil => simp [firstFault]
  | cons c cs ih =>
    obtain ⟨b, g⟩ := c
    cases b <;> simp [firstFault, ih]

/-- A checked command answers a next state: one of its faults raised on the state it found, or its effect. -/
theorem guarded_cases (checks : List (Bool × FaultCode)) (s t : State) :
    (∃ f, (true, f) ∈ checks ∧ guarded checks s t = .next (raise f s))
      ∨ ((∀ c ∈ checks, c.1 = false) ∧ guarded checks s t = .next t) := by
  unfold guarded
  split
  · exact .inl ⟨_, firstFault_mem ‹_›, rfl⟩
  · exact .inr ⟨firstFault_eq_none.mp ‹_›, rfl⟩

/-- A checked command whose checks pass has its effect. -/
theorem guarded_next {checks : List (Bool × FaultCode)} {s t : State} (h : ∀ c ∈ checks, c.1 = false) :
    guarded checks s t = .next t := by
  unfold guarded; rw [firstFault_eq_none.mpr h]

/-! ## A port's turn (R91, R111, R331) -/

/-- Everything a port's turn can be. -/
theorem issue_cases (s : State) (p : Port) :
    (s.issue p = .idle ∧ (s.run = .fault ∨ s.readyWords p = none))
      ∨ (s.run = .run ∧ ∃ ws, s.readyWords p = some ws ∧
          ((∃ i, decode ws = .ok i ∧ s.issue p = .command i (s.consume p ws.length))
            ∨ ∃ e, decode ws = .error e ∧ s.issue p = .illegal (decodeFault e) (s.consume p ws.length))) := by
  unfold State.issue State.halted
  cases hr : s.run
  · cases hw : s.readyWords p with
    | none => exact .inl ⟨rfl, .inr rfl⟩
    | some ws =>
      refine .inr ⟨rfl, ws, rfl, ?_⟩
      cases hd : decode ws with
      | ok i => exact .inl ⟨i, rfl, by simp [hd]⟩
      | error e => exact .inr ⟨e, rfl, by simp [hd]⟩
  · exact .inl ⟨rfl, .inl rfl⟩

/-- The words of a ready command are the front of the stream, as many as the header calls for. -/
theorem readyWords_eq_some {s : State} {p : Port} {ws : List Word} (h : s.readyWords p = some ws) :
    ∃ w rest, s.stream p = w :: rest ∧ commandLength w ≤ (s.stream p).length
      ∧ ws = (s.stream p).take (commandLength w) ∧ ws.length = commandLength w := by
  unfold State.readyWords at h
  split at h
  · cases h
  · rename_i w rest hs
    split at h
    · cases h
    · rename_i hl
      simp only [Option.some.injEq] at h
      refine ⟨w, rest, hs, ?_, ?_, ?_⟩
      · rw [hs]; omega
      · rw [hs, h]
      · rw [← h, List.length_take]; omega

/-! ## Steps (R90, R91, R341) -/

/-- Everything a step that answers a next state can be. -/
theorem step_cases {s t : State} (h : step s = .next t) :
    (∃ d rest, s.agenda = .tick d :: rest ∧ s.timeMs.toNat + d < 2 ^ 64
        ∧ t = { s with agenda := rest, timeMs := BitVec.ofNat 64 (s.timeMs.toNat + d) })
      ∨ (∃ p w rest, s.agenda = .arrive p w :: rest ∧ t = State.arriveWord { s with agenda := rest } p w)
      ∨ (∃ rest, s.agenda = .rst :: rest ∧ t = { State.resetOf s.par with agenda := rest })
      ∨ (∃ p rest, s.agenda = .port p :: rest
          ∧ ((t = { s with agenda := rest })
            ∨ (∃ i u, State.issue { s with agenda := rest } p = .command i u ∧ exec i u = .next t)
            ∨ (∃ f u, State.issue { s with agenda := rest } p = .illegal f u ∧ t = raise f u))) := by
  unfold step at h
  split at h
  · cases h
  · rename_i d rest ha
    unfold State.tick at h
    split at h
    · exact .inl ⟨d, rest, ha, ‹_›, by simpa using h.symm⟩
    · cases h
  · rename_i p w rest ha
    exact .inr (.inl ⟨p, w, rest, ha, by simpa using h.symm⟩)
  · rename_i p rest ha
    refine .inr (.inr (.inr ⟨p, rest, ha, ?_⟩))
    unfold runPort at h
    split at h
    · exact .inl (by simpa using h.symm)
    · exact .inr (.inl ⟨_, _, ‹_›, h⟩)
    · exact .inr (.inr ⟨_, _, ‹_›, by simpa using h.symm⟩)
  · rename_i rest ha
    exact .inr (.inr (.inl ⟨rest, ha, by simpa [State.hardReset] using h.symm⟩))

/-! ## Effects of the commands -/

/-- The state a command leads to when none of its checks fails. -/
def effect (i : Instr) (s : State) : State :=
  match i with
  | .nop => s
  | .cfgWr reg value => { s with regs := s.regs.write reg value }
  | .cfgRd reg => s.emit s.cur (.plain .rdData [(s.readReg reg).getD 0])
  | .dspRst mask =>
    let s1 := if mask.getLsbD 0 then s.resetIqDomain else s
    if mask.getLsbD 1 then s1.resetCwDomain else s1
  | .zoom z => s.setZoom z
  | .cwTone hz => s.setTone hz
  | .spgWrite unit chunk =>
    s.setUnit (unitSel unit) ((s.unit (unitSel unit)).write s.par (unitSel unit) (complexSamples chunk))
  | .spgGetpsd unit =>
    s.emit .iq ⟨.psdData, (unitSel unit).bits, false, (s.unit (unitSel unit)).getPsd s.par⟩
  | .spgSetalpha unit v => s.setUnit (unitSel unit) ((s.unit (unitSel unit)).setAlpha v)
  | .spgClear unit => s.setUnit (unitSel unit) (s.unit (unitSel unit)).clear
  | .spgReset unit => s.setUnit (unitSel unit) (s.unit (unitSel unit)).clear
  | .dspSamples tx buf => s.frame tx (complexSamples buf)
  | .audSamples samples => samples.foldl State.audioStep s

/-- What must hold for a command to have its effect: the port it is legal on and its operands. -/
def passes (i : Instr) (s : State) : Prop :=
  match i with
  | .nop => True
  | .cfgWr reg value => writable reg = true ∧ legalValue s.par.spg.inMax reg value = true
  | .cfgRd reg => s.readReg reg ≠ none
  | .dspRst _ => True
  | .zoom z => s.par.zoomLegal z.toNat = true
  | .cwTone hz => s.par.toneLegal hz.toNat = true
  | .spgWrite unit chunk =>
    s.cur = .iq ∧ (unitOf unit).isSome = true ∧ chunk.length = (s.unit (unitSel unit)).c ∧ samplesNotAdmitted s chunk = false
  | .spgGetpsd unit => s.cur = .iq ∧ (unitOf unit).isSome = true
  | .spgSetalpha unit v => s.cur = .iq ∧ (unitOf unit).isSome = true ∧ notAdmitted s v = false ∧ alphaLegal v = true
  | .spgClear unit => s.cur = .iq ∧ (unitOf unit).isSome = true
  | .spgReset unit => s.cur = .iq ∧ (unitOf unit).isSome = true
  | .dspSamples _ buf => s.cur = .iq ∧ buf.length = s.par.spg.radioChunk ∧ samplesNotAdmitted s buf = false
  | .audSamples _ => s.cur = .aud

/-- A command raises one of the faults its checks name, from the state it found, or has its effect. -/
theorem exec_cases (i : Instr) (s : State) :
    (∃ f : FaultCode, f ∈ [FaultCode.badUnit, .badLength, .badReg, .roWrite, .badValue, .wrongPort]
        ∧ exec i s = .next (raise f s))
      ∨ (passes i s ∧ exec i s = .next (effect i s)) := by
  cases i
  case nop => exact .inr ⟨trivial, rfl⟩
  case dspRst => exact .inr ⟨trivial, rfl⟩
  case cfgRd reg =>
    cases h : s.readReg reg
    · exact .inl ⟨.badReg, by simp, by simp only [exec, execCfgRd, h]⟩
    · refine .inr ⟨by simp only [passes, h]; exact Option.some_ne_none _, ?_⟩
      simp only [exec, execCfgRd, h, effect, Option.getD_some]
  case cfgWr reg value =>
    rcases guarded_cases _ s (effect (.cfgWr reg value) s) with ⟨f, hf, he⟩ | ⟨hc, he⟩
    · refine .inl ⟨f, ?_, he⟩
      simp only [List.mem_cons, Prod.mk.injEq, List.not_mem_nil, or_false] at hf
      rcases hf with hf | hf | hf <;> simp [hf.2]
    · exact .inr ⟨by simp at hc; exact ⟨hc.2.1, hc.2.2⟩, he⟩
  case zoom z =>
    rcases guarded_cases _ s (effect (.zoom z) s) with ⟨f, hf, he⟩ | ⟨hc, he⟩
    · refine .inl ⟨f, ?_, he⟩
      simp only [List.mem_cons, Prod.mk.injEq, List.not_mem_nil, or_false] at hf
      simp [hf.2]
    · exact .inr ⟨by simpa [passes] using hc, he⟩
  case cwTone hz =>
    rcases guarded_cases _ s (effect (.cwTone hz) s) with ⟨f, hf, he⟩ | ⟨hc, he⟩
    · refine .inl ⟨f, ?_, he⟩
      simp only [List.mem_cons, Prod.mk.injEq, List.not_mem_nil, or_false] at hf
      simp [hf.2]
    · exact .inr ⟨by simpa [passes] using hc, he⟩
  case spgWrite u chunk =>
    rcases guarded_cases _ s (effect (.spgWrite u chunk) s) with ⟨f, hf, he⟩ | ⟨hc, he⟩
    · refine .inl ⟨f, ?_, he⟩
      simp only [List.mem_cons, Prod.mk.injEq, List.not_mem_nil, or_false] at hf
      rcases hf with hf | hf | hf | hf <;> simp [hf.2]
    · exact .inr ⟨by simpa [passes, notOnPort, badUnit] using hc, he⟩
  case spgGetpsd u =>
    rcases guarded_cases _ s (effect (.spgGetpsd u) s) with ⟨f, hf, he⟩ | ⟨hc, he⟩
    · refine .inl ⟨f, ?_, he⟩
      simp only [List.mem_cons, Prod.mk.injEq, List.not_mem_nil, or_false] at hf
      rcases hf with hf | hf <;> simp [hf.2]
    · exact .inr ⟨by simpa [passes, notOnPort, badUnit] using hc, he⟩
  case spgSetalpha u v =>
    rcases guarded_cases _ s (effect (.spgSetalpha u v) s) with ⟨f, hf, he⟩ | ⟨hc, he⟩
    · refine .inl ⟨f, ?_, he⟩
      simp only [List.mem_cons, Prod.mk.injEq, List.not_mem_nil, or_false] at hf
      rcases hf with hf | hf | hf <;> simp [hf.2]
    · exact .inr ⟨by simpa [passes, notOnPort, badUnit, Bool.or_eq_false_iff] using hc, he⟩
  case spgClear u =>
    rcases guarded_cases _ s (effect (.spgClear u) s) with ⟨f, hf, he⟩ | ⟨hc, he⟩
    · refine .inl ⟨f, ?_, he⟩
      simp only [List.mem_cons, Prod.mk.injEq, List.not_mem_nil, or_false] at hf
      rcases hf with hf | hf <;> simp [hf.2]
    · exact .inr ⟨by simpa [passes, notOnPort, badUnit] using hc, he⟩
  case spgReset u =>
    rcases guarded_cases _ s (effect (.spgReset u) s) with ⟨f, hf, he⟩ | ⟨hc, he⟩
    · refine .inl ⟨f, ?_, he⟩
      simp only [List.mem_cons, Prod.mk.injEq, List.not_mem_nil, or_false] at hf
      rcases hf with hf | hf <;> simp [hf.2]
    · exact .inr ⟨by simpa [passes, notOnPort, badUnit] using hc, he⟩
  case dspSamples tx buf =>
    rcases guarded_cases _ s (effect (.dspSamples tx buf) s) with ⟨f, hf, he⟩ | ⟨hc, he⟩
    · refine .inl ⟨f, ?_, he⟩
      simp only [List.mem_cons, Prod.mk.injEq, List.not_mem_nil, or_false] at hf
      rcases hf with hf | hf | hf <;> simp [hf.2]
    · exact .inr ⟨by simpa [passes, notOnPort] using hc, he⟩
  case audSamples ws =>
    rcases guarded_cases _ s (effect (.audSamples ws) s) with ⟨f, hf, he⟩ | ⟨hc, he⟩
    · refine .inl ⟨f, ?_, he⟩
      simp only [List.mem_cons, Prod.mk.injEq, List.not_mem_nil, or_false] at hf
      simp [hf.2]
    · exact .inr ⟨by simpa [passes, notOnPort] using hc, he⟩

end Machine
end Sys2Proof
end

