-- ==== Sys2Proof/Laws/Vectors.lean ====
section
/-! SUPPORT. Rings, the FFT shift, the transform and the sort (00_scope.md R13, R18, R19; R221): lengths and elements. -/

namespace Sys2Proof
namespace Bin32

@[simp] theorem push_length {α : Type} (r : List α) (x : α) : (push r x).length = r.length := by simp [push]

@[simp] theorem foldl_push_length {α : Type} (xs r : List α) : (xs.foldl push r).length = r.length := by
  induction xs generalizing r with
  | nil => rfl
  | cons x xs ih => rw [List.foldl_cons, ih, push_length]

/-- A ring after many pushes: the newest elements of what was in it followed by what was pushed. -/
theorem foldl_push_eq_drop {α : Type} (xs r : List α) : xs.foldl push r = (r ++ xs).drop xs.length := by
  induction xs generalizing r with
  | nil => simp
  | cons x xs ih =>
    rw [List.foldl_cons, ih, push, List.length_cons, show r ++ x :: xs = (r ++ [x]) ++ xs by simp]
    by_cases h : 1 ≤ (r ++ [x]).length
    · rw [Nat.add_comm xs.length 1, ← List.drop_drop, List.drop_append_of_le_length h]
    · simp at h

@[simp] theorem shift_length {α : Type} (t : List α) : (shift t).length = t.length := by
  simp only [shift, List.length_append, List.length_drop, List.length_take]; omega

theorem shift_getElem? {α : Type} (t : List α) (i : Nat) (h : i < t.length) :
    (shift t)[i]? = t[(i + (t.length - t.length / 2)) % t.length]? := by
  unfold shift
  rw [List.getElem?_append]
  split
  · rename_i h1
    rw [List.length_drop] at h1
    rw [List.getElem?_drop, Nat.mod_eq_of_lt (by omega), Nat.add_comm]
  · rename_i h1
    rw [List.length_drop] at h1 ⊢
    rw [List.getElem?_take_of_lt (by omega)]
    congr 1
    rw [Nat.mod_eq_sub_mod (by omega), Nat.mod_eq_of_lt (by omega)]; omega

theorem shift_map {α β : Type} (f : α → β) (t : List α) : shift (t.map f) = (shift t).map f := by
  simp [shift, List.map_drop, List.map_take]

@[simp] theorem dft_length (x : List Cx) : (dft x).length = x.length := by simp [dft]

@[simp] theorem insertAsc_length (x : Sc) (ys : List Sc) : (insertAsc x ys).length = ys.length + 1 := by
  induction ys with
  | nil => rfl
  | cons y ys ih => unfold insertAsc; split <;> simp [ih]

theorem insertAsc_perm (x : Sc) (ys : List Sc) : (insertAsc x ys).Perm (x :: ys) := by
  induction ys with
  | nil => exact List.Perm.refl _
  | cons y ys ih =>
    unfold insertAsc; split
    · exact List.Perm.refl _
    · exact (ih.cons y).trans (List.Perm.swap x y ys)

theorem sortAsc_perm (xs : List Sc) : (sortAsc xs).Perm xs := by
  induction xs with
  | nil => exact List.Perm.refl _
  | cons x xs ih => exact (insertAsc_perm x _).trans (ih.cons x)

@[simp] theorem sortAsc_length (xs : List Sc) : (sortAsc xs).length = xs.length := (sortAsc_perm xs).length_eq

/-! ## Order on scalars that are no NaN -/

theorem le_iff {x y : Sc} (hx : isNan x = false) (hy : isNan y = false) : le x y = true ↔ orderKey x ≤ orderKey y := by
  simp [le, hx, hy]

theorem lt_iff {x y : Sc} (hx : isNan x = false) (hy : isNan y = false) : lt x y = true ↔ orderKey x < orderKey y := by
  simp [lt, hx, hy]

theorem lt_of_lt_true {x y : Sc} (h : lt x y = true) : isNan x = false ∧ isNan y = false ∧ orderKey x < orderKey y := by
  simpa [lt, and_assoc] using h

theorem insertAsc_pairwise {x : Sc} {l : List Sc} (hx : isNan x = false) (hl : ∀ y ∈ l, isNan y = false)
    (hp : l.Pairwise fun a b => orderKey a ≤ orderKey b) : (insertAsc x l).Pairwise fun a b => orderKey a ≤ orderKey b := by
  induction l with
  | nil => simp [insertAsc]
  | cons y l ih =>
    rw [List.pairwise_cons] at hp
    unfold insertAsc
    split <;> rename_i h <;> rw [le_iff hx (hl y (by simp))] at h <;> rw [List.pairwise_cons]
    · refine ⟨fun z hz => ?_, List.pairwise_cons.mpr hp⟩
      rcases List.mem_cons.mp hz with rfl | hz
      · exact h
      · exact le_trans h (hp.1 z hz)
    · refine ⟨fun z hz => ?_, ih (fun z hz => hl z (by simp [hz])) hp.2⟩
      rcases List.mem_cons.mp ((insertAsc_perm x l).mem_iff.mp hz) with rfl | hz
      · omega
      · exact hp.1 z hz

/-- A list without NaNs comes out ascending. -/
theorem sortAsc_pairwise {l : List Sc} (hl : ∀ x ∈ l, isNan x = false) :
    (sortAsc l).Pairwise fun a b => orderKey a ≤ orderKey b := by
  induction l with
  | nil => simp [sortAsc]
  | cons x l ih =>
    exact insertAsc_pairwise (hl x (by simp)) (fun y hy => hl y (by simp [(sortAsc_perm l).mem_iff.mp hy]))
      (ih fun y hy => hl y (by simp [hy]))

/-- The greatest of a list without NaNs is an element of it, and no element is above it. -/
theorem maxOf_spec (l : List Sc) (hl : l ≠ []) (hn : ∀ x ∈ l, isNan x = false) :
    maxOf l ∈ l ∧ ∀ x ∈ l, orderKey x ≤ orderKey (maxOf l) := by
  cases l with
  | nil => exact absurd rfl hl
  | cons a l =>
    simp only [maxOf]
    clear hl
    induction l generalizing a with
    | nil => simp
    | cons b l ih =>
      rw [List.foldl_cons]
      have ha := hn a (by simp); have hb := hn b (by simp)
      have hm : maxNum a b = if orderKey a < orderKey b then b else a := by
        simp [maxNum, ha, hb, lt]
      have hmm : isNan (maxNum a b) = false := by rw [hm]; split <;> assumption
      obtain ⟨i1, i2⟩ := ih (maxNum a b) (by
        intro x hx; rcases List.mem_cons.mp hx with rfl | hx
        · exact hmm
        · exact hn x (by simp [hx]))
      have hk := i2 _ (List.mem_cons_self)
      refine ⟨?_, ?_⟩
      · rcases List.mem_cons.mp i1 with h | h
        · rw [h, hm]; split <;> simp
        · simp [h]
      · intro x hx
        rcases List.mem_cons.mp hx with rfl | hx
        · refine le_trans ?_ hk; rw [hm]; split <;> omega
        · rcases List.mem_cons.mp hx with rfl | hx
          · refine le_trans ?_ hk; rw [hm]; split <;> omega
          · exact i2 x (by simp [hx])

end Bin32
end Sys2Proof
end

