-- ==== Sys2Proof/Laws/Units.lean ====
section
/-! SUPPORT. What an update of a spectrogram unit keeps and what `get_psd` returns (40_spgram.md R147 to R156), and what the
selection and replacement of units do. -/

namespace Sys2Proof
namespace Machine

/-! ## Fields -/

@[simp] theorem SpgUnit.write_c (u : SpgUnit) (p : Params) (k : UnitId) (x : List Cx) : (u.write p k x).c = u.c := rfl
@[simp] theorem SpgUnit.write_n (u : SpgUnit) (p : Params) (k : UnitId) (x : List Cx) : (u.write p k x).n = u.n := rfl
@[simp] theorem SpgUnit.write_b (u : SpgUnit) (p : Params) (k : UnitId) (x : List Cx) : (u.write p k x).b = u.b := rfl
@[simp] theorem SpgUnit.write_alpha (u : SpgUnit) (p : Params) (k : UnitId) (x : List Cx) :
    (u.write p k x).alpha = u.alpha := rfl
@[simp] theorem SpgUnit.write_gamma (u : SpgUnit) (p : Params) (k : UnitId) (x : List Cx) :
    (u.write p k x).gamma = u.gamma := rfl
@[simp] theorem SpgUnit.write_acc (u : SpgUnit) (p : Params) (k : UnitId) (x : List Cx) : (u.write p k x).acc = u.acc := rfl
theorem SpgUnit.write_ring (u : SpgUnit) (p : Params) (k : UnitId) (x : List Cx) :
    (u.write p k x).ring = pushChunk u.ring (u.window p k) x := rfl
theorem SpgUnit.write_nt (u : SpgUnit) (p : Params) (k : UnitId) (x : List Cx) :
    (u.write p k x).nt = bumpTransforms u.nt := rfl

@[simp] theorem pushChunk_length (ring : List Cx) (w : List Sc) (x : List Cx) : (pushChunk ring w x).length = ring.length := by
  simp [pushChunk]

theorem bumpTransforms_toNat (nt : BitVec 32) : (bumpTransforms nt).toNat = min (nt.toNat + 1) (2 ^ 32 - 1) := by
  unfold bumpTransforms
  split
  · subst nt; simp
  · rename_i h
    have : nt.toNat ≠ 2 ^ 32 - 1 := fun hc => h (BitVec.eq_of_toNat_eq (by simpa using hc))
    have := nt.isLt
    rw [BitVec.toNat_add]
    simp only [BitVec.ofNat_eq_ofNat, BitVec.toNat_ofNat]; omega

@[simp] theorem SpgUnit.write_ring_length (u : SpgUnit) (p : Params) (k : UnitId) (x : List Cx) :
    (u.write p k x).ring.length = u.ring.length := by simp [SpgUnit.write_ring]

/-- The accumulator keeps its length when the ring and the accumulator have the unit's lengths. -/
theorem SpgUnit.write_shaped {u : SpgUnit} (p : Params) (k : UnitId) (x : List Cx) (h : u.Shaped) (hn : u.n ≤ u.b) :
    (u.write p k x).Shaped := by
  obtain ⟨hr, hp⟩ := h
  refine ⟨by simpa using hr, ?_⟩
  have hl : (pushChunk u.ring (u.window p k) x).length = u.b := by simpa using hr
  simp only [SpgUnit.write, SpgUnit.accumulate]
  split
  · simp [hl]; omega
  · simp [hl, hp]; omega

@[simp] theorem SpgUnit.clear_shaped (u : SpgUnit) : u.clear.Shaped := by simp [SpgUnit.clear, SpgUnit.Shaped]
@[simp] theorem SpgUnit.clear_c (u : SpgUnit) : u.clear.c = u.c := rfl
@[simp] theorem SpgUnit.clear_n (u : SpgUnit) : u.clear.n = u.n := rfl
@[simp] theorem SpgUnit.clear_b (u : SpgUnit) : u.clear.b = u.b := rfl
@[simp] theorem SpgUnit.clear_alpha (u : SpgUnit) : u.clear.alpha = u.alpha := rfl
@[simp] theorem SpgUnit.clear_gamma (u : SpgUnit) : u.clear.gamma = u.gamma := rfl
@[simp] theorem SpgUnit.clear_acc (u : SpgUnit) : u.clear.acc = u.acc := rfl

/-- What SPG.SETALPHA leaves of a unit: everything but the weights and the mode. -/
theorem SpgUnit.setAlpha_cases (u : SpgUnit) (v : Sc) :
    (v = Bin32.minusOne ∧ u.setAlpha v = { u with acc := true, alpha := Bin32.one, gamma := Bin32.one })
      ∨ (v ≠ Bin32.minusOne ∧ u.setAlpha v = { u with acc := false, alpha := v, gamma := Bin32.sub Bin32.one v }) := by
  unfold SpgUnit.setAlpha
  split
  · exact .inl ⟨‹_›, rfl⟩
  · exact .inr ⟨‹_›, rfl⟩

@[simp] theorem SpgUnit.getPsd_length (u : SpgUnit) (p : Params) : (u.getPsd p).length = u.psd.length := by
  unfold SpgUnit.getPsd
  simp only [List.length_map]
  split <;> simp

/-! ## Selecting and replacing a unit -/

@[simp] theorem State.setUnit_unit (s : State) (k : UnitId) : s.setUnit k (s.unit k) = s := by cases k <;> rfl

theorem unitSel_of_unitOf {sel : BitVec 4} {k : UnitId} (h : unitOf sel = some k) : unitSel sel = k := by
  simp [unitSel, h]

/-- A selector that names a unit is that unit's number. -/
theorem bits_of_unitOf {sel : BitVec 4} {k : UnitId} (h : unitOf sel = some k) : k.bits = sel := by
  revert h; revert k; revert sel; decide

end Machine
end Sys2Proof
end

