-- ==== Sys2Proof/Laws/Feed.lean ====
section
/-! SUPPORT. What the decimators, the level estimator, the S-meter, the ANF tracker and the three updates of a frame can do,
once each (41_decimators.md to 44_anf.md). -/

namespace Sys2Proof
namespace Machine

/-! ## Decimators (R174) -/

/-- One input of a decimator. -/
theorem Decim.push_cases (d : Decim) (m : Nat) (taps : List Sc) (x : Cx) :
    (d.ph + 1 = m ∧ d.push m taps x = (⟨Bin32.push d.dl x, 0⟩, some (firOutput taps (Bin32.push d.dl x))))
      ∨ (d.ph + 1 ≠ m ∧ d.push m taps x = (⟨Bin32.push d.dl x, d.ph + 1⟩, none)) := by
  unfold Decim.push
  split
  · exact .inl ⟨‹_›, rfl⟩
  · exact .inr ⟨‹_›, rfl⟩

@[simp] theorem Decim.feed_false (d : Decim) (m : Nat) (taps : List Sc) (out : List Cx) (x : Cx) :
    d.feed false m taps out x = (d, out) := rfl

/-- The delay line keeps its length. -/
@[simp] theorem Decim.feed_dl_length (d : Decim) (on : Bool) (m : Nat) (taps : List Sc) (out : List Cx) (x : Cx) :
    (d.feed on m taps out x).1.dl.length = d.dl.length := by
  cases on
  · rfl
  · rcases d.push_cases m taps x with ⟨_, h⟩ | ⟨_, h⟩ <;> simp [Decim.feed, h]

/-- From phase `ph` below the factor: the phase and the outputs count the inputs. -/
theorem Decim.feed_count {d : Decim} {m : Nat} (taps : List Sc) (out : List Cx) (x : Cx) (h : d.ph < m) :
    (d.feed true m taps out x).1.ph < m
      ∧ (d.feed true m taps out x).1.ph + m * (d.feed true m taps out x).2.length = d.ph + 1 + m * out.length := by
  rcases d.push_cases m taps x with ⟨he, hp⟩ | ⟨he, hp⟩
  · simp only [Decim.feed, if_true, hp, Option.toList_some, List.length_append, List.length_cons, List.length_nil]
    refine ⟨by omega, ?_⟩
    rw [Nat.mul_add, Nat.zero_add, Nat.mul_one]; omega
  · simp only [Decim.feed, if_true, hp, Option.toList_none, List.append_nil]
    exact ⟨by omega, trivial⟩

/-! ## The loop of `process_samples` (R192) -/

@[simp] theorem FrontEnd.step_full (p : Params) (c : FrontConfig) (f : FrontEnd) (x : Cx) :
    (f.step p c x).full = f.full ++ [Bin32.swap (f.dcb.step p x).2] := rfl
@[simp] theorem FrontEnd.step_dcb (p : Params) (c : FrontConfig) (f : FrontEnd) (x : Cx) :
    (f.step p c x).dcb = (f.dcb.step p x).1 := rfl
theorem FrontEnd.step_zdec (p : Params) (c : FrontConfig) (f : FrontEnd) (x : Cx) :
    ((f.step p c x).zdec, (f.step p c x).zc)
      = f.zdec.feed c.zoomOn c.zoomM c.zoomTaps f.zc (Bin32.swap (f.dcb.step p x).2) := rfl
theorem FrontEnd.step_adec (p : Params) (c : FrontConfig) (f : FrontEnd) (x : Cx) :
    ((f.step p c x).adec, (f.step p c x).ac)
      = f.adec.feed c.anfOn c.anfM c.anfTaps f.ac (Bin32.swap (f.dcb.step p x).2) := rfl

/-! ## Level estimator and S-meter (R222, R232) -/

theorem State.smeter_eq (s : State) (q : List Sc) :
    s.smeter q = { s with
      meterDb := Bin32.lpf s.meterDb (passbandPeak s.par s.regs q) s.par.feed.smeterBeta
      outIq := s.outIq ++ [⟨.meterUpdate, 0, false, [passbandPeak s.par s.regs q, s.par.feed.smeterBeta]⟩] } := rfl

/-- The estimator: nothing in manual mode, else the two levels and their events. -/
theorem State.autolevel_cases (s : State) (q : List Sc) :
    (s.regs.specAuto = false ∧ s.regs.wfAuto = false ∧ s.autolevel q = s)
      ∨ ((s.regs.specAuto = true ∨ s.regs.wfAuto = true)
        ∧ s.autolevel q = { s with
            gridMin := Bin32.lpf s.gridMin (floorCandidate s.par q) s.par.feed.autoBeta
            gridMax := Bin32.add (Bin32.lpf s.gridMin (floorCandidate s.par q) s.par.feed.autoBeta) s.par.feed.headroomDb
            outIq := s.outIq ++ levelEvents s.regs (Bin32.lpf s.gridMin (floorCandidate s.par q) s.par.feed.autoBeta)
              (Bin32.add (Bin32.lpf s.gridMin (floorCandidate s.par q) s.par.feed.autoBeta) s.par.feed.headroomDb) }) := by
  unfold State.autolevel
  cases h1 : s.regs.specAuto <;> cases h2 : s.regs.wfAuto
  · exact .inl ⟨rfl, rfl, rfl⟩
  all_goals exact .inr ⟨by simp, rfl⟩

/-- The estimator moves the two levels and emits their events at most. -/
theorem State.autolevel_frame (s : State) (q : List Sc) :
    ∃ (gmin gmax : Sc) (es : List Event),
      s.autolevel q = { s with gridMin := gmin, gridMax := gmax, outIq := s.outIq ++ es }
      ∧ (es.map Event.kind).Sublist [.specMin, .specMax, .wfMin, .wfMax]
      ∧ ((gmin = s.gridMin ∧ gmax = s.gridMax) ∨ gmax = Bin32.add gmin s.par.feed.headroomDb) := by
  rcases s.autolevel_cases q with ⟨_, _, h⟩ | ⟨_, h⟩
  · exact ⟨s.gridMin, s.gridMax, [], by simpa using h, by simp, .inl ⟨rfl, rfl⟩⟩
  · refine ⟨_, _, _, h, ?_, .inr rfl⟩
    unfold levelEvents
    cases s.regs.specAuto <;> cases s.regs.wfAuto <;> simp [Event.plain]

/-- The S-meter moves the level and emits one event; while recording nothing runs. -/
theorem State.smeter_frame (s : State) (q : List Sc) :
    ∃ (md : Sc) (es : List Event),
      (if s.regs.recActive then s else s.smeter q) = { s with meterDb := md, outIq := s.outIq ++ es }
        ∧ (es.map Event.kind).Sublist [.meterUpdate] ∧ (s.regs.recActive = true → md = s.meterDb) := by
  cases h : s.regs.recActive
  · exact ⟨_, _, State.smeter_eq s q, by simp, by simp⟩
  · exact ⟨s.meterDb, [], by simp, by simp, fun _ => rfl⟩

/-! ## The ANF tracker (R241, R248, R249) -/

/-- Agreement and publication. -/
theorem State.anfDecide_cases (s : State) (f : Word) :
    s.anfDecide f = s
      ∨ ((∀ x ∈ s.anfHist, x = s.anfHist.getLastD 0) ∧ anfPublish s.par f ≠ s.anfPublished
        ∧ s.anfDecide f = { s with
            anfPublished := anfPublish s.par f
            outIq := s.outIq ++ [⟨.anfFreq, 0, false, [anfPublish s.par f]⟩] }) := by
  unfold State.anfDecide
  simp only [Bool.and_eq_true, bne_iff_ne, ne_eq, anfAgree, List.all_eq_true, beq_iff_eq]
  split
  · rename_i h; exact Or.inr ⟨h.1, h.2, rfl⟩
  · exact Or.inl rfl

/-- One estimation: closed gate, or one value pushed and then the decision. -/
theorem State.anfUpdate_cases (s : State) :
    (gatePasses s.timeMs s.lastAnfMs s.par.feed.anfPeriodMs = false ∧ s.anfUpdate = s)
      ∨ (gatePasses s.timeMs s.lastAnfMs s.par.feed.anfPeriodMs = true
        ∧ s.anfUpdate = State.anfDecide
            { s with
              lastAnfMs := s.timeMs
              anfHist := Bin32.push s.anfHist (anfValue s.par s.regs (s.anf.getPsd s.par)) }
            (anfValue s.par s.regs (s.anf.getPsd s.par))) := by
  unfold State.anfUpdate
  cases h : gatePasses s.timeMs s.lastAnfMs s.par.feed.anfPeriodMs
  · exact .inl ⟨rfl, rfl⟩
  · exact .inr ⟨rfl, rfl⟩

/-! ## The updates of a frame (R197, R199) -/

/-- `update_spectrum`: closed gate, or the filter's new contents as the event. -/
theorem State.updateSpectrum_cases (s : State) (tx : Bool) :
    (gatePasses s.timeMs s.lastSpecMs s.par.feed.specPeriodMs = false ∧ s.updateSpectrum tx = s)
      ∨ (gatePasses s.timeMs s.lastSpecMs s.par.feed.specPeriodMs = true
        ∧ s.updateSpectrum tx
          = { s with
              specLpf := s.filteredSpectrum ((s.spectrum.getPsd s.par).map fun x => Bin32.add x s.par.feed.specCalDb)
              specLpfValid := true
              lastSpecMs := s.timeMs
              outIq := s.outIq ++ [⟨.spectrumData, 0, tx,
                s.filteredSpectrum ((s.spectrum.getPsd s.par).map fun x => Bin32.add x s.par.feed.specCalDb)⟩] }) := by
  unfold State.updateSpectrum
  cases h : gatePasses s.timeMs s.lastSpecMs s.par.feed.specPeriodMs
  · exact .inl ⟨rfl, rfl⟩
  · exact .inr ⟨rfl, rfl⟩

/-- `update_waterfall`: closed gate; or the emission, and then the hold armed (TX) or the receive part (RX). -/
theorem State.updateWaterfall_cases (s : State) (tx : Bool) :
    (gatePasses s.timeMs s.lastWfMs s.par.feed.wfPeriodMs = false ∧ s.updateWaterfall tx = s)
      ∨ (gatePasses s.timeMs s.lastWfMs s.par.feed.wfPeriodMs = true
        ∧ s.updateWaterfall tx
          = (let q := (s.waterfall.getPsd s.par).map fun x => Bin32.add x s.par.feed.wfCalDb
             let s1 : State :=
               { s with lastWfMs := s.timeMs, outIq := s.outIq ++ [(⟨.waterfallData, 0, tx, q⟩ : Event)] }
             if tx then { s1 with minMaxDelay := s.par.feed.minmaxDelayTx } else s1.afterRxWaterfall q)) := by
  unfold State.updateWaterfall
  cases h : gatePasses s.timeMs s.lastWfMs s.par.feed.wfPeriodMs
  · exact .inl ⟨rfl, rfl⟩
  · exact .inr ⟨rfl, by cases tx <;> rfl⟩

/-- What a receive emission does after its event: the meter unless recording; then the levels, or with a hold its count down
alone. -/
theorem State.afterRxWaterfall_eq (s : State) (q : List Sc) :
    s.afterRxWaterfall q
      = (let s1 := if s.regs.recActive = true then s else s.smeter q
         if s.minMaxDelay = 0 then s1.autolevel q else { s1 with minMaxDelay := s.minMaxDelay - 1 }) := by
  unfold State.afterRxWaterfall
  cases s.regs.recActive <;> rfl

/-- What a receive emission does after its event: only the meter, the levels and the hold counter move, and the events are
a meter update at most, then the level events at most. -/
theorem State.afterRxWaterfall_frame (s : State) (q : List Sc) :
    ∃ (md gmin gmax : Sc) (hold : BitVec 8) (es : List Event),
      s.afterRxWaterfall q = { s with
        meterDb := md, gridMin := gmin, gridMax := gmax, minMaxDelay := hold, outIq := s.outIq ++ es }
      ∧ (es.map Event.kind).Sublist [.meterUpdate, .specMin, .specMax, .wfMin, .wfMax]
      ∧ hold.toNat = s.minMaxDelay.toNat - 1
      ∧ ((gmin = s.gridMin ∧ gmax = s.gridMax) ∨ gmax = Bin32.add gmin s.par.feed.headroomDb)
      ∧ (s.minMaxDelay ≠ 0 → gmin = s.gridMin ∧ gmax = s.gridMax)
      ∧ (s.regs.recActive = true → md = s.meterDb) := by
  obtain ⟨md, es, hs, hk, hmd⟩ := s.smeter_frame q
  obtain ⟨gmin, gmax, es', hs', hk', hg⟩ := State.autolevel_frame { s with meterDb := md, outIq := s.outIq ++ es } q
  unfold State.afterRxWaterfall
  rw [hs]
  by_cases hz : s.minMaxDelay = 0
  · refine ⟨md, gmin, gmax, s.minMaxDelay, es ++ es', ?_, ?_, by simp [hz], hg, fun hn => absurd hz hn, hmd⟩
    · rw [if_pos hz, hs', List.append_assoc]
    · rw [List.map_append]; exact hk.append hk'
  · refine ⟨md, s.gridMin, s.gridMax, s.minMaxDelay - 1, es, if_neg hz, hk.trans (by simp), ?_, .inl ⟨rfl, rfl⟩,
      fun _ => ⟨rfl, rfl⟩, hmd⟩
    have h1 : s.minMaxDelay.toNat ≠ 0 := fun h => hz (BitVec.eq_of_toNat_eq h)
    have h2 := s.minMaxDelay.isLt
    rw [BitVec.toNat_sub]; simp only [BitVec.ofNat_eq_ofNat, BitVec.toNat_ofNat]; omega

/-! ## A frame (R190) -/

/-- The settle counter counts down to zero. -/
theorem State.countSettle_eq (s : State) :
    s.countSettle = { s with psdDelay := s.countSettle.psdDelay }
      ∧ s.countSettle.psdDelay.toNat = s.psdDelay.toNat - 1 := by
  unfold State.countSettle
  split
  · rename_i h; exact ⟨rfl, by rw [h]; rfl⟩
  · rename_i h
    refine ⟨rfl, ?_⟩
    have h1 : s.psdDelay.toNat ≠ 0 := fun hc => h (BitVec.eq_of_toNat_eq hc)
    have h2 := s.psdDelay.isLt
    show (s.psdDelay - 1).toNat = _
    rw [BitVec.toNat_sub]; simp only [BitVec.ofNat_eq_ofNat, BitVec.toNat_ofNat]; omega

/-- The loop of R192 as three folds over one list of swapped, DC blocked samples. -/
theorem FrontEnd.foldl_step_cases (p : Params) (c : FrontConfig) (buf : List Cx) : ∀ f : FrontEnd, ∃ ys : List Cx, ys.length = buf.length ∧
    (buf.foldl (FrontEnd.step p c) f).full = f.full ++ ys
    ∧ ((buf.foldl (FrontEnd.step p c) f).zdec, (buf.foldl (FrontEnd.step p c) f).zc) = ys.foldl (fun (a : Decim × List Cx) x => a.1.feed c.zoomOn c.zoomM c.zoomTaps a.2 x) (f.zdec, f.zc)
    ∧ ((buf.foldl (FrontEnd.step p c) f).adec, (buf.foldl (FrontEnd.step p c) f).ac) = ys.foldl (fun (a : Decim × List Cx) x => a.1.feed c.anfOn c.anfM c.anfTaps a.2 x) (f.adec, f.ac) := by
  induction buf with
  | nil => intro f; exact ⟨[], rfl, by simp, rfl, rfl⟩
  | cons x buf ih =>
    intro f
    obtain ⟨ys, h1, h2, h3, h4⟩ := ih (f.step p c x)
    refine ⟨Bin32.swap (f.dcb.step p x).2 :: ys, by simp [h1], ?_, ?_, ?_⟩
    · rw [List.foldl_cons, h2, FrontEnd.step_full]; simp
    · rw [List.foldl_cons, h3]; rfl
    · rw [List.foldl_cons, h4]; rfl

end Machine
end Sys2Proof
end

