-- ==== Sys2Proof/Laws/Cw.lean ====
section
/-! SUPPORT. What the stages of the CW decoder (45_cw.md R260 to R279) can do, once each, and what AUD.SAMPLES changes. -/

namespace Sys2Proof
namespace Machine

/-! ## Per decimated sample (R267) -/

/-- Every CW_RMS_HOP samples a level enters the queue; the oldest leaves a full one. -/
theorem CwState.rmsHop_cases (c : CwState) (p : Params) :
    (c.hopN ≠ p.cw.cwRmsHop ∧ c.rmsHop p = (c, none))
      ∨ (c.hopN = p.cw.cwRmsHop ∧ c.dly.length = p.cwDlyLen
          ∧ c.rmsHop p = ({ c with hopN := 0, dly := c.dly.drop 1 ++ [c.rmsLevel p] }, c.dly.head?))
      ∨ (c.hopN = p.cw.cwRmsHop ∧ c.dly.length ≠ p.cwDlyLen
          ∧ c.rmsHop p = ({ c with hopN := 0, dly := c.dly ++ [c.rmsLevel p] }, none)) := by
  unfold CwState.rmsHop
  by_cases h : c.hopN = p.cw.cwRmsHop
  · by_cases h2 : c.dly.length = p.cwDlyLen
    · exact .inr (.inl ⟨h, h2, by simp [h, h2]⟩)
    · exact .inr (.inr ⟨h, h2, by simp [h, h2]⟩)
  · exact .inl ⟨h, by simp [h]⟩

/-- The tuning report keeps everything but the tracked frequency, and emits CW_TUNE at most. -/
theorem CwState.tuneReport_frame (c : CwState) (p : Params) (r : CfgRegs) (imax : Nat) :
    ∃ (hz : Sc) (es : List Event), c.tuneReport p r imax = ({ c with peakHz := hz }, es) ∧ ∀ e ∈ es, e.kind = .cwTune := by
  unfold CwState.tuneReport
  split
  · exact ⟨_, _, rfl, by simp [Event.plain]⟩
  · exact ⟨c.peakHz, [], rfl, by simp⟩

/-- The end of a block: the two levels, the two thresholds, the tracked frequency and the count move, nothing else. -/
theorem CwState.blockEnd_frame (c : CwState) (p : Params) (r : CfgRegs) :
    ∃ (pf nf tp ts hz : Sc) (n : Nat) (es : List Event),
      c.blockEnd p r
        = ({ c with
            peakFiltered := pf, noiseFiltered := nf, thresholdPulse := tp, thresholdSilence := ts, peakHz := hz
            blkN := n }, es)
      ∧ (∀ e ∈ es, e.kind = .cwTune)
      ∧ ((c.blkN = p.cw.fftCw ∧ n = 0)
          ∨ (c.blkN ≠ p.cw.fftCw ∧ n = c.blkN ∧ es = [] ∧ pf = c.peakFiltered ∧ nf = c.noiseFiltered
              ∧ tp = c.thresholdPulse ∧ ts = c.thresholdSilence ∧ hz = c.peakHz)) := by
  unfold CwState.blockEnd
  by_cases h : c.blkN = p.cw.fftCw
  · simp only [if_pos h]
    generalize peakBin p (blockPowers p c.blk) = im
    generalize signalPresent p (blockPowers p c.blk) im = sg
    obtain ⟨hz, es, ht, he⟩ := (c.updateThresholds p r sg).tuneReport_frame p r im
    rw [ht]
    exact ⟨_, _, _, _, hz, 0, es, rfl, he, .inl ⟨h, rfl⟩⟩
  · simp only [if_neg h]
    exact ⟨_, _, _, _, _, _, [], rfl, by simp, .inr ⟨h, rfl, rfl, rfl, rfl, rfl, rfl, rfl⟩⟩

/-- The decision moves the flag at most, and emits CW_SIGNAL at most. -/
theorem CwState.judge_frame (c : CwState) (p : Params) (out : Option Sc) :
    ∃ (on : Bool) (es : List Event), c.judge p out = ({ c with peakOn := on }, es) ∧ ∀ e ∈ es, e.kind = .cwSignal := by
  cases out with
  | none => exact ⟨c.peakOn, [], rfl, by simp⟩
  | some r => exact ⟨_, _, rfl, by simp [cwSignalEvent, Event.plain]⟩

/-- The buffers of the decoder have their lengths and the counts their ranges (R56 to R58). -/
abbrev CwState.Fits (c : CwState) (p : Params) : Prop :=
  c.blk.length = p.cw.fftCw ∧ c.blkN < p.cw.fftCw ∧ c.rwin.length = p.cw.cwRmsLen ∧ c.hopN < p.cw.cwRmsHop
    ∧ c.dly.length ≤ p.cwDlyLen

/-- A decimated sample keeps the shapes and emits only the two CW events. -/
theorem CwState.sample_frame (c : CwState) (p : Params) (r : CfgRegs) (d : Cx) (h : c.Fits p)
    (hh : 1 ≤ p.cw.cwRmsHop) (hd : 1 ≤ p.cwDlyLen) :
    (c.sample p r d).1.Fits p := by
  obtain ⟨h1, h2, h3, h4, h5⟩ := h
  obtain ⟨on, es1, hj, -⟩ := (((c.take d).rmsHop p).1.blockEnd p r).1.judge_frame p ((c.take d).rmsHop p).2
  obtain ⟨pf, nf, tp, ts, hz, n, es2, hb, -, hn⟩ := ((c.take d).rmsHop p).1.blockEnd_frame p r
  simp only [CwState.sample]
  rw [hj, hb]
  have ht : (c.take d).blk.length = p.cw.fftCw ∧ (c.take d).blkN = c.blkN + 1 ∧ (c.take d).rwin.length = p.cw.cwRmsLen
      ∧ (c.take d).hopN = c.hopN + 1 ∧ (c.take d).dly.length ≤ p.cwDlyLen := by
    simp [CwState.take, h1, h3, h5]
  revert ht hn
  generalize c.take d = c'
  intro hn ht
  obtain ⟨t1, t2, t3, t4, t5⟩ := ht
  rcases c'.rmsHop_cases p with ⟨q, hr⟩ | ⟨q, q2, hr⟩ | ⟨q, q2, hr⟩ <;> rw [hr] at hn ⊢ <;>
    rcases hn with ⟨e1, e2⟩ | ⟨e1, e2, -⟩ <;> simp only [CwState.Fits] at e1 e2 ⊢ <;>
    refine ⟨t1, by omega, t3, by omega, ?_⟩ <;>
    first
    | exact t5
    | (simp only [List.length_append, List.length_drop, List.length_cons, List.length_nil]; omega)

theorem CwState.sample_events (c : CwState) (p : Params) (r : CfgRegs) (d : Cx) :
    ∀ e ∈ (c.sample p r d).2, e.kind = .cwSignal ∨ e.kind = .cwTune := by
  obtain ⟨on, es1, hj, h1⟩ := (((c.take d).rmsHop p).1.blockEnd p r).1.judge_frame p ((c.take d).rmsHop p).2
  obtain ⟨pf, nf, tp, ts, hz, n, es2, hb, h2, -⟩ := ((c.take d).rmsHop p).1.blockEnd_frame p r
  simp only [CwState.sample]
  intro e he
  rw [hj, hb] at he
  rcases List.mem_append.mp he with h | h
  · exact .inr (h2 e h)
  · exact .inl (h1 e h)

/-! ## AUD.SAMPLES (R260) -/

/-- One audio sample: the Hilbert line advances; with MODE.CW_EN also the phase, the decimator and, on an output, the
decoder with its events. -/
theorem State.audioStep_frame (s : State) (w : Word) :
    ∃ (acc : BitVec 32) (dec : Decim) (cw : CwState) (es : List Event),
      s.audioStep w = { s with
        hilbDl := Bin32.push s.hilbDl (audioSample w), ddsAcc := acc, cwdec := dec, cw := cw, outAud := s.outAud ++ es }
      ∧ (∀ e ∈ es, e.kind = .cwSignal ∨ e.kind = .cwTune)
      ∧ ((s.regs.cwEn = false ∧ acc = s.ddsAcc ∧ dec = s.cwdec ∧ cw = s.cw ∧ es = [])
          ∨ (s.regs.cwEn = true ∧ acc = s.ddsAcc + s.ddsFtw
              ∧ ∃ m, dec = (s.cwdec.push s.par.cw.dCw (Rom.cwTaps s.par) m).1
                ∧ (((s.cwdec.push s.par.cw.dCw (Rom.cwTaps s.par) m).2 = none ∧ cw = s.cw ∧ es = [])
                  ∨ ∃ d, (s.cwdec.push s.par.cw.dCw (Rom.cwTaps s.par) m).2 = some d
                      ∧ cw = (s.cw.sample s.par s.regs d).1 ∧ es = (s.cw.sample s.par s.regs d).2))) := by
  cases h : s.regs.cwEn
  · exact ⟨s.ddsAcc, s.cwdec, s.cw, [], by simp [State.audioStep, h], by simp, .inl ⟨rfl, rfl, rfl, rfl, rfl⟩⟩
  · simp only [State.audioStep, h, if_true, State.decodeTone]
    generalize mixDown s.ddsAcc (hilbertOutput s.par (Bin32.push s.hilbDl (audioSample w))) = m
    cases ho : (s.cwdec.push s.par.cw.dCw (Rom.cwTaps s.par) m).2 with
    | none =>
      exact ⟨s.ddsAcc + s.ddsFtw, _, s.cw, [], by simp, by simp, .inr ⟨by trivial, rfl, m, rfl, .inl ⟨ho, rfl, rfl⟩⟩⟩
    | some d =>
      exact ⟨s.ddsAcc + s.ddsFtw, _, _, _, rfl, CwState.sample_events _ _ _ _,
        .inr ⟨by trivial, rfl, m, rfl, .inr ⟨d, ho, rfl, rfl⟩⟩⟩

/-- The loop of AUD.SAMPLES: only the CW parts and port 1's events move. -/
theorem State.audioFold_frame (ws : List Word) : ∀ s : State, ∃ (hd : List Sc) (acc : BitVec 32) (dec : Decim) (cw : CwState) (es : List Event),
    ws.foldl State.audioStep s = { s with hilbDl := hd, ddsAcc := acc, cwdec := dec, cw := cw, outAud := s.outAud ++ es } := by
  induction ws with
  | nil => intro s; exact ⟨s.hilbDl, s.ddsAcc, s.cwdec, s.cw, [], by simp⟩
  | cons w ws ih =>
    intro s
    obtain ⟨acc, dec, cw, es, e, -⟩ := s.audioStep_frame w
    obtain ⟨hd2, acc2, dec2, cw2, es2, e2⟩ := ih (s.audioStep w)
    rw [List.foldl_cons, e2, e]
    exact ⟨hd2, acc2, dec2, cw2, es ++ es2, by simp⟩

end Machine
end Sys2Proof
end

