-- ==== Sys2Proof/Laws/Datapath.lean ====
section
/-! SUPPORT. What a sum of the datapath is, and that rounding to binary32 takes a nearest scalar (00_scope.md R20). -/

namespace Sys2Proof
namespace Bin32

/-! ## Sums -/

/-- One term of a sum may be replaced by the terms of a sum that gives it. -/
theorem SumOf.splice {l : List Sc} {t c : Sc} {zs ys : List Sc} (h : SumOf l t) (hp : l.Perm (c :: ys)) (hz : SumOf zs c) :
    SumOf (zs ++ ys) t := by
  induction h generalizing ys with
  | one x =>
    obtain ⟨rfl, rfl⟩ : c = x ∧ ys = [] := by simpa using List.perm_singleton.mp hp.symm
    simpa using hz
  | @add xs₁ xs₂ a b h1 h2 i1 i2 =>
    rcases List.mem_append.mp (hp.mem_iff.mpr List.mem_cons_self) with hc | hc
    · obtain ⟨r, hr⟩ : ∃ r, xs₁.Perm (c :: r) := ⟨_, List.perm_cons_erase hc⟩
      have h3 : (r ++ xs₂).Perm ys := List.Perm.cons_inv ((hr.append_right xs₂).symm.trans hp)
      exact .reorder (by rw [List.append_assoc]; exact h3.append_left zs) (SumOf.add (i1 hr) h2)
    · obtain ⟨r, hr⟩ : ∃ r, xs₂.Perm (c :: r) := ⟨_, List.perm_cons_erase hc⟩
      have h3 : (xs₁ ++ r).Perm ys := List.Perm.cons_inv
        ((List.perm_middle.symm.trans (hr.append_left xs₁).symm).trans hp)
      exact .reorder ((List.perm_append_comm_assoc xs₁ zs r).trans (h3.append_left zs)) (SumOf.add h1 (i2 hr))
  | reorder hq _ ih => exact ih (hq.trans hp)

/-- Taking an element out of a list. -/
theorem perm_getD_eraseIdx (l : List Sc) (i : Nat) (h : i < l.length) : (l.getD i 0 :: l.eraseIdx i).Perm l := by
  rw [List.getD_eq_getElem?_getD, List.getElem?_eq_getElem h, Option.getD_some]
  exact List.getElem_cons_eraseIdx_perm h

/-- With fuel for every term, whichever pair is added next. -/
theorem sumBy_sumOf (next : Nat → Nat × Nat) (fuel : Nat) (xs : List Sc) (hx : xs ≠ []) (hf : xs.length ≤ fuel) :
    SumOf xs (sumBy next fuel xs) := by
  induction fuel generalizing xs with
  | zero => exact absurd (List.length_eq_zero_iff.mp (Nat.le_zero.mp hf)) hx
  | succ fuel ih =>
    match xs, hx with
    | [x], _ => exact .one x
    | x :: y :: zs, _ =>
      simp only [sumBy]
      set l := x :: y :: zs with hl
      have hn : 0 < l.length := by simp [hl]
      set i := (next l.length).1 % l.length
      have hi : i < l.length := Nat.mod_lt _ hn
      set r := l.eraseIdx i
      have hr : r.length = l.length - 1 := List.length_eraseIdx_of_lt hi
      have hr0 : 0 < r.length := by rw [hr, hl]; simp
      set j := (next l.length).2 % r.length
      have hj : j < r.length := Nat.mod_lt _ hr0
      have h1 := ih (add (l.getD i 0) (r.getD j 0) :: r.eraseIdx j) (by simp)
        (by rw [List.length_cons, List.length_eraseIdx_of_lt hj]; omega)
      refine .reorder ?_ (h1.splice (List.Perm.refl _) (SumOf.add (.one (l.getD i 0)) (.one (r.getD j 0))))
      exact ((perm_getD_eraseIdx r j hj).cons (l.getD i 0)).trans (perm_getD_eraseIdx l i hi)

/-- A sum of the datapath adds each term once, in `NUM`'s order (R20). -/
theorem sum_sumOf (site : Config.SumSite) (xs : List Sc) (hx : xs ≠ []) : SumOf xs (sum site xs) :=
  sumBy_sumOf _ _ xs hx le_rfl

/-- A bin of the transform is a DFT sum (R18). -/
theorem dft_dftOf (x : List Cx) (k : Nat) (h : k < x.length) : ∃ y, (dft x)[k]? = some y ∧ DftOf x k y := by
  have hx : ∀ part : Cx → Sc, (dftTerms x k).map part ≠ [] := by
    intro part h0
    have := congrArg List.length h0
    simp [dftTerms] at this; simp [this] at h
  refine ⟨csum (.dftRe k) (.dftIm k) (dftTerms x k), ?_, sum_sumOf _ _ (hx Cx.re), sum_sumOf _ _ (hx Cx.im)⟩
  rw [dft, List.getElem?_map, List.getElem?_range h]; rfl

/-! ## Rounding -/

/-- The quotient to nearest, ties to even. -/
theorem divEven_spec (n d : Nat) (hd : 0 < d) :
    2 * (divEven n d * d) ≤ 2 * n + d ∧ 2 * n ≤ 2 * (divEven n d * d) + d
      ∧ (2 * (divEven n d * d) = 2 * n + d ∨ 2 * n = 2 * (divEven n d * d) + d → divEven n d % 2 = 0) := by
  have h := Nat.div_add_mod n d
  have hr := Nat.mod_lt n hd
  simp only [divEven]
  set q := n / d
  set r := n % d
  have hq : q * d = d * q := Nat.mul_comm _ _
  split
  · exact ⟨by omega, by omega, by omega⟩
  · split
    · rw [Nat.add_mul, hq]; exact ⟨by omega, by omega, by omega⟩
    · rcases Nat.mod_two_eq_zero_or_one q with h2 | h2
      · rw [h2, Nat.add_zero, hq]; exact ⟨by omega, by omega, fun _ => h2⟩
      · rw [h2, Nat.add_mul, hq]; exact ⟨by omega, by omega, fun _ => by omega⟩

/-- A finite magnitude is a multiple of a power of two, or below the 24-bit numbers of that unit. -/
theorem mag_form (z : Sc) (j : Nat) : (∃ k : Nat, mag z = k * 2 ^ j) ∨ (j ≠ 0 ∧ mag z < 2 ^ (23 + j)) := by
  have hf : fracField z < 2 ^ 23 := Nat.mod_lt _ (by norm_num)
  rcases Nat.eq_zero_or_pos j with rfl | hj
  · exact .inl ⟨mag z, by simp⟩
  · unfold mag
    split
    · exact .inr ⟨by omega, hf.trans_le (Nat.pow_le_pow_right (by norm_num) (by omega))⟩
    · rename_i he
      rcases Nat.lt_or_ge (expField z - 1) j with hlt | hge
      · refine .inr ⟨by omega, ?_⟩
        calc (2 ^ 23 + fracField z) * 2 ^ (expField z - 1) < 2 ^ 24 * 2 ^ (expField z - 1) := by
              apply Nat.mul_lt_mul_of_pos_right _ (by positivity); omega
          _ = 2 ^ (24 + (expField z - 1)) := (pow_add _ _ _).symm
          _ ≤ 2 ^ (23 + j) := Nat.pow_le_pow_right (by norm_num) (by omega)
      · refine .inl ⟨(2 ^ 23 + fracField z) * 2 ^ (expField z - 1 - j), ?_⟩
        rw [Nat.mul_assoc, ← pow_add]; congr 2; omega

/-- The magnitude of the bits that `roundBits` assembles. -/
theorem mag_bits (e j : Nat) (he : e ≤ 2 ^ 24) (hj : j ≠ 0 → 2 ^ 23 ≤ e) (h : e + j * 2 ^ 23 < 0x7F800000) :
    let r := BitVec.ofNat 32 (e + j * 2 ^ 23)
    isFinite r = true ∧ isNeg r = false ∧ r.toNat = e + j * 2 ^ 23 ∧ mag r = e * 2 ^ j := by
  intro r
  have hr : r.toNat = e + j * 2 ^ 23 := by simp [r]; omega
  have hx : expField r = if e < 2 ^ 23 then 0 else if e < 2 ^ 24 then j + 1 else j + 2 := by
    simp only [expField, hr]; split_ifs <;> omega
  have hfr : fracField r = if e < 2 ^ 23 then e else if e < 2 ^ 24 then e - 2 ^ 23 else 0 := by
    simp only [fracField, hr]; split_ifs <;> omega
  refine ⟨?_, ?_, hr, ?_⟩
  · have h3 : expField r ≠ 255 := by
      rw [hx]
      by_cases h1 : e < 2 ^ 23
      · rw [if_pos h1]; decide
      · rw [if_neg h1]; by_cases h2 : e < 2 ^ 24
        · rw [if_pos h2]; omega
        · rw [if_neg h2]; omega
    simpa [isFinite] using h3
  · rw [isNeg, BitVec.msb_eq_decide, hr, decide_eq_false_iff_not]; omega
  · unfold mag
    rw [hx, hfr]
    by_cases h1 : e < 2 ^ 23
    · have hj0 : j = 0 := by by_contra hc; exact absurd (hj hc) (by omega)
      rw [if_pos h1, if_pos h1, if_pos rfl, hj0, pow_zero, Nat.mul_one]
    · rw [if_neg h1, if_neg h1]
      by_cases h2 : e < 2 ^ 24
      · rw [if_pos h2, if_pos h2, if_neg (by omega), Nat.add_sub_cancel]
        rw [Nat.add_sub_of_le (Nat.le_of_not_lt h1)]
      · have h3 : e = 2 * 2 ^ 23 := by omega
        rewrite [if_neg h2, if_neg h2, if_neg (Nat.succ_ne_zero _), h3, Nat.add_zero,
          show j + 2 - 1 = j + 1 from rfl]
        generalize (2 : Nat) ^ 23 = c
        rewrite [pow_succ]; ring

/-- The bits of an integer multiple `e` of `2^j` nearest to `v`, capped at the infinity, are `v` correctly rounded. -/
theorem roundsTo_of_nearest {v : ℝ} {e j : Nat} (h0 : 0 ≤ v) (h1 : 2 * (e * 2 ^ j : ℝ) ≤ 2 * v + 2 ^ j)
    (h2 : 2 * v ≤ 2 * (e * 2 ^ j : ℝ) + 2 ^ j)
    (ht : 2 * (e * 2 ^ j : ℝ) = 2 * v + 2 ^ j ∨ 2 * v = 2 * (e * 2 ^ j : ℝ) + 2 ^ j → e % 2 = 0)
    (hj : j ≠ 0 → (2 : ℝ) ^ (23 + j) ≤ v) (hv : v < 2 ^ (24 + j)) :
    RoundsTo v (BitVec.ofNat 32 (min (e + j * 2 ^ 23) 0x7F800000)) := by
  have hp : (0 : ℝ) < 2 ^ j := by positivity
  have he : e ≤ 2 ^ 24 := by
    have : (e : ℝ) < 2 ^ 24 + 1 := by
      rw [pow_add] at hv
      nlinarith
    exact_mod_cast Nat.lt_succ_iff.mp (by exact_mod_cast this)
  have hjl : j ≠ 0 → 2 ^ 23 ≤ e := by
    intro hj0
    have h3 := hj hj0
    rw [pow_add] at h3
    have : (2 : ℝ) ^ 23 < e + 1 := by nlinarith
    exact_mod_cast Nat.lt_succ_iff.mp (by exact_mod_cast this)
  have hpos : ∀ a b : Nat, a ≤ b → (2 : ℝ) ^ a ≤ 2 ^ b := fun a b hab => pow_le_pow_right₀ (by norm_num) hab
  have hP : (0 : ℝ) < 2 ^ 252 := by positivity
  have h53 : (2 : ℝ) ^ 253 = 2 * 2 ^ 252 := by rw [pow_succ]; ring
  have hbig : ∀ k : Nat, 254 ≤ j → (2 : ℝ) ^ 25 * 2 ^ 252 ≤ v := fun _ hk => by
    rw [← pow_add]; exact (hpos _ _ (by omega)).trans (hj (by omega))
  have hfin : v < (2 ^ 25 - 1) * 2 ^ 252 → e + j * 2 ^ 23 < 0x7F800000 := by
    intro hlt
    by_contra hc
    rcases Nat.lt_or_ge j 254 with hj4 | hj4
    · have hj3 : j = 253 := by omega
      have he4 : e = 2 ^ 24 := by omega
      rw [hj3, he4, h53] at h1
      push_cast at h1
      nlinarith
    · have := hbig 0 hj4; nlinarith
  have hinf : (2 ^ 25 - 1) * 2 ^ 252 ≤ v → 0x7F800000 ≤ e + j * 2 ^ 23 := by
    intro hle
    by_contra hc
    rcases Nat.lt_or_ge j 253 with hj3 | hj3
    · have h4 : v < 2 ^ 24 * 2 ^ 252 := by rw [← pow_add]; exact hv.trans_le (hpos _ _ (by omega))
      nlinarith
    · have := hjl (by omega)
      have hj3' : j = 253 := by omega
      rw [hj3', h53] at h2 ht
      have h5 : (2 : ℝ) ^ 24 - 1 ≤ e := by
        by_contra hcc
        push Not at hcc
        nlinarith
      have h6 : 2 ^ 24 ≤ e + 1 := by exact_mod_cast (by linarith : (2 : ℝ) ^ 24 ≤ e + 1)
      have h7 : e = 2 ^ 24 - 1 := by omega
      have h8 : e % 2 = 0 := ht (.inr (by
        have h9 : (e : ℝ) = 2 ^ 24 - 1 := by
          have h10 : (e : ℝ) + 1 ≤ 2 ^ 24 := by
            have : ((e + 1 : Nat) : ℝ) ≤ ((2 ^ 24 : Nat) : ℝ) := Nat.cast_le.mpr (by omega)
            push_cast at this; linarith
          linarith
        rewrite [h9] at h2 ⊢
        refine le_antisymm h2 ?_
        clear ht hfin hbig h1 hj
        generalize (2 : ℝ) ^ 252 = P at hle h2 ⊢
        linarith))
      omega
  refine ⟨fun hlt => ?_, fun hle => ?_, fun hle => ?_⟩
  · rw [abs_of_nonneg h0] at hlt
    have hb := hfin hlt
    rw [Nat.min_eq_left hb.le]
    obtain ⟨m1, m2, m3, m4⟩ := mag_bits e j he hjl hb
    refine ⟨m1, fun z _ => ?_⟩
    have hfix : ((fix (BitVec.ofNat 32 (e + j * 2 ^ 23)) : Int) : ℝ) = e * 2 ^ j := by
      rw [fix, m2, m4]; push_cast; rfl
    rw [hfix, m3]
    have hd : |(e : ℝ) * 2 ^ j - v| ≤ 2 ^ j / 2 := by rw [abs_le]; constructor <;> linarith
    have htie : |(e : ℝ) * 2 ^ j - v| = 2 ^ j / 2 → e % 2 = 0 := by
      intro hq; apply ht
      rcases abs_choice ((e : ℝ) * 2 ^ j - v) with hc | hc <;> rw [hc] at hq
      · left; linarith
      · right; linarith
    have key : (fix z : ℝ) ≠ e * 2 ^ j →
        2 ^ j / 2 ≤ |(fix z : ℝ) - v| ∨ |(e : ℝ) * 2 ^ j - v| < |(fix z : ℝ) - v| := by
      intro hne
      rcases mag_form z j with ⟨k, hk⟩ | ⟨hj0, hk⟩
      · left
        obtain ⟨i, hi⟩ : ∃ i : Int, (fix z : ℝ) = i * 2 ^ j := by
          unfold fix; split
          · exact ⟨-k, by rw [hk]; push_cast; ring⟩
          · exact ⟨k, by rw [hk]; push_cast; ring⟩
        rw [hi] at hne ⊢
        have hie : i ≠ (e : Int) := fun hc => hne (by rw [hc]; push_cast; rfl)
        have h1i : (1 : ℝ) ≤ |(i : ℝ) - e| := by
          have : 1 ≤ |i - (e : Int)| := Int.one_le_abs (sub_ne_zero.mpr hie)
          exact_mod_cast this
        have h2i : (2 : ℝ) ^ j ≤ |(i : ℝ) * 2 ^ j - e * 2 ^ j| := by
          rw [← sub_mul, abs_mul, abs_of_pos hp]; nlinarith
        have h3i := abs_sub_le ((i : ℝ) * 2 ^ j) v (e * 2 ^ j)
        rw [abs_sub_comm v] at h3i
        linarith
      · right
        have h3 := hj hj0
        have hz : (fix z : ℝ) < 2 ^ (23 + j) := by
          have : (mag z : ℝ) < 2 ^ (23 + j) := by exact_mod_cast hk
          unfold fix; split
          · push_cast; have : (0 : ℝ) ≤ mag z := by positivity
            have : (0 : ℝ) < 2 ^ (23 + j) := by positivity
            linarith
          · push_cast; exact this
        have h4 : |(fix z : ℝ) - v| = v - fix z := by rw [abs_sub_comm, abs_of_nonneg]; linarith
        rw [h4]
        -- 2^(23+j) is itself a multiple of 2^j, hence not nearer than e * 2^j
        have h5 : |(e : ℝ) * 2 ^ j - v| ≤ |(2 : ℝ) ^ (23 + j) - v| := by
          by_cases heq : e = 2 ^ 23
          · have : (e : ℝ) = 2 ^ 23 := by exact_mod_cast heq
            rw [this, pow_add]
          · have he1 : (2 : ℝ) ^ 23 + 1 ≤ e := by
              have := hjl hj0
              exact_mod_cast (by omega : 2 ^ 23 + 1 ≤ e)
            have hs : (2 : ℝ) ^ j / 2 ≤ v - 2 ^ (23 + j) := by rw [pow_add]; nlinarith
            rw [abs_sub_comm ((2 : ℝ) ^ (23 + j)), abs_of_nonneg (by linarith : (0 : ℝ) ≤ v - 2 ^ (23 + j))]
            linarith
        rw [abs_sub_comm ((2 : ℝ) ^ (23 + j)), abs_of_nonneg (by linarith : (0 : ℝ) ≤ v - 2 ^ (23 + j))] at h5
        linarith
    have hpar : e % 2 = 0 → (e + j * 2 ^ 23) % 2 = 0 := by omega
    by_cases hze : (fix z : ℝ) = e * 2 ^ j
    · refine ⟨by rw [hze], fun _ hne => absurd ?_ hne⟩
      have : fix (BitVec.ofNat 32 (e + j * 2 ^ 23)) = fix z := by exact_mod_cast hfix.trans hze.symm
      exact this.symm
    · rcases key hze with hk | hk
      · exact ⟨hd.trans hk, fun hq _ => hpar (htie (le_antisymm hd (by rw [hq]; exact hk)))⟩
      · exact ⟨hk.le, fun hq _ => absurd hq hk.ne⟩
  · rw [Nat.min_eq_right (hinf hle)]; rfl
  · have : (0 : ℝ) < (2 ^ 25 - 1) * 2 ^ 252 := by nlinarith
    linarith

/-! ## Signs -/

theorem toNat_neg (x : Sc) : (neg x).toNat = x.toNat ^^^ 2 ^ 31 := by
  rw [neg, BitVec.toNat_xor]; rfl

theorem expField_neg (x : Sc) : expField (neg x) = expField x := by
  rw [expField, toNat_neg, Nat.xor_div_two_pow, show (256 : Nat) = 2 ^ 8 from rfl, Nat.xor_mod_two_pow]
  simp [expField]

theorem fracField_neg (x : Sc) : fracField (neg x) = fracField x := by
  rw [fracField, toNat_neg, Nat.xor_mod_two_pow]
  simp [fracField]

theorem isNeg_neg (x : Sc) : isNeg (neg x) = !isNeg x := by
  rw [isNeg, neg, BitVec.msb_xor, show (0x80000000#32).msb = true from rfl, Bool.xor_true]; rfl

theorem mag_neg (x : Sc) : mag (neg x) = mag x := by simp [mag, expField_neg, fracField_neg]

theorem fix_neg (x : Sc) : fix (neg x) = -fix x := by
  rw [fix, fix, isNeg_neg, mag_neg]; cases isNeg x <;> simp

theorem isFinite_neg (x : Sc) : isFinite (neg x) = isFinite x := by simp [isFinite, expField_neg]

theorem isNan_neg (x : Sc) : isNan (neg x) = isNan x := by simp [isNan, expField_neg, fracField_neg]

theorem neg_neg (x : Sc) : neg (neg x) = x := by simp [neg]

theorem toNat_neg_mod (x : Sc) : (neg x).toNat % 2 = x.toNat % 2 := by
  rw [toNat_neg, show (2 : Nat) = 2 ^ 1 from rfl, Nat.xor_mod_two_pow]; simp

/-- Rounding is symmetric in the sign. -/
theorem RoundsTo.neg {v : ℝ} {r : Sc} (h : RoundsTo v r) : RoundsTo (-v) (neg r) := by
  obtain ⟨h1, h2, h3⟩ := h
  refine ⟨fun hv => ?_, fun hv => ?_, fun hv => ?_⟩
  · rw [abs_neg] at hv
    obtain ⟨hf, hz⟩ := h1 hv
    refine ⟨by rw [isFinite_neg]; exact hf, fun z hzf => ?_⟩
    obtain ⟨a, b⟩ := hz (Bin32.neg z) (by rw [isFinite_neg]; exact hzf)
    rw [fix_neg] at a b
    have e1 : |((fix (Bin32.neg r) : Int) : ℝ) - -v| = |(fix r : ℝ) - v| := by
      rw [fix_neg, ← abs_neg]; push_cast; congr 1; ring
    have e2 : |(fix z : ℝ) - -v| = |((-fix z : Int) : ℝ) - v| := by
      rw [← abs_neg]; push_cast; congr 1; ring
    rw [e1, e2]
    refine ⟨a, fun hq hne => ?_⟩
    rw [toNat_neg_mod]
    exact b hq (fun hc => hne (by rw [fix_neg]; omega))
  · rw [h3 (by linarith)]; rfl
  · rw [h2 (by linarith)]; rfl

theorem or_sign {b : Sc} (h : isNeg b = false) : b ||| 0x80000000#32 = neg b := by
  apply BitVec.eq_of_getLsbD_eq
  intro i hi
  have hb : b.getLsbD 31 = false := by simpa [isNeg, BitVec.msb_eq_getLsbD_last] using h
  rw [neg, BitVec.getLsbD_or, BitVec.getLsbD_xor]
  by_cases h31 : i = 31
  · subst h31; rw [hb]; rfl
  · have : (0x80000000#32).getLsbD i = false := by interval_cases i <;> first | rfl | exact absurd rfl h31
    rw [this]; simp

theorem isNeg_roundBits (n d : Nat) : isNeg (BitVec.ofNat 32 (roundBits n d)) = false := by
  rw [isNeg, BitVec.msb_eq_decide, decide_eq_false_iff_not, BitVec.toNat_ofNat]
  have : roundBits n d ≤ 0x7F800000 := Nat.min_le_right _ _
  omega

/-- The bits `roundBits` assembles are the quotient correctly rounded. -/
theorem roundBits_roundsTo (n d : Nat) (hd : 0 < d) : RoundsTo ((n : ℝ) / d) (BitVec.ofNat 32 (roundBits n d)) := by
  have hdR : (0 : ℝ) < d := by exact_mod_cast hd
  set j := Nat.log2 (n / d) - 23 with hj
  have hD : 0 < d * 2 ^ j := by positivity
  obtain ⟨s1, s2, s3⟩ := divEven_spec n (d * 2 ^ j) hD
  have hlt : n / d < 2 ^ (24 + j) :=
    Nat.lt_of_lt_of_le Nat.lt_log2_self (Nat.pow_le_pow_right (by norm_num) (by omega))
  have scale : ∀ a b : ℝ, a * d ≤ b * d → a ≤ b := fun a b h => le_of_mul_le_mul_right h hdR
  have hv : (n : ℝ) / d * d = n := div_mul_cancel₀ _ hdR.ne'
  apply roundsTo_of_nearest (e := divEven n (d * 2 ^ j)) (j := j)
  · positivity
  · apply scale
    have : ((2 * (divEven n (d * 2 ^ j) * (d * 2 ^ j)) : Nat) : ℝ) ≤ ((2 * n + d * 2 ^ j : Nat) : ℝ) := by exact_mod_cast s1
    push_cast at this
    rw [add_mul, mul_assoc 2 ((n : ℝ) / d), hv]; nlinarith
  · apply scale
    have : ((2 * n : Nat) : ℝ) ≤ ((2 * (divEven n (d * 2 ^ j) * (d * 2 ^ j)) + d * 2 ^ j : Nat) : ℝ) := by exact_mod_cast s2
    push_cast at this
    rw [mul_assoc 2 ((n : ℝ) / d), hv]; nlinarith
  · intro h
    apply s3
    rcases h with h | h
    · left
      have h' := congrArg (· * (d : ℝ)) h
      simp only [add_mul, mul_assoc 2 ((n : ℝ) / d), hv] at h'
      have : ((2 * (divEven n (d * 2 ^ j) * (d * 2 ^ j)) : Nat) : ℝ) = ((2 * n + d * 2 ^ j : Nat) : ℝ) := by
        push_cast; linarith
      exact_mod_cast this
    · right
      have h' := congrArg (· * (d : ℝ)) h
      simp only [add_mul, mul_assoc 2 ((n : ℝ) / d), hv] at h'
      have : ((2 * n : Nat) : ℝ) = ((2 * (divEven n (d * 2 ^ j) * (d * 2 ^ j)) + d * 2 ^ j : Nat) : ℝ) := by
        push_cast; linarith
      exact_mod_cast this
  · intro hj0
    have hq0 : n / d ≠ 0 := by intro hc; rw [hc] at hj; simp at hj; omega
    have h1 : 2 ^ (23 + j) ≤ n / d := by
      have := Nat.log2_self_le hq0
      rwa [show Nat.log2 (n / d) = 23 + j by omega] at this
    have h2 : 2 ^ (23 + j) * d ≤ n := (Nat.mul_le_mul_right d h1).trans (Nat.div_mul_le_self n d)
    rw [le_div_iff₀ hdR]
    exact_mod_cast h2
  · rw [div_lt_iff₀ hdR]
    exact_mod_cast (Nat.div_lt_iff_lt_mul hd).mp hlt

/-- What packing a sign and a magnitude `n / d` gives: the scalar correctly rounded. -/
theorem pack_roundsTo (negative : Bool) (n d : Nat) (hd : 0 < d) :
    RoundsTo (if negative then -((n : ℝ) / d) else (n : ℝ) / d) (pack negative n d) := by
  have h := roundBits_roundsTo n d hd
  cases negative
  · exact h
  · rw [pack, if_pos rfl, if_pos rfl, or_sign (isNeg_roundBits n d)]; exact h.neg

/-! ## Square roots -/

/-- The bitwise root is the floor of the root. -/
theorem isqrtFrom_spec (v : Nat) : ∀ b acc : Nat, acc * acc ≤ v → v < (acc + 2 ^ b) * (acc + 2 ^ b) →
    isqrtFrom v b acc * isqrtFrom v b acc ≤ v ∧ v < (isqrtFrom v b acc + 1) * (isqrtFrom v b acc + 1) := by
  intro b
  induction b with
  | zero => intro acc h1 h2; exact ⟨h1, by simpa [isqrtFrom] using h2⟩
  | succ b ih =>
    intro acc h1 h2
    simp only [isqrtFrom]
    split
    · rename_i h
      exact ih _ h (by rw [pow_succ] at h2; rwa [show acc + 2 ^ b + 2 ^ b = acc + 2 ^ b * 2 by omega])
    · rename_i h; exact ih _ h1 (by omega)

/-- A finite magnitude is below 2^128. -/
theorem mag_lt {x : Sc} (h : isFinite x = true) : mag x < 2 ^ 277 := by
  have hf : fracField x < 2 ^ 23 := Nat.mod_lt _ (by norm_num)
  have he : expField x < 256 := Nat.mod_lt _ (by norm_num)
  have he2 : expField x ≠ 255 := by simpa [isFinite] using h
  unfold mag
  split
  · exact hf.trans_le (Nat.pow_le_pow_right (by norm_num) (by omega))
  · calc (2 ^ 23 + fracField x) * 2 ^ (expField x - 1) < 2 ^ 24 * 2 ^ (expField x - 1) := by
          apply Nat.mul_lt_mul_of_pos_right _ (by positivity); omega
      _ = 2 ^ (24 + (expField x - 1)) := (pow_add _ _ _).symm
      _ ≤ 2 ^ 277 := Nat.pow_le_pow_right (by norm_num) (by omega)

/-- The root with a sticky bit, packed, is the real root correctly rounded. -/
theorem roundsTo_sqrt (m : Nat) (hm : 0 < m) (hm2 : m < 2 ^ 277) :
    RoundsTo (Real.sqrt ((m : ℝ) * 2 ^ 149))
      (pack false (2 * isqrt (m * 2 ^ 149) + (if isqrt (m * 2 ^ 149) * isqrt (m * 2 ^ 149) = m * 2 ^ 149 then 0 else 1)) 2) := by
  obtain ⟨a1, a2⟩ := isqrtFrom_spec (m * 2 ^ 149) 216 0 (by simp) (by
    rw [Nat.zero_add, ← pow_add]
    calc m * 2 ^ 149 < 2 ^ 277 * 2 ^ 149 := Nat.mul_lt_mul_of_pos_right hm2 (by positivity)
      _ = 2 ^ (277 + 149) := (pow_add _ _ _).symm
      _ ≤ 2 ^ (216 + 216) := Nat.pow_le_pow_right (by norm_num) (by norm_num))
  change isqrt (m * 2 ^ 149) * isqrt (m * 2 ^ 149) ≤ _ at a1
  change _ < (isqrt (m * 2 ^ 149) + 1) * (isqrt (m * 2 ^ 149) + 1) at a2
  set r := isqrt (m * 2 ^ 149)
  have hcast : ((m * 2 ^ 149 : Nat) : ℝ) = (m : ℝ) * 2 ^ 149 := by rw [Nat.cast_mul, Nat.cast_pow, Nat.cast_ofNat]
  by_cases hex : r * r = m * 2 ^ 149
  · rw [if_pos hex]
    have : Real.sqrt ((m : ℝ) * 2 ^ 149) = ((2 * r + 0 : Nat) : ℝ) / (2 : Nat) := by
      rw [← hcast, ← hex]; push_cast
      rw [Real.sqrt_mul_self (by positivity)]; ring
    rw [this]; exact pack_roundsTo false _ 2 (by norm_num)
  · rw [if_neg hex]
    set s := Real.sqrt ((m : ℝ) * 2 ^ 149)
    have hs0 : 0 ≤ s := Real.sqrt_nonneg _
    have hss : s * s = ((m * 2 ^ 149 : Nat) : ℝ) := by rw [hcast]; exact Real.mul_self_sqrt (by positivity)
    have l1 : (r : ℝ) < s := by
      have : ((r * r : Nat) : ℝ) < s * s := by rw [hss]; exact_mod_cast lt_of_le_of_ne a1 hex
      push_cast at this; nlinarith
    have l2 : s < r + 1 := by
      have : s * s < (((r + 1) * (r + 1) : Nat) : ℝ) := by rw [hss]; exact_mod_cast a2
      push_cast at this; nlinarith
    have hr : 2 ^ 74 ≤ r := by
      by_contra hc
      have h1 : r + 1 ≤ 2 ^ 74 := by omega
      have h2 : (r + 1) * (r + 1) ≤ 2 ^ 74 * 2 ^ 74 := Nat.mul_le_mul h1 h1
      have h3 : (2 : Nat) ^ 74 * 2 ^ 74 ≤ m * 2 ^ 149 := by
        rw [← pow_add]
        calc (2 : Nat) ^ (74 + 74) ≤ 1 * 2 ^ 149 := by rw [Nat.one_mul]; exact Nat.pow_le_pow_right (by norm_num) (by norm_num)
          _ ≤ m * 2 ^ 149 := Nat.mul_le_mul_right _ hm
      omega
    simp only [pack, Bool.false_eq_true, if_false, roundBits]
    have hq : (2 * r + 1) / 2 = r := by omega
    rw [hq]
    set j := Nat.log2 r - 23 with hj
    have hlog : 74 ≤ Nat.log2 r := by rw [Nat.le_log2 (by omega)]; exact hr
    have hj1 : 1 ≤ j := by omega
    obtain ⟨j', hj'⟩ : ∃ j', j = j' + 1 := ⟨j - 1, by omega⟩
    obtain ⟨s1, s2, -⟩ := divEven_spec (2 * r + 1) (2 * 2 ^ j) (by positivity)
    set e := divEven (2 * r + 1) (2 * 2 ^ j)
    -- both bounds are even numbers, so that they hold of r and of r + 1
    have g1 : 2 * (e * (2 * 2 ^ j)) = 8 * (e * 2 ^ j') := by rw [hj', pow_succ]; ring
    have g2 : 2 * e * 2 ^ j = 4 * (e * 2 ^ j') := by rw [hj', pow_succ]; ring
    have g3 : 2 ^ j = 2 * 2 ^ j' := by rw [hj', pow_succ]; ring
    have b1 : 2 * e * 2 ^ j ≤ 2 * r + 2 ^ j := by omega
    have b2 : 2 * (r + 1) ≤ 2 * e * 2 ^ j + 2 ^ j := by omega
    have b1' : 2 * ((e : ℝ) * 2 ^ j) ≤ 2 * r + 2 ^ j := by
      have : ((2 * e * 2 ^ j : Nat) : ℝ) ≤ ((2 * r + 2 ^ j : Nat) : ℝ) := by exact_mod_cast b1
      push_cast at this; linarith
    have b2' : 2 * ((r : ℝ) + 1) ≤ 2 * (e * 2 ^ j) + 2 ^ j := by
      have : ((2 * (r + 1) : Nat) : ℝ) ≤ ((2 * e * 2 ^ j + 2 ^ j : Nat) : ℝ) := by exact_mod_cast b2
      push_cast at this; linarith
    apply roundsTo_of_nearest (e := e) (j := j) hs0
    · linarith
    · linarith
    · rintro (h | h) <;> linarith
    · intro _
      have h1 : 2 ^ (23 + j) ≤ r := by
        have := Nat.log2_self_le (n := r) (by omega)
        rwa [show Nat.log2 r = 23 + j by omega] at this
      have : (2 : ℝ) ^ (23 + j) ≤ r := by exact_mod_cast h1
      linarith
    · have h1 : r < 2 ^ (24 + j) :=
        Nat.lt_of_lt_of_le Nat.lt_log2_self (Nat.pow_le_pow_right (by norm_num) (by omega))
      have : (r : ℝ) + 1 ≤ 2 ^ (24 + j) := by exact_mod_cast h1
      linarith

/-! ## Order -/

theorem fin_flags {x : Sc} (h : isFinite x = true) : isNan x = false ∧ isInf x = false := by
  have : expField x ≠ 255 := by simpa [isFinite] using h
  simp [isNan, isInf, this]

theorem fix_natAbs (x : Sc) : (fix x).natAbs = mag x := by unfold fix; split <;> simp

/-- The bits below the sign are the two fields. -/
theorem toNat_mod (x : Sc) : x.toNat % 2 ^ 31 = expField x * 2 ^ 23 + fracField x := by
  have := x.isLt
  simp only [expField, fracField]; omega

theorem isZero_iff {x : Sc} : isZero x = true ↔ mag x = 0 := by
  simp only [isZero, beq_iff_eq, toNat_mod, mag]
  split
  · rename_i h; rw [h]; omega
  · constructor
    · intro h; omega
    · intro h; have : 0 < (2 ^ 23 + fracField x) * 2 ^ (expField x - 1) := by positivity
      omega

/-- The bits below the sign order the magnitudes. -/
theorem key_lt_mag {a b : Sc} : a.toNat % 2 ^ 31 < b.toNat % 2 ^ 31 → mag a < mag b := by
  have hfa : fracField a < 2 ^ 23 := Nat.mod_lt _ (by norm_num)
  have hfb : fracField b < 2 ^ 23 := Nat.mod_lt _ (by norm_num)
  rw [toNat_mod, toNat_mod]; intro h
  unfold mag
  have hle : expField a ≤ expField b := by omega
  split
  · split
    · omega
    · calc fracField a < (2 ^ 23 + fracField b) * 1 := by omega
        _ ≤ _ := Nat.mul_le_mul_left _ Nat.one_le_two_pow
  · split
    · omega
    · rcases hle.eq_or_lt with heq | hlt
      · rw [heq]; apply Nat.mul_lt_mul_of_pos_right _ (by positivity); omega
      · calc (2 ^ 23 + fracField a) * 2 ^ (expField a - 1) < 2 ^ 24 * 2 ^ (expField a - 1) := by
              apply Nat.mul_lt_mul_of_pos_right _ (by positivity); omega
          _ = 2 ^ 23 * 2 ^ (expField a - 1 + 1) := by rw [pow_succ]; ring
          _ ≤ (2 ^ 23 + fracField b) * 2 ^ (expField b - 1) :=
              Nat.mul_le_mul (by omega) (Nat.pow_le_pow_right (by norm_num) (by omega))

theorem key_le_mag {a b : Sc} (h : a.toNat % 2 ^ 31 ≤ b.toNat % 2 ^ 31) : mag a ≤ mag b := by
  rcases h.eq_or_lt with h | h
  · have hfa : fracField a < 2 ^ 23 := Nat.mod_lt _ (by norm_num)
    have hfb : fracField b < 2 ^ 23 := Nat.mod_lt _ (by norm_num)
    rw [toNat_mod, toNat_mod] at h
    have he : expField a = expField b := by omega
    have hf : fracField a = fracField b := by omega
    unfold mag; rw [he, hf]
  · exact (key_lt_mag h).le

/-- The order of the encodings is that of the exact values (R20). -/
theorem orderKey_lt (x y : Sc) : orderKey x < orderKey y ↔ fix x < fix y := by
  have k1 := @key_le_mag x y
  have k2 := @key_le_mag y x
  have k3 := @key_lt_mag x y
  have k4 := @key_lt_mag y x
  have k5 := @isZero_iff x
  have k6 := @isZero_iff y
  simp only [isZero, beq_iff_eq] at k5 k6
  unfold orderKey fix
  cases isNeg x <;> cases isNeg y <;> simp only [Bool.false_eq_true, if_false, if_true] <;> omega

/-- `NUM`'s comparison of finite scalars (R20). -/
theorem lt_fix {x y : Sc} (hx : isFinite x = true) (hy : isFinite y = true) : lt x y = true ↔ fix x < fix y := by
  rw [lt_iff (fin_flags hx).1 (fin_flags hy).1, orderKey_lt]

end Bin32
end Sys2Proof
end

