-- ==== Sys2Proof/Laws/Encoding.lean ====
section
/-! SUPPORT. The fields of a built header, the payload of complex samples both ways, and command lengths. -/

namespace Sys2Proof

/-! ## Fields of a header (R112) -/

/-- A header as a number. -/
theorem header_toNat (o : BitVec 8) (u : BitVec 4) (t : Bool) (a : BitVec 16) :
    (header o u t a).toNat = o.toNat * 2 ^ 24 + u.toNat * 2 ^ 20 + t.toNat * 2 ^ 16 + a.toNat := by
  have h : (header o u t a).toNat
      = ((((o ++ u) ++ (0 : BitVec 3)) ++ BitVec.ofBool t) ++ a : BitVec (8 + 4 + 3 + 1 + 16)).toNat := rfl
  rw [h]
  have hu := u.isLt; have ha := a.isLt
  have ht : (BitVec.ofBool t).toNat < 2 ^ 1 := (BitVec.ofBool t).isLt
  have h0 : (0 : BitVec 3).toNat < 2 ^ 3 := (0 : BitVec 3).isLt
  simp only [BitVec.toNat_append]
  rw [← Nat.shiftLeft_add_eq_or_of_lt ha, ← Nat.shiftLeft_add_eq_or_of_lt ht, ← Nat.shiftLeft_add_eq_or_of_lt h0,
    ← Nat.shiftLeft_add_eq_or_of_lt hu]
  have hz : (0 : BitVec 3).toNat = 0 := rfl
  simp only [Nat.shiftLeft_eq, BitVec.toNat_ofBool, hz]
  omega

@[simp] theorem hdrOpc_header (o : BitVec 8) (u : BitVec 4) (t : Bool) (a : BitVec 16) :
    hdrOpc (header o u t a) = o := by
  apply BitVec.eq_of_toNat_eq
  have := header_toNat o u t a; have := u.isLt; have := a.isLt; have := o.isLt
  have : t.toNat ≤ 1 := Bool.toNat_le t
  simp only [hdrOpc, BitVec.extractLsb'_toNat, Nat.shiftRight_eq_div_pow]; omega

@[simp] theorem hdrUnit_header (o : BitVec 8) (u : BitVec 4) (t : Bool) (a : BitVec 16) :
    hdrUnit (header o u t a) = u := by
  apply BitVec.eq_of_toNat_eq
  have := header_toNat o u t a; have := u.isLt; have := a.isLt; have := o.isLt
  have : t.toNat ≤ 1 := Bool.toNat_le t
  simp only [hdrUnit, BitVec.extractLsb'_toNat, Nat.shiftRight_eq_div_pow]; omega

@[simp] theorem hdrTx_header (o : BitVec 8) (u : BitVec 4) (t : Bool) (a : BitVec 16) :
    hdrTx (header o u t a) = t := by
  have h := header_toNat o u t a; have := u.isLt; have := a.isLt; have := o.isLt
  have : t.toNat ≤ 1 := Bool.toNat_le t
  unfold hdrTx BitVec.getLsbD
  rw [Nat.testBit_eq_decide_div_mod_eq]
  cases t <;> simp only [Bool.toNat_false, Bool.toNat_true] at * <;> simp only [decide_eq_false_iff_not, decide_eq_true_eq]
    <;> omega

@[simp] theorem hdrArg_header (o : BitVec 8) (u : BitVec 4) (t : Bool) (a : BitVec 16) :
    hdrArg (header o u t a) = a := by
  apply BitVec.eq_of_toNat_eq
  have := header_toNat o u t a; have := u.isLt; have := a.isLt; have := o.isLt
  have : t.toNat ≤ 1 := Bool.toNat_le t
  simp only [hdrArg, BitVec.extractLsb'_toNat, Nat.shiftRight_eq_div_pow]; omega

@[simp] theorem hdrMask_header (o : BitVec 8) (u : BitVec 4) (t : Bool) (m : BitVec 2) :
    hdrMask (header o u t (m.setWidth 16)) = m := by
  apply BitVec.eq_of_toNat_eq
  have h := header_toNat o u t (m.setWidth 16); have := u.isLt; have := m.isLt; have := o.isLt
  have : t.toNat ≤ 1 := Bool.toNat_le t
  simp only [BitVec.toNat_setWidth] at h
  simp only [hdrMask, BitVec.extractLsb'_toNat, Nat.shiftRight_eq_div_pow]; omega

/-- A header bit by bit (R112). -/
theorem header_getLsbD (o : BitVec 8) (u : BitVec 4) (t : Bool) (a : BitVec 16) (i : Nat) :
    (header o u t a).getLsbD i = if i < 16 then a.getLsbD i else if i = 16 then t else if i < 20 then false
      else if i < 24 then u.getLsbD (i - 20) else o.getLsbD (i - 24) := by
  have h : (header o u t a).getLsbD i
      = ((((o ++ u) ++ (0 : BitVec 3)) ++ BitVec.ofBool t) ++ a : BitVec (8 + 4 + 3 + 1 + 16)).getLsbD i := rfl
  rw [h]
  simp only [BitVec.getLsbD_append]
  by_cases h1 : i < 16
  · simp [h1]
  · by_cases h2 : i = 16
    · subst h2; simp
    · have : ¬ (i - 16 < 1) := by omega
      by_cases h3 : i < 20
      · have : i - 16 - 1 < 3 := by omega
        simp [*]
      · have : ¬ (i - 16 - 1 < 3) := by omega
        by_cases h4 : i < 24
        · have : i - 16 - 1 - 3 < 4 := by omega
          have e : i - 16 - 1 - 3 = i - 20 := by omega
          simp only [e] at *
          simp [*]
        · have : ¬ (i - 16 - 1 - 3 < 4) := by omega
          have e : i - 16 - 1 - 3 - 4 = i - 24 := by omega
          simp [*]

/-- The word whose high byte is `o` and whose other bits are `x`, as a number. -/
theorem opcAppend_toNat (o : BitVec 8) (x : BitVec 24) : (o ++ x : BitVec 32).toNat = o.toNat * 2 ^ 24 + x.toNat := by
  have h := BitVec.toNat_append (x := o) (y := x)
  rw [← Nat.shiftLeft_add_eq_or_of_lt x.isLt, Nat.shiftLeft_eq] at h
  exact h

theorem hdrOpc_append (o : BitVec 8) (x : BitVec 24) : hdrOpc (o ++ x : BitVec 32) = o := by
  apply BitVec.eq_of_toNat_eq
  have h := opcAppend_toNat o x; have := x.isLt; have := o.isLt
  simp only [hdrOpc, BitVec.extractLsb'_toNat, Nat.shiftRight_eq_div_pow]; omega

/-! ## Payloads of complex samples (R84, R120) -/

@[simp] theorem sampleWords_length (ss : List (Word × Word)) : (sampleWords ss).length = 2 * ss.length := by
  induction ss with
  | nil => rfl
  | cons s ss ih => simp only [sampleWords, List.flatMap_cons, List.length_append, List.length_cons,
      List.length_nil] at *; omega

@[simp] theorem samplePairs_sampleWords (ss : List (Word × Word)) : samplePairs (sampleWords ss) = ss := by
  induction ss with
  | nil => rfl
  | cons s ss ih => exact congrArg (s :: ·) ih

theorem sampleWords_samplePairs (ws : List Word) (h : ws.length % 2 = 0) : sampleWords (samplePairs ws) = ws := by
  match ws, h with
  | [], _ => rfl
  | [_], h => simp at h
  | i :: q :: rest, h =>
    have := sampleWords_samplePairs rest (by simp only [List.length_cons] at h; omega)
    simpa only [samplePairs, sampleWords, List.flatMap_cons, List.cons_append, List.nil_append, List.cons.injEq, true_and]
      using this

theorem samplePairs_length (ws : List Word) : (samplePairs ws).length = ws.length / 2 := by
  match ws with
  | [] => rfl
  | [_] => simp only [samplePairs, List.length_nil, List.length_cons]
  | i :: q :: rest => have := samplePairs_length rest; simp only [samplePairs, List.length_cons]; omega

/-! ## Lengths (R111, R113) -/

theorem commandLength_pos (h : Word) : 1 ≤ commandLength h := by
  have : ∀ r ∈ opcodeMap, 1 ≤ r.fixedWords := by decide
  unfold commandLength opcodeRow
  split
  · exact le_refl 1
  · rename_i r hr
    have := this r (List.mem_of_find?_eq_some hr); omega

/-! ## Decoding (R116) -/

/-- Words whose header belongs to a row, with reserved bits clear and the payload complete, decode to what the row's operands
assemble to, whatever follows. -/
theorem decode_of_row {h : Word} {r : OpRow} {payload more : List Word} {i : Instr}
    (hr : opcodeRow h = some r) (hm : h &&& r.mask = r.matchBits)
    (hl : payload.length + 1 = r.fixedWords + r.perSample * (hdrArg h).toNat) (ha : assemble h payload = some i) :
    decode (h :: payload ++ more) = .ok i ∧ commandLength h = payload.length + 1 := by
  have hc : commandLength h = payload.length + 1 := by simp only [commandLength, hr]; omega
  refine ⟨?_, hc⟩
  simp only [decode, List.cons_append, hc, hr]
  have : ¬ ((h :: (payload ++ more)).length < payload.length + 1) := by simp
  simp [hm, ha]

end Sys2Proof
end

