-- ==== Sys2Proof/Laws/Frame.lean ====
section
/-! SUPPORT. What a whole frame (R190) changes: the parts `process_samples` writes, and then only output state and events, in
the order of R202. -/

namespace Sys2Proof
namespace Machine

/-- The parts of the state that the outputs of a frame may change, with the events they emit. -/
structure Outputs where
  specLpf : List Sc
  specLpfValid : Bool
  lastSpecMs : BitVec 64
  lastWfMs : BitVec 64
  lastAnfMs : BitVec 64
  minMaxDelay : BitVec 8
  gridMin : Sc
  gridMax : Sc
  meterDb : Sc
  anfHist : List Word
  anfPublished : Word
  events : List Event

/-- The state with its output parts replaced and the events appended to port 0's stream. -/
def State.withOutputs (s : State) (o : Outputs) : State :=
  { s with
    specLpf := o.specLpf, specLpfValid := o.specLpfValid
    lastSpecMs := o.lastSpecMs, lastWfMs := o.lastWfMs, lastAnfMs := o.lastAnfMs
    minMaxDelay := o.minMaxDelay, gridMin := o.gridMin, gridMax := o.gridMax, meterDb := o.meterDb
    anfHist := o.anfHist, anfPublished := o.anfPublished
    outIq := s.outIq ++ o.events }

/-- The output parts of a state, with no event. -/
def State.outputs (s : State) : Outputs :=
  ⟨s.specLpf, s.specLpfValid, s.lastSpecMs, s.lastWfMs, s.lastAnfMs, s.minMaxDelay, s.gridMin, s.gridMax, s.meterDb,
    s.anfHist, s.anfPublished, []⟩

@[simp] theorem State.withOutputs_outputs (s : State) : s.withOutputs s.outputs = s := by
  simp [State.withOutputs, State.outputs]

/-- `update_spectrum` in terms of output parts. -/
theorem State.updateSpectrum_frame (s : State) (tx : Bool) :
    ∃ (lpf : List Sc) (v : Bool) (l : BitVec 64) (es : List Event),
      s.updateSpectrum tx
        = s.withOutputs { s.outputs with specLpf := lpf, specLpfValid := v, lastSpecMs := l, events := es }
      ∧ (es.map Event.kind).Sublist [.spectrumData] ∧ (∀ e ∈ es, e.tx = tx)
      ∧ (lpf = s.specLpf
          ∨ lpf = s.filteredSpectrum ((s.spectrum.getPsd s.par).map fun x => Bin32.add x s.par.feed.specCalDb)) := by
  rcases s.updateSpectrum_cases tx with ⟨_, h⟩ | ⟨_, h⟩
  · exact ⟨s.specLpf, s.specLpfValid, s.lastSpecMs, [], by rw [h]; exact s.withOutputs_outputs.symm, by simp, by simp,
      .inl rfl⟩
  · exact ⟨_, true, s.timeMs, _, h, by simp, by simp, .inr rfl⟩

/-- `update_waterfall` in terms of output parts. -/
theorem State.updateWaterfall_frame (s : State) (tx : Bool) :
    ∃ (l : BitVec 64) (hold : BitVec 8) (gmin gmax md : Sc) (es : List Event),
      s.updateWaterfall tx
        = s.withOutputs { s.outputs with
            lastWfMs := l, minMaxDelay := hold, gridMin := gmin, gridMax := gmax, meterDb := md, events := es }
      ∧ (es.map Event.kind).Sublist [.waterfallData, .meterUpdate, .specMin, .specMax, .wfMin, .wfMax]
      ∧ ((gmin = s.gridMin ∧ gmax = s.gridMax) ∨ gmax = Bin32.add gmin s.par.feed.headroomDb)
      ∧ (tx = true → gmin = s.gridMin ∧ gmax = s.gridMax ∧ md = s.meterDb
          ∧ (∀ e ∈ es, e.tx = true ∧ e.kind = .waterfallData)
          ∧ hold = if es = [] then s.minMaxDelay else s.par.feed.minmaxDelayTx) := by
  rcases s.updateWaterfall_cases tx with ⟨_, h⟩ | ⟨_, h⟩
  · exact ⟨s.lastWfMs, s.minMaxDelay, s.gridMin, s.gridMax, s.meterDb, [], by rw [h]; exact s.withOutputs_outputs.symm,
      by simp, .inl ⟨rfl, rfl⟩, fun _ => ⟨rfl, rfl, rfl, by simp, by simp⟩⟩
  · cases tx
    · obtain ⟨md, gmin, gmax, hold, es, hs, hk, _, hg, _⟩ := State.afterRxWaterfall_frame
        { s with
          lastWfMs := s.timeMs
          outIq := s.outIq ++ [(⟨.waterfallData, 0, false,
            (s.waterfall.getPsd s.par).map fun x => Bin32.add x s.par.feed.wfCalDb⟩ : Event)] }
        ((s.waterfall.getPsd s.par).map fun x => Bin32.add x s.par.feed.wfCalDb)
      refine ⟨s.timeMs, hold, gmin, gmax, md, ⟨.waterfallData, 0, false,
        (s.waterfall.getPsd s.par).map fun x => Bin32.add x s.par.feed.wfCalDb⟩ :: es, ?_, ?_, hg, by simp⟩
      · rw [h]
        simp only [Bool.false_eq_true, if_false]
        rw [hs, List.append_assoc]
        rfl
      · exact hk.cons_cons _
    · exact ⟨s.timeMs, s.par.feed.minmaxDelayTx, s.gridMin, s.gridMax, s.meterDb, _, h, by simp, .inl ⟨rfl, rfl⟩,
        fun _ => ⟨rfl, rfl, rfl, by simp, by simp⟩⟩

/-- `anf_update` in terms of output parts. -/
theorem State.anfUpdate_frame (s : State) :
    ∃ (l : BitVec 64) (hist : List Word) (pub : Word) (es : List Event),
      s.anfUpdate = s.withOutputs { s.outputs with lastAnfMs := l, anfHist := hist, anfPublished := pub, events := es }
      ∧ (es.map Event.kind).Sublist [.anfFreq]
      ∧ (pub = s.anfPublished
          ∨ ∃ f, hist = Bin32.push s.anfHist f ∧ (∀ x ∈ hist, x = hist.getLastD 0) ∧ pub = anfPublish s.par f)
      ∧ hist.length = s.anfHist.length := by
  rcases s.anfUpdate_cases with ⟨_, h⟩ | ⟨_, h⟩
  · exact ⟨s.lastAnfMs, s.anfHist, s.anfPublished, [], by rw [h]; exact s.withOutputs_outputs.symm, by simp, .inl rfl, rfl⟩
  · rw [h]
    generalize anfValue s.par s.regs (s.anf.getPsd s.par) = f
    rcases State.anfDecide_cases { s with lastAnfMs := s.timeMs, anfHist := Bin32.push s.anfHist f } f with
      hd | ⟨ha, _, hd⟩
    · exact ⟨s.timeMs, Bin32.push s.anfHist f, s.anfPublished, [],
        by rw [hd]; simp [State.withOutputs, State.outputs], by simp, .inl rfl, by simp⟩
    · exact ⟨s.timeMs, Bin32.push s.anfHist f, anfPublish s.par f, _, hd, by simp,
        .inr ⟨f, rfl, ha, rfl⟩, by simp⟩

/-! ## The whole frame -/

/-- What the outputs of a settled frame do. -/
theorem State.produceOutputs_frame (s : State) (tx : Bool) :
    ∃ o : Outputs, s.produceOutputs tx = s.withOutputs o
      ∧ (o.events.map Event.kind).Sublist
          [.spectrumData, .waterfallData, .meterUpdate, .specMin, .specMax, .wfMin, .wfMax, .anfFreq]
      ∧ (o.specLpf = s.specLpf
          ∨ o.specLpf = s.filteredSpectrum ((s.spectrum.getPsd s.par).map fun x => Bin32.add x s.par.feed.specCalDb))
      ∧ ((o.gridMin = s.gridMin ∧ o.gridMax = s.gridMax) ∨ o.gridMax = Bin32.add o.gridMin s.par.feed.headroomDb)
      ∧ (o.anfPublished = s.anfPublished
          ∨ ∃ f, o.anfHist = Bin32.push s.anfHist f ∧ (∀ x ∈ o.anfHist, x = o.anfHist.getLastD 0)
              ∧ o.anfPublished = anfPublish s.par f)
      ∧ o.anfHist.length = s.anfHist.length := by
  obtain ⟨lpf, v, l1, es1, h1, k1, -, p1⟩ := s.updateSpectrum_frame tx
  obtain ⟨l2, hold, gmin, gmax, md, es2, h2, k2, g2, -⟩ := (s.updateSpectrum tx).updateWaterfall_frame tx
  simp only [State.produceOutputs]
  split
  · obtain ⟨l3, hist, pub, es3, h3, k3, p3, n3⟩ := ((s.updateSpectrum tx).updateWaterfall tx).anfUpdate_frame
    refine ⟨⟨lpf, v, l1, l2, l3, hold, gmin, gmax, md, hist, pub, es1 ++ (es2 ++ es3)⟩, ?_, ?_, p1, ?_, ?_, ?_⟩
    · rw [h3, h2, h1]; simp [State.withOutputs, State.outputs]
    · simp only [List.map_append]; exact k1.append (k2.append k3)
    · rw [h1] at g2; exact g2
    · rw [h2, h1] at p3; exact p3
    · rw [h2, h1] at n3; exact n3
  · refine ⟨⟨lpf, v, l1, l2, s.lastAnfMs, hold, gmin, gmax, md, s.anfHist, s.anfPublished, es1 ++ es2⟩, ?_, ?_, p1, ?_,
      .inl rfl, rfl⟩
    · rw [h2, h1]; simp [State.withOutputs, State.outputs]
    · simp only [List.map_append]
      exact (k1.append k2).trans (by simp)
    · rw [h1] at g2; exact g2

/-- What a frame changes: the parts `process_samples` writes, the settle counter, and the output parts. -/
theorem State.frame_frame (s : State) (tx : Bool) (buf : List Cx) :
    ∃ (d : BitVec 16) (o : Outputs),
      s.frame tx buf = { (s.processSamples buf tx).withOutputs o with psdDelay := d }
      ∧ d.toNat = s.psdDelay.toNat - 1
      ∧ (o.events.map Event.kind).Sublist
          [.spectrumData, .waterfallData, .meterUpdate, .specMin, .specMax, .wfMin, .wfMax, .anfFreq]
      ∧ (o.specLpf = s.specLpf
          ∨ o.specLpf = (s.processSamples buf tx).filteredSpectrum
              (((s.processSamples buf tx).spectrum.getPsd s.par).map fun x => Bin32.add x s.par.feed.specCalDb))
      ∧ ((o.gridMin = s.gridMin ∧ o.gridMax = s.gridMax) ∨ o.gridMax = Bin32.add o.gridMin s.par.feed.headroomDb)
      ∧ (o.anfPublished = s.anfPublished
          ∨ ∃ f, o.anfHist = Bin32.push s.anfHist f ∧ (∀ x ∈ o.anfHist, x = o.anfHist.getLastD 0)
              ∧ o.anfPublished = anfPublish s.par f)
      ∧ o.anfHist.length = s.anfHist.length := by
  obtain ⟨hc, hd⟩ := (s.processSamples buf tx).countSettle_eq
  unfold State.frame
  simp only []
  split
  · obtain ⟨o, ho, hk, hl, hg, hp, hn⟩ := ((s.processSamples buf tx).countSettle).produceOutputs_frame tx
    refine ⟨(s.processSamples buf tx).countSettle.psdDelay, o, ?_, hd, hk, ?_, ?_, ?_, ?_⟩
    · rw [ho]; generalize (s.processSamples buf tx).countSettle.psdDelay = d at hc ⊢
      rw [hc]; rfl
    · rw [hc] at hl; exact hl
    · rw [hc] at hg; exact hg
    · rw [hc] at hp; exact hp
    · rw [hc] at hn; exact hn
  · refine ⟨(s.processSamples buf tx).countSettle.psdDelay, (s.processSamples buf tx).outputs, ?_, hd,
      by simp [State.outputs], .inl rfl, .inl ⟨rfl, rfl⟩, .inl rfl, rfl⟩
    rw [State.withOutputs_outputs]; exact hc

end Machine
end Sys2Proof
end

