-- ==== Sys2Proof/Laws/Params.lean ====
section
/-! SUPPORT. What the validity of a parameter set and the legality of a zoom factor give, and sizes computed from the parameters. -/

namespace Sys2Proof

/-- What the statements need of a valid parameter set (R9). -/
theorem Params.valid_parts {p : Params} (h : p.valid = true) :
   p.spg.radioChunk % p.spg.anfDecim = 0 ∧ 1 ≤ p.spg.radioChunk ∧ p.spg.nSpec ≤ p.spg.bSpec ∧ p.spg.nWf ≤ p.spg.bWf ∧ p.nAnf ≤ p.bAnf ∧ 1 ≤ p.spg.zoomMax
   ∧ p.toneLegal p.cw.cwToneInit.toNat = true ∧ 1 ≤ p.cw.dCw ∧ 2 ≤ p.cw.fftCw ∧ 1 ≤ p.cw.cwRmsLen ∧ 1 ≤ p.cw.cwRmsHop ∧ 1 ≤ p.cwDlyLen
   ∧ Bin32.lt 0 p.cw.cwGist0 = true ∧ Bin32.inUnit p.cw.cwPeakBeta0 = true ∧ Bin32.inUnit p.cw.cwNoiseBeta0 = true ∧ Bin32.inUnit p.feed.specBeta0 = true
   ∧ Bin32.inUnit p.spg.alpha0Spec = true ∧ Bin32.inUnit p.spg.alpha0Wf = true ∧ Bin32.inUnit p.spg.alpha0Anf = true := by
  simp only [Params.valid, Bool.and_eq_true, decide_eq_true_eq, beq_iff_eq] at h
  refine ⟨?_, ?_, ?_, ?_, ?_, ?_, ?_, ?_, ?_, ?_, ?_, ?_, ?_, ?_, ?_, ?_, ?_, ?_, ?_⟩ <;> tauto

/-- PW of R271 as a quotient of naturals. -/
theorem Params.peakWidth_eq (p : Params) :
    p.peakWidth = (2 * (p.cw.cwWpm * p.cw.cwWpmK * p.cw.fftCw * p.cw.dCw) + p.cw.fsAudio) / (2 * p.cw.fsAudio) := by
  unfold Params.peakWidth Bin32.roundDiv
  rw [if_neg (by omega)]; rfl

/-- A window ROM has the length asked for. -/
@[simp] theorem Rom.window_length (beta : Sc) (kind : WindowKind) (c n : Nat) : (Rom.window beta kind c n).length = c := by
  unfold Rom.window
  split
  · simp [Rom.normalise]
  · simp [Rom.normalise]
  · rename_i roms
    cases hq : tableRom roms c with
    | none => simp
    | some w => simpa using List.find?_some hq

/-- A legal zoom factor divides the frame into unit 0's chunks (R177). -/
theorem Params.zoomLegal_parts {p : Params} {z : Nat} (h : p.zoomLegal z = true) : 1 ≤ z ∧ p.spg.radioChunk = p.cSpec z * z := by
  simp only [Params.zoomLegal, Bool.and_eq_true, decide_eq_true_eq, beq_iff_eq] at h
  exact ⟨h.1.1, (Nat.div_mul_cancel (Nat.dvd_of_mod_eq_zero h.2)).symm⟩

end Sys2Proof
end

