-- ==== Sys2Proof/Laws/PerInstr.lean ====
section
/-! SUPPORT. Statements about every command as syntax, one lemma per constructor. -/

namespace Sys2Proof
namespace Laws
namespace EncodedLength

/-- How many words a command takes (R113), counted on the command and not on its header. -/
def words : Instr → Nat
  | .nop => 1
  | .cfgWr _ _ => 2
  | .cfgRd _ => 1
  | .dspRst _ => 1
  | .zoom _ => 1
  | .cwTone _ => 1
  | .spgWrite _ chunk => 1 + 2 * chunk.length
  | .spgGetpsd _ => 1
  | .spgSetalpha _ _ => 2
  | .spgClear _ => 1
  | .spgReset _ => 1
  | .dspSamples _ buf => 1 + 2 * buf.length
  | .audSamples samples => 1 + samples.length

/-- The encoder writes as many words as the command takes (R113, R120), and when the command is well formed its header
calls for exactly that many. -/
def Statement (i : Instr) : Prop :=
  (encode i).length = words i
    ∧ (i.wellFormed = true → commandLength ((encode i).headD 0) = words i)

theorem length_eq {opc : BitVec 8} {unit : BitVec 4} {tx : Bool} {arg : BitVec 16} {r : OpRow}
    (hr : (opcodeMap.find? fun r => r.opc == opc) = some r) :
    commandLength (header opc unit tx arg) = r.fixedWords + r.perSample * arg.toNat := by
  have : opcodeRow (header opc unit tx arg) = some r := by rw [opcodeRow, hdrOpc_header]; exact hr
  simp only [commandLength, this, hdrArg_header]

theorem length_fixed {k : Fin 13} {opc : BitVec 8} {unit : BitVec 4} {tx : Bool} {arg : BitVec 16}
    (hr : (opcodeMap.find? fun r => r.opc == opc) = some (opcodeMap[k.val]'k.isLt))
    (h0 : (opcodeMap[k.val]'k.isLt).perSample = 0) :
    commandLength (header opc unit tx arg) = (opcodeMap[k.val]'k.isLt).fixedWords := by
  rw [length_eq hr, h0, Nat.zero_mul, Nat.add_zero]

theorem count_toNat {n : Nat} (h : n ≤ maxSamples) : (BitVec.ofNat 16 n).toNat = n := by
  rw [BitVec.toNat_ofNat]; exact Nat.mod_eq_of_lt (by simp only [maxSamples] at h; omega)

theorem nop : Statement .nop := ⟨rfl, fun _ => length_fixed (k := 0) rfl rfl⟩
theorem cfgWr (r : BitVec 16) (v : Word) : Statement (.cfgWr r v) := ⟨rfl, fun _ => length_fixed (k := 1) rfl rfl⟩
theorem cfgRd (r : BitVec 16) : Statement (.cfgRd r) := ⟨rfl, fun _ => length_fixed (k := 2) rfl rfl⟩
theorem dspRst (m : BitVec 2) : Statement (.dspRst m) := ⟨rfl, fun _ => length_fixed (k := 3) rfl rfl⟩
theorem zoom (z : BitVec 16) : Statement (.zoom z) := ⟨rfl, fun _ => length_fixed (k := 4) rfl rfl⟩
theorem cwTone (f : BitVec 16) : Statement (.cwTone f) := ⟨rfl, fun _ => length_fixed (k := 5) rfl rfl⟩
theorem spgGetpsd (u : BitVec 4) : Statement (.spgGetpsd u) := ⟨rfl, fun _ => length_fixed (k := 7) rfl rfl⟩
theorem spgSetalpha (u : BitVec 4) (v : Word) : Statement (.spgSetalpha u v) := ⟨rfl, fun _ => length_fixed (k := 8) rfl rfl⟩
theorem spgClear (u : BitVec 4) : Statement (.spgClear u) := ⟨rfl, fun _ => length_fixed (k := 9) rfl rfl⟩
theorem spgReset (u : BitVec 4) : Statement (.spgReset u) := ⟨rfl, fun _ => length_fixed (k := 10) rfl rfl⟩

theorem spgWrite (u : BitVec 4) (chunk : List (Word × Word)) : Statement (.spgWrite u chunk) := by
  refine ⟨by simp [encode, words]; omega, fun h => (length_eq (r := opcodeMap[6]) rfl).trans ?_⟩
  rw [count_toNat (by simpa [Instr.wellFormed] using h)]; rfl

theorem dspSamples (tx : Bool) (buf : List (Word × Word)) : Statement (.dspSamples tx buf) := by
  refine ⟨by simp [encode, words]; omega, fun h => (length_eq (r := opcodeMap[11]) rfl).trans ?_⟩
  rw [count_toNat (by simpa [Instr.wellFormed] using h)]; rfl

theorem audSamples (samples : List Word) : Statement (.audSamples samples) := by
  refine ⟨by simp [encode, words]; omega, fun h => (length_eq (r := opcodeMap[12]) rfl).trans ?_⟩
  rw [count_toNat (by simpa [Instr.wellFormed] using h)]
  exact congrArg (1 + ·) (Nat.one_mul samples.length)

end EncodedLength
end Laws
end Sys2Proof
end

