-- ==== Sys2Proof/Laws/Registers.lean ====
section
/-! SUPPORT. The assembled registers as numbers (R36, R38), and what the register file reads after a write (R302). -/

namespace Sys2Proof
namespace Machine

/-- SPG_CTL as a number: CHUNK in the high half, ACC in bit 0 (R38). -/
theorem SpgUnit.ctlWord_eq (u : SpgUnit) :
    u.ctlWord = BitVec.ofNat 32 (2 ^ 16 * (u.c % 2 ^ 16) + (if u.acc then 1 else 0)) := by
  apply BitVec.eq_of_toNat_eq
  have h1 : u.ctlWord.toNat
      = ((BitVec.ofNat 16 u.c ++ (0 : BitVec 15)) ++ BitVec.ofBool u.acc : BitVec (16 + 15 + 1)).toNat := rfl
  rw [h1, BitVec.toNat_append, BitVec.toNat_append, ← Nat.shiftLeft_add_eq_or_of_lt (BitVec.ofBool u.acc).isLt,
    ← Nat.shiftLeft_add_eq_or_of_lt (0 : BitVec 15).isLt]
  have h0 : (0 : BitVec 15).toNat = 0 := rfl
  simp only [Nat.shiftLeft_eq, BitVec.toNat_ofBool, BitVec.toNat_ofNat, h0]
  cases u.acc <;> simp only [Bool.toNat_false, Bool.toNat_true, Bool.false_eq_true, if_false, if_true] <;> omega

/-- STATUS as a number (R36). -/
theorem State.statusWord_eq (s : State) :
    s.statusWord = BitVec.ofNat 32 ((if s.cw.peakOn then 1 else 0) + (if s.psdDelay = 0 then 2 else 0)
      + (if s.specLpfValid then 4 else 0)) := by
  have hs : s.settled = decide (s.psdDelay = 0) := by simp [State.settled]; rfl
  unfold State.statusWord
  rw [hs]
  by_cases h : s.psdDelay = 0 <;> cases h1 : s.cw.peakOn <;> cases h2 : s.specLpfValid <;> simp only [h] <;> rfl

/-- An index holds a register exactly when it is populated (R35). -/
theorem State.readReg_isSome (s : State) (i : BitVec 16) : (s.readReg i).isSome = populated i := by
  unfold State.readReg
  split <;> rename_i h <;> simp_all [populated]
  omega

theorem populated_of_writable {i : BitVec 16} (h : writable i = true) : populated i = true := by
  revert h; unfold writable
  split <;> rename_i h <;> simp_all [populated]

/-- A write is seen by a read of the same register. -/
theorem CfgRegs.readReg_write_same (s : State) (i : BitVec 16) (w : Word) (h : writable i = true) :
    State.readReg { s with regs := s.regs.write i w } i = some w := by
  revert h; unfold writable
  split <;> rename_i h <;> simp [State.readReg, CfgRegs.write, h]

/-- A write is seen by no read of another register. -/
theorem CfgRegs.readReg_write_other (s : State) (i j : BitVec 16) (w : Word) (hij : j ≠ i) :
    State.readReg { s with regs := s.regs.write i w } j = s.readReg j := by
  have hn : j.toNat ≠ i.toNat := fun h => hij (BitVec.eq_of_toNat_eq h)
  unfold State.readReg
  split <;> rename_i h <;> simp only [h] at hn ⊢ <;> first
    | rfl
    | (unfold CfgRegs.write; split <;> rename_i h' <;> first | rfl | exact absurd h'.symm hn)

end Machine
end Sys2Proof
end

