-- ==== Sys2Proof/Machine/Asm.lean ====
section
/-! DEFINITION. The assembler's operations and pseudo-instructions (30_encoding.md R125, R126), on the abstract syntax of
a line: which port a line goes to, and which commands it stands for. -/

namespace Sys2Proof
namespace Machine

/-- The register names of R35, by index. -/
def regName : List (String × Nat) :=
  [ ("STATUS", 0x00), ("ZOOM", 0x01), ("MODE", 0x02), ("FILTER_LOW", 0x03), ("FILTER_HIGH", 0x04), ("CW_TONE", 0x05),
    ("CW_SNR", 0x06), ("CW_GIST", 0x07), ("CW_PEAK_BETA", 0x08), ("CW_NOISE_BETA", 0x09), ("SPEC_BETA", 0x0A),
    ("PSD_DELAY", 0x0B), ("MINMAX_DELAY", 0x0C), ("GRID_MIN", 0x0D), ("GRID_MAX", 0x0E), ("METER_DB", 0x0F),
    ("PEAK_FILT", 0x10), ("NOISE_FILT", 0x11), ("THR_PULSE", 0x12), ("THR_SILENCE", 0x13), ("ANF_FREQ", 0x14),
    ("ANF_HIST0", 0x15), ("ANF_HIST1", 0x16), ("ANF_HIST2", 0x17), ("CW_PEAK_HZ", 0x18), ("TIME_LO", 0x19),
    ("TIME_HI", 0x1A), ("SPG_ALPHA0", 0x20), ("SPG_GAMMA0", 0x21), ("SPG_NT0", 0x22), ("SPG_CTL0", 0x23),
    ("SPG_ALPHA1", 0x24), ("SPG_GAMMA1", 0x25), ("SPG_NT1", 0x26), ("SPG_CTL1", 0x27), ("SPG_ALPHA2", 0x28),
    ("SPG_GAMMA2", 0x29), ("SPG_NT2", 0x2A), ("SPG_CTL2", 0x2B) ]

/-- The port a line goes to when it names none (R125). -/
def defaultPort : Instr → Port
  | .spgWrite _ _ => .iq
  | .spgGetpsd _ => .iq
  | .spgSetalpha _ _ => .iq
  | .spgClear _ => .iq
  | .spgReset _ => .iq
  | .dspSamples _ _ => .iq
  | .audSamples _ => .aud
  | .nop => .cfg
  | .cfgWr _ _ => .cfg
  | .cfgRd _ => .cfg
  | .dspRst _ => .cfg
  | .zoom _ => .cfg
  | .cwTone _ => .cfg

/-- The pseudo-instructions of R126 that stand for commands. -/
inductive Pseudo where
  /-- `spg.accum u`. -/
  | accum (unit : BitVec 4)
  /-- `dsp.rst all`. -/
  | rstAll
  /-- `mode FLAGS`: the OR of the flags of bits 0 to 5. -/
  | mode (anf cw lsb specAuto wfAuto rec : Bool)
  /-- `filter lo, hi`: two commands, not atomic together. -/
  | filter (lo hi : Int)
deriving DecidableEq, Repr

/-- The commands a pseudo-instruction stands for (R126). -/
def Pseudo.expand : Pseudo → List Instr
  | .accum u => [.spgSetalpha u Bin32.minusOne]
  | .rstAll => [.dspRst 3]
  | .mode anf cw lsb specAuto wfAuto rec =>
    [.cfgWr 0x02
      ((0 : BitVec 26) ++ BitVec.ofBool rec ++ BitVec.ofBool wfAuto ++ BitVec.ofBool specAuto ++ BitVec.ofBool lsb
        ++ BitVec.ofBool cw ++ BitVec.ofBool anf)]
  | .filter lo hi => [.cfgWr 0x03 (BitVec.ofInt 32 lo), .cfgWr 0x04 (BitVec.ofInt 32 hi)]

/-- The turns that send a line's command on a port and then let that port run it (R111, R125). -/
def lineTurns (port : Option Port) (i : Instr) : List Turn :=
  let p := port.getD (defaultPort i)
  (encode i).map (.arrive p) ++ [.port p]

end Machine
end Sys2Proof
end

