-- ==== Sys2Proof/Tests/Slice0.lean ====
section
/-! SUPPORT. Tests of the model, expected values from the spec (95_test_vectors.md, the examples of the rules), and one
witness `test_wit_<Name>` for the hypotheses of each obligation that has some. -/

namespace Sys2Proof
namespace Tests

set_option Elab.async false

open Sys2Proof.Machine

/-! ## Helpers -/

/-- A valid parameter set small enough to compute with: unit 0 and 1 have the geometry TINY of 95_test_vectors.md section 1,
with the ROMs taken as configuration. -/
def tiny : Params where
  spg :=
    { Params.vector.spg with
      radioChunk := 2, fsIq := 400, nWf := 4, bWf := 4, nSpec := 4, bSpec := 4, anfDecim := 2, anfResHz := 50, zoomMax := 2
      windowSpec := .table [[Bin32.half, Bin32.half], [Bin32.half]], windowWf := .table [[Bin32.half, Bin32.half]]
      windowAnf := .table [[Bin32.half]], zoomFirM := 1, anfFirM := 1, zoomFir := .table [[0, 0, Bin32.one, 0, 0]]
      anfFir := .table [[0, 0, Bin32.one, 0, 0]] }
  feed := Params.vector.feed
  cw :=
    { Params.vector.cw with
      dCw := 2, fftCw := 2, cwFirM := 1, cwFir := .table [[0, 0, Bin32.one, 0, 0]], wCw := .table [[Bin32.one, 0]]
      cwRmsLen := 2, cwRmsHop := 1, hilbLen := 3, hilbDelay := 1, hHilb := .table [0, 0, 0] }

/-- The small block after reset. -/
def base : State := State.resetOf tiny

/-- The next state of an outcome. -/
def next? : Host.Outcome State Fault Refusal → Option State
  | .next t => some t
  | _ => none

/-- The fault code of the next state. -/
def code (o : Host.Outcome State Fault Refusal) : Option Nat := (next? o).map (·.faultCode.toNat)

/-- One step in which port `p` is given the turn with `ws` on its stream. -/
def onPort (p : Port) (ws : List Word) (s : State) : Host.Outcome State Fault Refusal :=
  step { s.setStream p ws with agenda := [.port p] }

/-- A frame of two samples (1, 0). -/
def frame2 : List (Word × Word) := [(Bin32.one, 0), (Bin32.one, 0)]

/-- The header words of the events on port 0's stream, and on port 2's. -/
def heads (es : List Event) : List (Option Word) := es.map fun e => e.words.head?

/-! ## Well-formedness: a sample count that no header can carry is refused (R112, R119) -/

theorem test_wf_spgWrite : (Instr.spgWrite 0 (List.replicate 65536 (0, 0))).wellFormed = false := by
  rw [Instr.wellFormed, List.length_replicate]; rfl

theorem test_wf_dspSamples : (Instr.dspSamples true (List.replicate 65536 (0, 0))).wellFormed = false := by
  rw [Instr.wellFormed, List.length_replicate]; rfl

theorem test_wf_audSamples : (Instr.audSamples (List.replicate 65536 0)).wellFormed = false := by
  rw [Instr.wellFormed, List.length_replicate]; rfl

/-! ## Decoding: words of 95_test_vectors.md section 5, one for each command -/

theorem test_decode_nop : decode [0x00000000#32] = .ok .nop := by decide

theorem test_decode_cfgWr :
    decode [0x01000002#32, 0x00000019#32] = .ok (.cfgWr 0x02 0x19)
      ∧ decode [0x01000003#32, 0xFFFFF574#32] = .ok (.cfgWr 0x03 (BitVec.ofInt 32 (-2700))) := by decide

theorem test_decode_cfgRd : decode [0x02000001#32] = .ok (.cfgRd 0x01) := by decide

theorem test_decode_dspRst :
    decode [0x03000001#32] = .ok (.dspRst 1) ∧ decode [0x03000002#32] = .ok (.dspRst 2)
      ∧ decode [0x03000003#32] = .ok (.dspRst 3) ∧ decode [0x03000000#32] = .ok (.dspRst 0) := by decide

theorem test_decode_zoom : decode [0x04000004#32] = .ok (.zoom 4) := by decide

theorem test_decode_cwTone : decode [0x050002BC#32] = .ok (.cwTone 700) := by decide

theorem test_decode_spgWrite :
    decode [0x10000002#32, 0x3F800000#32, 0x00000000#32, 0x3F800000#32, 0x00000000#32] = .ok (.spgWrite 0 frame2) := by
  decide

theorem test_decode_spgGetpsd : decode [0x11100000#32] = .ok (.spgGetpsd 1) := by decide

theorem test_decode_spgSetalpha :
    decode [0x12100000#32, 0x3E800000#32] = .ok (.spgSetalpha 1 0x3E800000)
      ∧ decode [0x12200000#32, 0xBF800000#32] = .ok (.spgSetalpha 2 0xBF800000) := by decide

theorem test_decode_spgClear : decode [0x13200000#32] = .ok (.spgClear 2) := by decide

theorem test_decode_spgReset : decode [0x14000000#32] = .ok (.spgReset 0) := by decide

theorem test_decode_dspSamples :
    decode [0x20000001#32, 7#32, 8#32] = .ok (.dspSamples false [(7, 8)])
      ∧ decode [0x20010001#32, 7#32, 8#32] = .ok (.dspSamples true [(7, 8)]) := by decide

theorem test_decode_audSamples :
    decode [0x21000003#32, 0x00000000#32, 0x000003E8#32, 0x0000FC18#32] = .ok (.audSamples [0, 0x3E8, 0xFC18]) := by
  decide

/-- The decode corner cases of section 5. -/
theorem test_decode_refuses :
    decode [0x00000001#32] = .error .badEncoding ∧ decode [0x06000000#32] = .error .badOpcode
      ∧ decode [0xFFFFFFFF#32] = .error .badOpcode ∧ decode [0x03000004#32] = .error .badEncoding
      ∧ decode [0x11000001#32] = .error .badEncoding ∧ decode [0x21010000#32] = .error .badEncoding
      ∧ commandLength 0x20020200#32 = 1025 ∧ commandLength 0xFFFFFFFF#32 = 1
      ∧ decode [0x20020000#32] = .error .badEncoding := by decide

/-- No two rows of R115 overlap: some bit that both fix differs. -/
theorem test_rows_disjoint :
    opcodeMap.Pairwise fun a b => a.matchBits &&& (a.mask &&& b.mask) ≠ b.matchBits &&& (a.mask &&& b.mask) := by decide

/-- The table's numbering: the payload word follows the header's 32 bits, missing operand words are zeros. -/
theorem test_decodeTableWord :
    decodeTableWord 64 (0x01000007 + 2 ^ 32 * 0x40400000) = some (.cfgWr 0x07 0x40400000)
      ∧ decodeTableWord 32 0x10000001 = some (.spgWrite 0 [(0, 0)]) := by decide

/-- The codes of R122. -/
theorem test_event_codes :
    [EventKind.spectrumData, .waterfallData, .meterUpdate, .specMin, .specMax, .wfMin, .wfMax, .anfFreq, .cwSignal, .cwTune,
        .rdData, .psdData].map EventKind.code
      = [0x81, 0x82, 0x83, 0x84, 0x85, 0x86, 0x87, 0x88, 0x89, 0x8A, 0x8B, 0x8C] := by decide

/-- Event headers of section 5 (R122, R123). -/
theorem test_event_headers :
    (Event.words ⟨.spectrumData, 0, true, List.replicate 512 0⟩).head? = some 0x81010200#32
      ∧ (Event.words ⟨.psdData, 2, false, List.replicate 250 0⟩).head? = some 0x8C2000FA#32
      ∧ (Event.plain .cwSignal [0, 0]).words.head? = some 0x89000002#32 := by decide +kernel

/-- The byte-serial link carries the least significant byte first (R83). -/
theorem test_link_bytes :
    linkBytes 0x040002BC#32 = [0xBC, 0x02, 0x00, 0x04] ∧ linkWord 0xBC 0x02 0x00 0x04 = 0x040002BC#32 := by decide

/-! ## Parameters and reset -/

/-- The vector values are a valid parameter set (R9). -/
theorem test_vector_valid : Params.vector.valid = true := by decide +kernel

theorem test_tiny_valid : tiny.valid = true := by decide +kernel

/-- The queue of R269 spans one FFT block: 32 levels of 4 samples. -/
theorem test_cwDlyLen : Params.vector.cwDlyLen = 32 := by decide

/-- A FIR table without the length in use, or with an infinite tap, and a HILB_DELAY outside the line are no ROM of a valid set
(R175, R262). -/
theorem test_invalid_roms :
    Params.valid { tiny with spg := { tiny.spg with zoomFir := .table [[Bin32.one]] } } = false
      ∧ Params.valid { tiny with spg := { tiny.spg with anfFir := .table [[0, 0, Bin32.inf false, 0, 0]] } } = false
      ∧ Params.valid { tiny with cw := { tiny.cw with hilbDelay := 3 } } = false := by decide +kernel

/-- ALPHA0 above 1 is invalid (R9): reset leaves the block in FAULT with BAD_PARAM (R335). -/
theorem test_reset_badParam :
    let s := State.resetOf { tiny with spg := { tiny.spg with alpha0Wf := 0x3F800001 } }
    s.run = .fault ∧ s.faultCode = 9 := by decide +kernel

/-- Tuning words of section 9 (R264), PW (R271), DUR_MS (R278). -/
theorem test_cw_constants :
    Params.vector.ftw 600 = 0x037BA571#32 ∧ Params.vector.ftw 700 = 0x04104104#32 ∧ Params.vector.ftw 22049 = 0x7FFE8390#32
      ∧ Params.vector.peakWidth = 22 ∧ Params.vector.durMs = 0x40B9C278#32 := by decide +kernel

/-- Bins of R231 (SM-2, SM-3, SM-4) and R242 (ANF-1, ANF-3). -/
theorem test_bins :
    [300, 2700, -2700, -300, 0, -2147483648, 2147483647].map (wfBin Params.vector) = [515, 539, 485, 509, 512, 0, 1023]
      ∧ [300, 2700, -2700, -300].map (anfBin Params.vector) = [131, 179, 71, 119] := by decide +kernel

/-- The command of a table row runs as the first one after reset. -/
theorem test_withFetchWord : code (step (State.reset.withFetchWord 64 (0x01000007 + 2 ^ 32 * 0x40400000))) = some 0 := by
  decide +kernel

/-! ## The datapath -/

/-- DCB-1 (R171): 1, 0.9921875, 0.98443603515625. -/
theorem test_dcblock :
    (let d0 : DcBlocker := ⟨Cx.zero, Cx.zero⟩
     let r1 := d0.step Params.vector ⟨Bin32.one, 0⟩
     let r2 := r1.1.step Params.vector ⟨Bin32.one, 0⟩
     let r3 := r2.1.step Params.vector ⟨Bin32.one, 0⟩
     [r1.2, r2.2, r3.2]) = [⟨0x3F800000, 0⟩, ⟨0x3F7E0000, 0⟩, ⟨0x3F7C0400, 0⟩] := by decide +kernel

/-- AL-3, CW-TUNE and the estimate of ANF-3: values the vectors give exactly. -/
theorem test_levels :
    Bin32.lpf 0xC2F20000#32 (floorCandidate Params.vector (List.replicate 1024 0x42480000#32)) 0#32 = 0xC2740000#32
      ∧ tuneHz Params.vector (CfgRegs.resetOf Params.vector) 66 = 0x4431B110#32
      ∧ tuneHz Params.vector (CfgRegs.resetOf Params.vector) 64 = 0x442F0000#32
      ∧ anfCandidate Params.vector 105 = -1000 ∧ anfCandidate Params.vector 145 = 1000 := by decide +kernel

/-- AL-4 and AL-5 (R221): the percentile element of 1024 values is the one of sorted index 153. -/
theorem test_percentile : Params.vector.percentileIndex = 153 := by decide

/-- Sorting, the least index of a greatest element, rounding: halves away from zero (R14, R17, R221). -/
theorem test_vectors :
    Bin32.sortAsc [Bin32.two, 0xBF800000#32, Bin32.one] = [0xBF800000#32, Bin32.one, Bin32.two]
      ∧ Bin32.argmax [Bin32.one, Bin32.two, Bin32.two, 0] 0 3 = 1
      ∧ Bin32.roundDiv 5 2 = 3 ∧ Bin32.roundDiv (-5) 2 = -3
      ∧ Bin32.shift [1, 2, 3, 4] = [3, 4, 1, 2] ∧ Bin32.shift [1, 2, 3, 4, 5] = [4, 5, 1, 2, 3] := by decide +kernel

/-- Rounding to nearest even, overflow, signed zero, subnormals (R20). -/
theorem test_binary32 :
    Bin32.add 0x4B800000#32 0x3F800000#32 = 0x4B800000#32 ∧ Bin32.add 0x4B800001#32 0x3F800000#32 = 0x4B800002#32
      ∧ Bin32.add 0x7F7FFFFF#32 0x7F7FFFFF#32 = 0x7F800000#32 ∧ Bin32.add 0x3F800000#32 0xBF800000#32 = 0#32
      ∧ Bin32.mul 0x00800000#32 0x3F000000#32 = 0x00400000#32 ∧ Bin32.div 0x3F800000#32 0x40400000#32 = 0x3EAAAAAB#32
      ∧ Bin32.sqrt 0x40000000#32 = 0x3FB504F3#32 ∧ Bin32.add 0x80000000#32 0x80000000#32 = 0x80000000#32 := by
  decide +kernel

/-! ## Control commands -/

theorem test_nop_runs : code (onPort .aud [0#32] base) = some 0 := by decide +kernel

/-- CFG.WR legality of section 10, from reset. -/
theorem test_cfgWr_legality :
    [(0x02#16, 0x3F#32), (0x02, 0x40), (0x07, 0), (0x07, 0xC0400000), (0x0A, 0x3F800000), (0x0A, 0x3F800001),
        (0x06, 0xC0A00000), (0x06, 0x7FC00000), (0x01, 2), (0x00, 0), (0x1B, 0)].map
      (fun c => code (exec (.cfgWr c.1 c.2) base)) = [0, 7, 7, 7, 0, 7, 0, 7, 6, 6, 5].map some := by decide +kernel

theorem test_cfgWr_writes :
    (next? (exec (.cfgWr 0x07 0x40A00000) base)).map (fun t => (t.readReg 0x07, t.readReg 0x06))
      = some (some 0x40A00000, some 0x41200000) := by decide +kernel

/-- After reset `cfg.rd ZOOM` emits 0x8B000001 0x00000001 (R303). -/
theorem test_cfgRd_zoom :
    (next? (onPort .cfg [0x02000001#32] base)).map (fun t => t.outCfg.map Event.words) = some [[0x8B000001, 0x00000001]] := by
  decide +kernel

theorem test_cfgRd_badReg : code (exec (.cfgRd 0x2C) base) = some 5 ∧ State.reset.readReg 0x2B = some 0x00400000#32 := by
  decide +kernel

/-- `dsp.rst iq` keeps the CW domain, `dsp.rst cw` the settle counter (R304). -/
theorem test_dspRst :
    (let s := { base with psdDelay := 0, ddsAcc := 5, hilbDl := [1, 2, 3] }
     [1#2, 2#2].map fun m => (next? (exec (.dspRst m) s)).map fun t => (t.psdDelay, t.ddsAcc, t.hilbDl))
      = [some (4, 5, [1, 2, 3]), some (0, 0, [0, 0, 0])] := by decide +kernel

/-- Section 4: zoom 1, 2, 4, 8, 16, 32 legal, 0, 3, 64, 512 BAD_VALUE (R177). -/
theorem test_zoom_legal :
    [1, 2, 4, 8, 16, 32, 0, 3, 64, 512].map (fun z => code (exec (.zoom z) State.reset))
      = [0, 0, 0, 0, 0, 0, 7, 7, 7, 7].map some := by decide +kernel

/-- `zoom 4` leaves ZOOM 4 and SPG_CTL[0] = 0x00800000 (R305). -/
theorem test_zoom_four :
    (next? (exec (.zoom 4) State.reset)).map (fun t => (t.readReg 0x01, t.readReg 0x23))
      = some (some 4, some 0x00800000) := by decide +kernel

theorem test_cwTone_legal :
    [0, 22049, 22050, 1].map (fun f => code (exec (.cwTone f) State.reset)) = [some 7, some 0, some 7, some 0] := by
  decide +kernel

theorem test_cwTone_retunes :
    (next? (exec (.cwTone 1000) { base with ddsAcc := 9 })).map (fun t => (t.readReg 0x05, t.ddsFtw, t.ddsAcc))
      = some (some 1000, 0x05CE13BD, 0) := by decide +kernel

/-! ## Unit commands (section 3.1) -/

/-- SPG-1: the ring after one write of two samples (1, 0). -/
theorem test_spgWrite_ring :
    (next? (exec (.spgWrite 0 frame2) base)).map (fun t => (t.spectrum.ring, t.spectrum.nt))
      = some ([Cx.zero, Cx.zero, ⟨Bin32.half, 0⟩, ⟨Bin32.half, 0⟩], 1) := by decide +kernel

/-- Length and admission corner cases: one sample, none, IN_MAX, above it, an infinity, a subnormal with -0. -/
theorem test_spgWrite_checks :
    [[(Bin32.one, 0)], [], [(0x49800000, 0), (0, 0)], [(0x49800008, 0), (0, 0)], [(0, 0x7F800000), (0, 0)],
        [(1, 0x80000000), (0, 0)]].map (fun c => code (exec (.spgWrite 0 c) base))
      = [4, 4, 0, 7, 7, 0].map some := by decide +kernel

/-- PSD_DATA of the vectors' unit 2: 250 values (R149). -/
theorem test_spgGetpsd_header :
    (next? (exec (.spgGetpsd 2) State.reset)).map (fun t => heads t.outIq) = some [some 0x8C2000FA] := by decide +kernel

/-- The corner cases of SPG.SETALPHA: alpha, gamma and acc, or BAD_VALUE. -/
theorem test_spgSetalpha_values :
    [0x3F000000, 0xBF800000, 0x3F800000, 0, 0x80000000].map
        (fun v => (next? (exec (.spgSetalpha 1 v) base)).map fun t => (t.waterfall.alpha, t.waterfall.gamma, t.waterfall.acc))
      = [some (0x3F000000#32, 0x3F000000#32, false), some (Bin32.one, Bin32.one, true), some (Bin32.one, 0, false),
         some (0, Bin32.one, false), some (0x80000000, Bin32.one, false)] := by decide +kernel

theorem test_spgSetalpha_refused :
    [0xBF7FFFFF, 0x3F800001, 0x7FC00000, 0x7F800000, 0xC0000000].map (fun v => code (exec (.spgSetalpha 1 v) base))
      = [7, 7, 7, 7, 7].map some := by decide +kernel

/-- SPG-8: after a clear the ring and the count are zero, the weights kept; SPG.RESET alike. -/
theorem test_spgClear_reset :
    (let s := { base with spectrum := { base.spectrum with ring := List.replicate 4 ⟨1, 1⟩, nt := 2, alpha := 5 } }
     [Instr.spgClear 0, .spgReset 0].map fun i =>
       (next? (exec i s)).map fun t => (t.spectrum.ring, t.spectrum.nt, t.spectrum.alpha))
      = [some (List.replicate 4 Cx.zero, 0, 5), some (List.replicate 4 Cx.zero, 0, 5)] := by decide +kernel

/-! ## Sample commands -/

/-- SETTLE-1: four frames count down and emit nothing; the swap of R172 puts I into Q in the waterfall's ring. -/
theorem test_dspSamples_settles :
    (next? (exec (.dspSamples false frame2) base)).map
        (fun t => (t.psdDelay, t.outIq, (t.waterfall.ring.getD 2 Cx.zero).im, t.waterfall.nt, t.anf.nt))
      = some (3, [], Bin32.half, 1, 0) := by decide +kernel

/-- GATE-1: a settled frame emits a spectrum when 67 ms have passed, not 66; the waterfall's period is 40. -/
theorem test_dspSamples_gates :
    [40, 41, 66, 67].map (fun n => (next? (exec (.dspSamples true frame2)
          { base with psdDelay := 0, timeMs := BitVec.ofNat 64 n })).map fun t => heads t.outIq)
      = [some [], some [some 0x82010004], some [some 0x82010004], some [some 0x81010004, some 0x82010004]] := by
  decide +kernel

/-- The audio word 0xABCD8000 is the sample -32768, scaled to -1 (R118, R261). -/
theorem test_audioSample : audioSample 0xABCD8000#32 = Bin32.minusOne := by decide +kernel

/-- With CW_EN the phase advances per sample and the decimator's phase modulo its factor (R265, R266). -/
theorem test_audSamples_phases :
    (next? (exec (.audSamples [1, 2, 3]) { base with cur := .aud, regs := { base.regs with mode := 2 } })).map
        (fun t => (t.ddsAcc, t.cwdec.ph, t.cw.blkN))
      = some (0x0C30C30C, 1, 1) := by decide +kernel

/-- CW-S: thresholds -50 and -53, the judged values of section 9. -/
theorem test_schmitt :
    (([0xC24C0000, 0xC2440000, 0xC2460000, 0xC24A0000, 0xC2500000, 0xC2539999, 0xC2540000, 0xC2546666, 0xC2500000,
        0xC2480000, 0xC247999A] : List Sc).foldl
      (fun a r => a ++ [schmitt (a.getLastD false) r 0xC2480000 0xC2540000]) [])
      = [false, true, true, true, true, true, true, false, false, false, true] := by decide +kernel

/-- CW-T1 and CW-T5's pulse threshold: `max(-50, -59)` and `-50 + max(-50, -59)`. -/
theorem test_thresholdPulse :
    Params.vector.thresholdPulse 0x41200000 0xC2600000 0xC2700000 = 0xC2480000#32
      ∧ Params.thresholdPulse { Params.vector with cw := { Params.vector.cw with cwThrFormula := .sum } }
          0x41200000 0xC2600000 0xC2700000 = 0xC2C80000#32 := by decide +kernel

/-! ## Faults -/

/-- The priority vectors of section 10 (R334). -/
theorem test_fault_priority :
    [code (onPort .aud [0x10300001, 0, 0] base), code (onPort .iq [0x10300001, 0, 0] base),
      code (onPort .aud [0x10320001, 0, 0] base), code (onPort .aud [0x15300000] base),
      code (onPort .iq [0x20000001, 0x7FC00000, 0] base), code (onPort .cfg [0x20000000] base),
      code (onPort .iq [0x21000001, 0] base), code (onPort .cfg [0x0100001B, 0x7FC00000] base),
      code (onPort .cfg [0x01000001, 0x63] base)] = [8, 3, 2, 1, 4, 8, 8, 5, 6].map some := by decide +kernel

/-- The pins in FAULT, and the consumed words (R331). -/
theorem test_fault_pins :
    (next? (onPort .iq [0x06000000, 0, 1] base)).map (fun t => (t.pinFault, t.pinFaultCode, t.inIq))
      = some (true, 1, [0, 1]) := by decide +kernel

/-- The assembler: `spg.accum 2` is 0x12200000 0xBF800000, `mode ANF_EN|SPEC_AUTO|WF_AUTO` writes 0x19 (R126). -/
theorem test_pseudo :
    (Pseudo.accum 2).expand.map encode = [[0x12200000#32, 0xBF800000#32]]
      ∧ (Pseudo.mode true false false true true false).expand = [.cfgWr 0x02 0x19] := by decide

/-! ## Witnesses for the hypotheses of the obligations -/

theorem test_wit_DecodeOfEncode : (Instr.spgWrite 2 frame2).wellFormed = true ∧ (Instr.audSamples []).wellFormed = true := by
  decide

theorem test_wit_EncodeOfDecode : ∃ i, decode [0x21000001#32, 0xABCD8000#32, 5#32] = .ok i := ⟨.audSamples [0xABCD8000], by decide⟩

/-- A running block with SPG.CLEAR 2 on port 0 and the turn. -/
def withClear : State := { base with agenda := [.port .iq], inIq := [0x13200000#32, 7#32] }

theorem test_wit_StepRunsDecodedCommand :
    withClear.agenda = [.port .iq] ∧ withClear.run = .run ∧ withClear.readyWords .iq = some [0x13200000#32]
      ∧ decode [0x13200000#32] = .ok (.spgClear 2) := by decide +kernel

theorem test_wit_StepRunsEncodedCommand :
    (Instr.spgClear 2).wellFormed = true ∧ withClear.agenda = [.port .iq] ∧ withClear.run = .run
      ∧ withClear.stream .iq = encode (.spgClear 2) ++ [7#32] := by decide +kernel

/-- Both clauses: an empty stream, and a header one word short. -/
theorem test_wit_UnreadyPortHasNoStep :
    (State.stream { base with agenda := [.port .aud] } .aud = [])
      ∧ (State.stream { base with agenda := [.port .aud], inAud := [0x21000001#32] } .aud).length
          < commandLength ((State.stream { base with agenda := [.port .aud], inAud := [0x21000001#32] } .aud).headD 0) := by
  decide +kernel

/-- The illegal opcodes at the ends of their ranges, and a legal one with a reserved bit whose words are all there. -/
theorem test_wit_IllegalHeaderHalts :
    ([0x06000000#32, 0x0F000000#32, 0x15000000#32, 0x1F000000#32, 0x22000000#32, 0xFF000000#32].all fun h =>
        decide ((0x06 ≤ (hdrOpc h).toNat ∧ (hdrOpc h).toNat ≤ 0x0F) ∨ (0x15 ≤ (hdrOpc h).toNat ∧ (hdrOpc h).toNat ≤ 0x1F)
          ∨ 0x22 ≤ (hdrOpc h).toNat))
      ∧ (∃ r ∈ opcodeMap, r.opc = hdrOpc 0x20020001#32 ∧ 0x20020001#32 &&& r.mask ≠ r.matchBits)
      ∧ commandLength 0x20020001#32 ≤ [0x20020001#32, 0#32, 0#32].length := by decide +kernel

/-- A halted block with a turn to come. -/
def haltedWith (a : List Turn) : State := { raise .badUnit base with agenda := a }

theorem test_wit_HaltedBlockRunsNothing :
    (haltedWith [.port .iq]).run = .fault ∧ (haltedWith [.port .iq]).agenda = [.port .iq]
      ∧ (haltedWith [.arrive .cfg 0]).agenda = [.arrive .cfg 0]
      ∧ base.run = .run ∧ State.agenda { base with agenda := [.arrive .cfg 0] } = [.arrive .cfg 0] := by decide +kernel

theorem test_wit_OnlyResetLeavesFault :
    (haltedWith [.tick 5]).run = .fault ∧ (haltedWith [.tick 5]).agenda.head? ≠ some .rst
      ∧ ∃ t, step (haltedWith [.tick 5]) = .next t := ⟨by decide +kernel, by decide +kernel, _, rfl⟩

theorem test_wit_ResetInputRestoresAll :
    (haltedWith [.rst]).agenda = [.rst] ∧ (haltedWith [.rst]).par.valid = true
      ∧ Params.valid { tiny with spg := { tiny.spg with zoomMax := 0 } } = false := by decide +kernel

theorem test_wit_TickAdvancesOnlyTime :
    State.agenda { base with agenda := [.tick 1], timeMs := 0xFFFFFFFFFFFFFFFE#64 } = [.tick 1]
      ∧ (0xFFFFFFFFFFFFFFFE#64).toNat + 1 < 2 ^ 64 := by decide +kernel

theorem test_wit_WrongPortRaisesFirst :
    State.cur { base with cur := .cfg } ≠ .iq ∧ State.cur { base with cur := .cfg } ≠ .aud := by decide +kernel

theorem test_wit_NopHasNoEffect :
    State.agenda { base with agenda := [.port .cfg], inCfg := [0x00800000#32] } = [.port .cfg] ∧ base.run = .run
      ∧ State.stream { base with inCfg := [0x00800000#32] } .cfg = (0x00#8 ++ 0x800000#24 : BitVec 32) :: [] := by
  decide +kernel

/-- Each clause: no register at 0x1B and 0x2C, a read-only one at 0x1A and 0x2B, the writable ones' boundary values. -/
theorem test_wit_CfgWrWritesOneRegister :
    ([0x1B#16, 0x1F#16, 0x2C#16, 0xFFFF#16].all fun i => decide (base.readReg i = none))
      ∧ ([0x00#16, 0x01#16, 0x05#16, 0x0B#16, 0x1A#16, 0x20#16, 0x2B#16].all fun i =>
          decide (base.readReg i ≠ none ∧ i.toNat ∉ [0x02, 0x03, 0x04, 0x06, 0x07, 0x08, 0x09, 0x0A]))
      ∧ (64#32).toNat ≥ 64 ∧ (63#32).toNat < 64
      ∧ Bin32.mag 0x49800000#32 ≤ Bin32.mag base.par.spg.inMax ∧ Bin32.mag 0x49800001#32 > Bin32.mag base.par.spg.inMax
      ∧ ¬ 0 < Bin32.fix 0x80000000#32 ∧ 0 < Bin32.fix 1#32
      ∧ Bin32.fix 0x3F800000#32 = 2 ^ 149 ∧ Bin32.fix 0x80000000#32 = 0 := by decide +kernel

theorem test_wit_CfgRdReportsRegister :
    base.readReg 0x2C = none ∧ base.readReg 0x01 = some 1 := by decide +kernel

theorem test_wit_ZoomRebuildsUnitZero :
    (∀ z ∈ [0, 3, 33], ¬(1 ≤ z ∧ z ≤ State.reset.par.spg.zoomMax ∧ z ∣ State.reset.par.spg.radioChunk))
      ∧ ∀ z ∈ [1, 32], 1 ≤ z ∧ z ≤ State.reset.par.spg.zoomMax ∧ z ∣ State.reset.par.spg.radioChunk := by decide +kernel

theorem test_wit_CwToneRetunesDds :
    State.reset.par.cw.fsAudio ≤ 2 * (22050#16).toNat ∧ (22049#16).toNat ≠ 0
      ∧ 2 * (22049#16).toNat < State.reset.par.cw.fsAudio := by decide +kernel

theorem test_wit_TuningWordIsNearest : 0 < Params.vector.cw.fsAudio := by decide

theorem test_wit_SpgWriteAccumulates :
    base.cur = .iq ∧ unitOf 0 = some .spectrum ∧ frame2.length = (base.unit .spectrum).c
      ∧ (frame2.all fun w => Bin32.admitted base.par.spg.inMax w.1 && Bin32.admitted base.par.spg.inMax w.2)
      ∧ (base.unit .spectrum).Shaped ∧ (base.unit .spectrum).n ≤ (base.unit .spectrum).b := by decide +kernel

/-- The three clauses: another port, a unit above 2, a unit of each number. -/
theorem test_wit_SpgGetpsdReports :
    State.cur { base with cur := .aud } ≠ .iq ∧ base.cur = .iq ∧ 3 ≤ (3#4).toNat
      ∧ unitOf 0 = some .spectrum ∧ unitOf 1 = some .waterfall ∧ unitOf 2 = some .anf := by decide +kernel

/-- Each clause at a boundary: -1.0, the ends of [0, 1], the first value above 1. -/
theorem test_wit_SpgSetalphaSelectsMode :
    base.cur = .iq ∧ unitOf 2 = some .anf
      ∧ ([0xBF800000#32, 0#32, 0x3F800000#32, 0x3F800001#32].all fun v =>
          Bin32.isFinite v && decide (Bin32.mag v ≤ Bin32.mag base.par.spg.inMax))
      ∧ ([0#32, 0x80000000#32, 0x3F800000#32].all fun v => decide (0 ≤ Bin32.fix v ∧ Bin32.fix v ≤ 2 ^ 149))
      ∧ (0x3F800001#32 : Word) ≠ 0xBF800000#32 ∧ ¬ Bin32.fix 0x3F800001#32 ≤ 2 ^ 149 := by decide +kernel

theorem test_wit_SpgClearAndResetZeroUnit :
    base.cur = .iq ∧ State.cur { base with cur := .cfg } ≠ .iq ∧ 3 ≤ (15#4).toNat ∧ unitOf 2 = some .anf := by decide +kernel

/-- Each clause: unit 3, one sample too few, a component just above IN_MAX. -/
theorem test_wit_SampleCommandChecks :
    base.cur = .iq ∧ 3 ≤ (3#4).toNat ∧ unitOf 0 = some .spectrum ∧ [((0 : Word), (0 : Word))].length ≠ (base.unit .spectrum).c
      ∧ frame2.length = (base.unit .spectrum).c ∧ frame2.length = base.par.spg.radioChunk
      ∧ ¬ Bin32.mag 0x49800001#32 ≤ Bin32.mag base.par.spg.inMax := by decide +kernel

/-- A settled block long after its last emissions, with the ANF branch on. -/
def late : State := { base with psdDelay := 0, timeMs := 1000, regs := { base.regs with mode := 1 }, anfPublished := 1000 }

/-- A settling block and a settled one. -/
theorem test_wit_DspSamplesWritesUnits :
    base.cur = .iq ∧ base.psdDelay ≠ 0 ∧ late.cur = .iq ∧ late.psdDelay = 0 ∧ late.par = base.par
      ∧ frame2.length = base.par.spg.radioChunk
      ∧ frame2.all fun w => Bin32.admitted base.par.spg.inMax w.1 && Bin32.admitted base.par.spg.inMax w.2 := by
  decide +kernel

/-- Both phases of a decimator of factor 2 and 3 taps; and four inputs from phase zero. -/
theorem test_wit_DecimatorCountsOutputs :
    (Decim.zero 3).ph + 1 ≠ 2 ∧ Decim.ph ⟨[Cx.zero, Cx.zero, Cx.zero], 1⟩ + 1 = 2 ∧ [Bin32.half, Bin32.one, 0] ≠ []
      ∧ [Cx.zero, Cx.zero, Cx.zero].length = [Bin32.half, Bin32.one, 0].length
      ∧ 1 ≤ 2 ∧ (Decim.zero 3).ph = 0 ∧ [Cx.zero, Cx.zero, Cx.zero, Cx.zero].length = 2 * 2 := by decide

/-- The small block is sound, and stays a witness with a turn to come. -/
theorem test_wit_FeedChunksFitUnits : base.Sound ∧ [Cx.zero, Cx.zero].length = base.par.spg.radioChunk := by decide +kernel

theorem test_wit_SettlingFrameIsDropped :
    ∃ t, exec (.dspSamples false frame2) base = .next t ∧ t.run = base.run ∧ base.run = .run ∧ base.psdDelay ≠ 0 :=
  ⟨_, rfl, by decide +kernel, by decide +kernel, by decide +kernel⟩

/-- A settled frame that runs. -/
theorem test_wit_FrameEventsInOrder :
    ∃ t, exec (.dspSamples false frame2) late = .next t ∧ t.run = late.run ∧ late.run = .run ∧ late.psdDelay = 0 :=
  ⟨_, rfl, by decide +kernel, by decide +kernel, by decide +kernel⟩

theorem test_wit_TransmitFrameLeavesReceiveState :
    ∃ t, exec (.dspSamples true frame2) base = .next t ∧ t.run = base.run ∧ base.run = .run :=
  ⟨_, rfl, by decide +kernel, by decide +kernel⟩

/-- Both clauses of the rate gate at its boundary (R196). -/
theorem test_wit_SpectrumEmission :
    base.timeMs.toNat ≤ base.lastSpecMs.toNat + base.par.feed.specPeriodMs
      ∧ late.lastSpecMs.toNat + late.par.feed.specPeriodMs < late.timeMs.toNat
      ∧ late.specLpf.length = (late.spectrum.getPsd late.par).length := by
  refine ⟨by decide +kernel, by decide +kernel, rfl⟩

/-- The gate at its boundary, with and without a hold, recording and not. -/
theorem test_wit_WaterfallEmissionAndHold :
    State.timeMs { base with timeMs := 40 } = 40 ∧ base.lastWfMs.toNat + base.par.feed.wfPeriodMs = 40
      ∧ late.lastWfMs.toNat + late.par.feed.wfPeriodMs < late.timeMs.toNat
      ∧ late.minMaxDelay = 0 ∧ State.minMaxDelay { late with minMaxDelay := 1 } ≠ 0
      ∧ late.regs.mode.getLsbD 5 = false ∧ (0x20#32).getLsbD 5 = true := by decide +kernel

theorem test_wit_PercentileIsLeastWithEnoughBelow :
    ([Bin32.two, Bin32.one].all fun x => !Bin32.isNan x) ∧ 1 < [Bin32.two, Bin32.one].length
      ∧ Bin32.lt Bin32.one Bin32.two = true := by decide +kernel

/-- The map at the ends of its clauses: bins -1, 0, N_WF - 1 and N_WF before the clamp. -/
theorem test_wit_PassbandBins :
    1 ≤ Params.vector.spg.nWf ∧ 1 ≤ Params.vector.spg.fsIq
      ∧ [-50098, -50000, 49999, 50000].map (fun f : Int =>
          ((Params.vector.spg.nWf / 2 : Nat) : Int) + (f * Params.vector.spg.nWf).tdiv Params.vector.spg.fsIq)
        = [-1, 0, 1023, 1024] := by decide +kernel

theorem test_wit_SmeterKeepsSmoothedLevel :
    ([Bin32.one, 0, Bin32.two, 0].all fun x => !Bin32.isNan x) ∧ [Bin32.one, 0, Bin32.two, 0].length = base.par.spg.nWf
      ∧ 1 ≤ base.par.spg.nWf := by decide +kernel

theorem test_wit_ArgmaxIsLeastGreatest :
    0 ≤ 2 ∧ 2 < [Bin32.one, Bin32.two, Bin32.two].length ∧ [Bin32.one, Bin32.two, Bin32.two].all fun x => !Bin32.isNan x := by
  decide +kernel

/-- The gate at its boundary; a history that agrees on 0, whose published form is new, and one that does not; a valid
parameter set with a range of one bin, which is too small, and one of four bins, which is not. -/
theorem test_wit_AnfUpdatePublishesAgreement :
    base.timeMs.toNat ≤ base.lastAnfMs.toNat + base.par.feed.anfPeriodMs
      ∧ late.lastAnfMs.toNat + late.par.feed.anfPeriodMs < late.timeMs.toNat
      ∧ anfValue late.par late.regs (late.anf.getPsd late.par) = 0 ∧ late.par.feed.anfDefaultHz ≠ late.anfPublished
      ∧ (Bin32.push late.anfHist 0).all (· == 0) ∧ (Bin32.push [0#32, 5#32, 0#32] 0).any (· != 0)
      ∧ tiny.valid = true ∧ [Bin32.one, 0, Bin32.two, 0].length = tiny.nAnf
      ∧ ([Bin32.one, 0, Bin32.two, 0].all fun x => !Bin32.isNan x)
      ∧ [0, -1000, 1000].map (anfBin tiny) = [2, 0, 3]
      ∧ 2 - 2 + 1 ≤ tiny.feed.anfTopExcl ∧ tiny.feed.anfTopExcl < 3 - 0 + 1 := by
  decide +kernel

/-- ANF-4: a range of one bin gives "no tone", and the third in a row publishes the default. -/
theorem test_wit_AnfPublishedOnlyOnAgreement :
    ∃ t, exec (.dspSamples false frame2) late = .next t ∧ t.anfPublished ≠ late.anfPublished :=
  ⟨_, rfl, by decide +kernel⟩

theorem test_wit_AudSamplesStaysInCwDomain : State.cur { base with cur := .aud } = .aud := by decide +kernel

theorem test_wit_HilbertAdvancesWithoutCw :
    State.cur { base with cur := .aud } = .aud ∧ base.regs.mode.getLsbD 1 = false := by decide +kernel

/-- A sample that gives no decimated sample, and one that does. -/
theorem test_wit_EachSampleAdvancesPhases :
    let s := { base with cur := .aud, regs := { base.regs with mode := 2 } }
    (s.cur = .aud ∧ s.regs.mode.getLsbD 1 = true ∧ s.cwdec.ph < s.par.cw.dCw ∧ s.hilbDl.length = s.par.cw.hilbLen
        ∧ (Rom.hilbertTaps s.par).length = s.par.cw.hilbLen ∧ s.par.cw.hilbDelay < s.par.cw.hilbLen)
      ∧ ∀ m, (s.cwdec.push s.par.cw.dCw (Rom.cwTaps s.par) m).2 = none
        ∧ ∃ d, (Decim.push { s.cwdec with ph := 1 } s.par.cw.dCw (Rom.cwTaps s.par) m).2 = some d :=
  ⟨by decide +kernel, fun _ => ⟨rfl, _, rfl⟩⟩

/-- The decoder's state in and at the end of a block; both formulas occur; a queue with one level. -/
theorem test_wit_ThresholdUpdateByRegime :
    Params.vector.cw.cwThrFormula = .max
      ∧ CwParams.cwThrFormula { Params.vector.cw with cwThrFormula := .sum } = .sum
      ∧ base.cw.blkN ≠ tiny.cw.fftCw ∧ CwState.blkN { base.cw with blkN := 2 } = tiny.cw.fftCw
      ∧ base.cw.blk.length = tiny.cw.fftCw ∧ 1 ≤ tiny.cw.fftCw ∧ 0 < tiny.cw.fsAudio
      ∧ [Bin32.one] ≠ [] ∧ Bin32.isNan Bin32.one = false := by decide +kernel

/-- Off and on, each at its threshold, which keeps it, and just beyond. -/
theorem test_wit_JudgeIsSchmittTrigger :
    base.cw.peakOn = false ∧ CwState.peakOn { base.cw with peakOn := true } = true
      ∧ (let c := { base.cw with thresholdPulse := Bin32.two, thresholdSilence := Bin32.one }
         [Bin32.two, 0x40000001#32].map (fun r => (c.judge tiny (some r)).1.peakOn) = [false, true]
          ∧ [Bin32.one, 0x3F7FFFFF#32].map (fun r => (CwState.judge { c with peakOn := true } tiny (some r)).1.peakOn)
            = [true, false]) := by decide +kernel

theorem test_wit_HysteresisOverSequences : Bin32.lt 0xC2540000#32 0xC2480000#32 = true := by decide +kernel

/-- The three clauses: between hops, a queue one short of full, a full one. -/
theorem test_wit_RmsQueueDelaysLevels :
    base.cw.rwin ≠ [] ∧ base.cw.hopN ≠ base.par.cw.cwRmsHop
      ∧ CwState.hopN { base.cw with hopN := 1, dly := [1] } = base.par.cw.cwRmsHop
      ∧ [1].length < base.par.cw.fftCw / base.par.cw.cwRmsHop ∧ [1, 2].length = base.par.cw.fftCw / base.par.cw.cwRmsHop := by decide +kernel

theorem test_wit_OnlyConfigCommandsWriteRegisters :
    ∃ t, exec (.cfgWr 0x03 5) base = .next t ∧ t.regs ≠ base.regs := ⟨_, rfl, by decide +kernel⟩

/-- Both clauses: a command on port 0 changes the IQ domain, one on port 1 the CW domain. -/
theorem test_wit_DomainsHaveTheirWriters :
    (∃ t, exec (.spgSetalpha 0 0) base = .next t ∧ ¬ t.spectrum = base.spectrum)
      ∧ ∃ t, exec (.audSamples [1]) { base with cur := .aud } = .next t ∧ ¬ t.hilbDl = base.hilbDl :=
  ⟨⟨_, rfl, by decide +kernel⟩, _, rfl, by decide +kernel⟩

theorem test_wit_EventsGoToIssuingPort : ∃ t, exec (.cfgRd 1) { base with cur := .aud } = .next t := ⟨_, rfl⟩

/-- The two producers' commands, each ready. -/
def producers : State := { base with inIq := [0x13200000#32], inAud := [0x21000001#32, 5#32] }

theorem test_wit_ProducerCommandsCommute :
    producers.run = .run ∧ producers.readyWords .iq = some [0x13200000#32] ∧ decode [0x13200000#32] = .ok (.spgClear 2)
      ∧ producers.readyWords .aud = some [0x21000001#32, 5#32] ∧ decode [0x21000001#32, 5#32] = .ok (.audSamples [5])
      ∧ (∃ a b, step { producers with agenda := [.port .iq, .port .aud] } = .next a ∧ a.run = .run ∧ step a = .next b)
      ∧ ∃ c d, step { producers with agenda := [.port .aud, .port .iq] } = .next c ∧ step c = .next d :=
  ⟨by decide +kernel, by decide +kernel, by decide, by decide +kernel, by decide,
    ⟨_, _, rfl, by decide +kernel, rfl⟩, _, _, rfl, rfl⟩

theorem test_wit_StepKeepsSound :
    State.Sound { base with agenda := [.tick 3] } ∧ ∃ t, step { base with agenda := [.tick 3] } = .next t :=
  ⟨by decide +kernel, _, rfl⟩

theorem test_wit_StepKeepsWeights :
    State.WeightsHold withClear ∧ withClear.par.valid = true ∧ ∃ t, step withClear = .next t :=
  ⟨by decide +kernel, by decide +kernel, _, rfl⟩

theorem test_wit_StepKeepsCeilingAndFaultMark :
    withClear.CeilingHolds ∧ withClear.FaultMarked ∧ ∃ t, step withClear = .next t :=
  ⟨by decide +kernel, by decide +kernel, _, rfl⟩

/-- A tie: 2^24 + 1 rounds to 2^24; operands of each clause; sums below, at and above the overflow bound, of either sign. -/
theorem test_wit_AddIsCorrectlyRounded :
    Bin32.isFinite 0x4B800000#32 = true ∧ Bin32.isFinite 0x3F800000#32 = true
      ∧ Bin32.isFinite (Bin32.add 0x4B800000#32 0x3F800000#32) = true
      ∧ (Bin32.fix 0x4B800001#32 - (Bin32.fix 0x4B800000#32 + Bin32.fix 0x3F800000#32)).natAbs
          = (Bin32.fix (Bin32.add 0x4B800000#32 0x3F800000#32) - (Bin32.fix 0x4B800000#32 + Bin32.fix 0x3F800000#32)).natAbs
      ∧ Bin32.fix 0x3F800000#32 ≠ 0 ∧ 0 ≤ Bin32.fix 0x4B800000#32
      ∧ [0x727FFFFF#32, 0x73000000#32, 0x7F7FFFFF#32].map (fun y =>
          decide ((2 ^ 25 - 1) * 2 ^ 252 ≤ Bin32.fix 0x7F7FFFFF#32 + Bin32.fix y)) = [false, true, true]
      ∧ Bin32.fix 0xFF7FFFFF#32 + Bin32.fix 0xF3000000#32 ≤ -((2 ^ 25 - 1) * 2 ^ 252) := by
  decide +kernel

theorem test_wit_ShiftCentresBinZero : [Bin32.one, Bin32.two] ≠ [] ∧ 1 < [Bin32.one, Bin32.two].length := by decide

end Tests
end Sys2Proof
end

section
/-! PROOFS. Invariants of the block: one step, packaged once, then the marks (R34, R51, R225, R332) and the shapes
(R39 to R58) that every step keeps. -/

namespace Sys2Proof
namespace Machine

/-! ## One step, for any predicate on the block -/

/-- `t` is `s` but for what the environment moves: time, waiting words, turns, and the port whose command runs. -/
def SameBlock (s t : State) : Prop :=
  t = { s with
    timeMs := t.timeMs, inIq := t.inIq, inAud := t.inAud, inCfg := t.inCfg, agenda := t.agenda, cur := t.cur }

theorem sameBlock_arriveWord (s : State) (rest : List Turn) (p : Port) (w : Word) :
    SameBlock s (State.arriveWord { s with agenda := rest } p w) := by
  unfold State.arriveWord
  split
  · rfl
  · cases p <;> rfl

theorem sameBlock_consume (s : State) (rest : List Turn) (p : Port) (n : Nat) :
    SameBlock s (State.consume { s with agenda := rest } p n) := by cases p <;> rfl

/-- The state a port's turn hands on is the block's but for the consumed words. -/
theorem issue_sameBlock {s : State} {rest : List Turn} {p : Port} :
    (∀ i u, State.issue { s with agenda := rest } p = .command i u → SameBlock s u)
      ∧ ∀ f u, State.issue { s with agenda := rest } p = .illegal f u → SameBlock s u := by
  rcases issue_cases { s with agenda := rest } p with ⟨hi, -⟩ | ⟨-, ws, -, ⟨i, -, hi⟩ | ⟨e, -, hi⟩⟩ <;>
    refine ⟨fun _ _ h => ?_, fun _ _ h => ?_⟩ <;> rw [hi] at h <;> cases h <;> exact sameBlock_consume ..

/-- A predicate that holds of a block whatever the environment moves, and that faults, effects and the reset keep, holds after
every step. -/
theorem step_keeps {P : State → Prop} {s t : State} (h : step s = .next t)
    (henv : ∀ u, SameBlock s u → P u) (hraise : ∀ f u, P u → P (raise f u))
    (heffect : ∀ i u, passes i u → P u → P (effect i u))
    (hreset : ∀ rest, P { State.resetOf s.par with agenda := rest }) : P t := by
  rcases step_cases h with ⟨d, rest, -, -, rfl⟩ | ⟨p, w, rest, -, rfl⟩ | ⟨rest, -, rfl⟩ |
    ⟨p, rest, -, rfl | ⟨i, u, hi, hx⟩ | ⟨f, u, hi, rfl⟩⟩
  · exact henv _ rfl
  · exact henv _ (sameBlock_arriveWord ..)
  · exact hreset rest
  · exact henv _ rfl
  · have hu : P u := henv u (issue_sameBlock.1 i u hi)
    rcases exec_cases i u with ⟨f, -, he⟩ | ⟨hp, he⟩ <;> rw [he] at hx <;> cases hx
    · exact hraise f u hu
    · exact heffect i u hp hu
  · exact hraise f u (henv u (issue_sameBlock.2 f u hi))

/-! ## The ceiling, the fault mark and the parameters -/

theorem FaultCode.code_ne_zero (f : FaultCode) : f.code ≠ 0#8 := by cases f <;> decide

/-- No command's effect touches the parameters, the run state or the fault code, and a moved ceiling belongs to its floor. -/
theorem effect_marks (i : Instr) (s : State) :
    (effect i s).par = s.par ∧ (effect i s).run = s.run ∧ (effect i s).faultCode = s.faultCode
      ∧ ((effect i s).gridMin = s.gridMin ∧ (effect i s).gridMax = s.gridMax ∨ (effect i s).CeilingHolds) := by
  cases i
  case dspRst mask =>
    simp only [effect]
    cases mask.getLsbD 0 <;> cases mask.getLsbD 1 <;> simp
  case dspSamples tx buf =>
    obtain ⟨d, o, hf, -, -, -, hg, -⟩ := s.frame_frame tx (complexSamples buf)
    simp only [effect, hf]
    exact ⟨rfl, rfl, rfl, hg⟩
  case audSamples ws =>
    obtain ⟨hd, acc, dec, cw, es, hf⟩ := State.audioFold_frame ws s
    simp [effect, hf]
  all_goals simp [effect]

theorem resetOf_marks (p : Params) (rest : List Turn) :
    State.CeilingHolds { State.resetOf p with agenda := rest } ∧ State.FaultMarked { State.resetOf p with agenda := rest } := by
  refine ⟨rfl, ?_⟩
  cases h : p.valid <;> simp [State.FaultMarked, State.resetOf, h, FaultCode.code]

/-- Settles O58: the three marks together are a predicate that `step_keeps` carries through a step. -/
theorem stepKeepsCeilingAndFaultMark : Obligations.StepKeepsCeilingAndFaultMark := by
  intro s t hc hf h
  refine step_keeps (P := fun u => u.CeilingHolds ∧ u.FaultMarked ∧ u.par = s.par) h ?_ ?_ ?_ ?_
  · intro u hu
    rw [hu]
    exact ⟨hc, hf, rfl⟩
  · rintro f u ⟨huc, -, hup⟩
    exact ⟨huc, by simp [State.FaultMarked, f.code_ne_zero], hup⟩
  · rintro i u - ⟨huc, huf, hup⟩
    obtain ⟨ep, er, ec, eg⟩ := effect_marks i u
    refine ⟨?_, by rw [State.FaultMarked, er, ec]; exact huf, ep.trans hup⟩
    rcases eg with ⟨emin, emax⟩ | hceil
    · rw [State.CeilingHolds, emin, emax, ep]
      exact huc
    · exact hceil
  · intro rest
    obtain ⟨rc, rf⟩ := resetOf_marks s.par rest
    exact ⟨rc, rf, rfl⟩

/-! ## Sound states: the parts that move one at a time -/

/-- Replacing a unit by one of the same geometry whose vectors fit keeps the state sound. -/
theorem State.Sound.setUnit {s : State} (hs : s.Sound) (k : UnitId) {u : SpgUnit} (hc : u.c = (s.unit k).c)
    (hn : u.n = (s.unit k).n) (hb : u.b = (s.unit k).b) (hu : u.Shaped) : (s.setUnit k u).Sound := by
  obtain ⟨hv, ⟨n0, b0, c0, n1, b1, c1, n2, b2, c2, f0, f1, f2⟩, hd, hbuf, hcfg⟩ := hs
  cases k
  · exact ⟨hv, ⟨hn.trans n0, hb.trans b0, hc.trans c0, n1, b1, c1, n2, b2, c2, hu, f1, f2⟩, hd, hbuf, hcfg⟩
  · exact ⟨hv, ⟨n0, b0, c0, hn.trans n1, hb.trans b1, hc.trans c1, n2, b2, c2, f0, hu, f2⟩, hd, hbuf, hcfg⟩
  · exact ⟨hv, ⟨n0, b0, c0, n1, b1, c1, hn.trans n2, hb.trans b2, hc.trans c2, f0, f1, hu⟩, hd, hbuf, hcfg⟩

/-- The units of a sound state have their vectors' lengths and N at most B. -/
theorem State.Sound.unit_fits {s : State} (hs : s.Sound) (k : UnitId) : (s.unit k).Shaped ∧ (s.unit k).n ≤ (s.unit k).b := by
  obtain ⟨hv, ⟨n0, b0, -, n1, b1, -, n2, b2, -, f0, f1, f2⟩, -⟩ := hs
  obtain ⟨-, -, l0, l1, l2, -⟩ := Params.valid_parts hv
  cases k
  · exact ⟨f0, n0.trans_le (l0.trans b0.ge)⟩
  · exact ⟨f1, n1.trans_le (l1.trans b1.ge)⟩
  · exact ⟨f2, n2.trans_le (l2.trans b2.ge)⟩

theorem State.Sound.emit {s : State} (hs : s.Sound) (p : Port) (e : Event) : (s.emit p e).Sound := by cases p <;> exact hs

/-- A legal value written to a writable register keeps the configuration legal (R39). -/
theorem State.Sound.write {s : State} (hs : s.Sound) {i : BitVec 16} {w : Word}
    (hl : legalValue s.par.spg.inMax i w = true) : State.Sound { s with regs := s.regs.write i w } := by
  obtain ⟨hv, hu, hd, hb, hz, ht, hf, hm, hg, hp, hn, hsb⟩ := hs
  unfold legalValue at hl
  unfold CfgRegs.write
  split at hl
  · exact ⟨hv, hu, hd, hb, hz, ht, hf, by simpa using hl, hg, hp, hn, hsb⟩
  · exact ⟨hv, hu, hd, hb, hz, ht, hf, hm, hg, hp, hn, hsb⟩
  · exact ⟨hv, hu, hd, hb, hz, ht, hf, hm, hg, hp, hn, hsb⟩
  · exact ⟨hv, hu, hd, hb, hz, ht, hf, hm, hg, hp, hn, hsb⟩
  · exact ⟨hv, hu, hd, hb, hz, ht, hf, hm, (Bool.and_eq_true_iff.mp hl).2, hp, hn, hsb⟩
  · exact ⟨hv, hu, hd, hb, hz, ht, hf, hm, hg, (Bool.and_eq_true_iff.mp hl).2, hn, hsb⟩
  · exact ⟨hv, hu, hd, hb, hz, ht, hf, hm, hg, hp, (Bool.and_eq_true_iff.mp hl).2, hsb⟩
  · exact ⟨hv, hu, hd, hb, hz, ht, hf, hm, hg, hp, hn, (Bool.and_eq_true_iff.mp hl).2⟩
  · cases hl

theorem Decim.zero_fits (n : Nat) : (Decim.zero n).dl.length = n ∧ (Decim.zero n).ph = 0 := ⟨List.length_replicate, rfl⟩

theorem CwState.resetOf_fits {p : Params} (hv : p.valid = true) (snr gist : Sc) : (CwState.resetOf p snr gist).Fits p := by
  obtain ⟨-, -, -, -, -, -, -, -, hfft, -, hhop, -⟩ := Params.valid_parts hv
  refine ⟨List.length_replicate, ?_, List.length_replicate, ?_, Nat.zero_le _⟩ <;> simp only [CwState.resetOf] <;> omega

theorem State.Sound.resetIqDomain {s : State} (hs : s.Sound) : s.resetIqDomain.Sound := by
  obtain ⟨hv, ⟨n0, b0, c0, n1, b1, c1, n2, b2, c2, -⟩, ⟨hz, -, -, -, -, hcw⟩, ⟨l0, l1, l2, l3, l4, l5, l6, -⟩, hcfg⟩ := hs
  exact ⟨hv, ⟨n0, b0, c0, n1, b1, c1, n2, b2, c2, SpgUnit.clear_shaped _, SpgUnit.clear_shaped _, SpgUnit.clear_shaped _⟩,
    ⟨hz, (Decim.zero_fits _).1, rfl, (Decim.zero_fits _).1, rfl, hcw⟩,
    ⟨l0, l1, l2, l3, l4, l5, l6, List.length_replicate⟩, hcfg⟩

theorem State.Sound.resetCwDomain {s : State} (hs : s.Sound) : s.resetCwDomain.Sound := by
  obtain ⟨hv, hu, ⟨hz, z1, z2, z3, z4, -⟩, ⟨l0, -, -, -, -, -, -, l7⟩, hcfg⟩ := hs
  obtain ⟨f1, f2, f3, f4, f5⟩ := CwState.resetOf_fits hv s.regs.cwSnr s.regs.cwGist
  obtain ⟨-, -, -, -, -, -, -, hd, -⟩ := Params.valid_parts hv
  exact ⟨hv, hu, ⟨hz, z1, z2, z3, z4, (Decim.zero_fits _).1, hd⟩,
    ⟨l0, List.length_replicate, f1, f2, f3, f4, f5, l7⟩, hcfg⟩

/-- A legal zoom factor: register, decimator and unit 0 move together (R177, R305). -/
theorem State.Sound.setZoom {s : State} (hs : s.Sound) {z : BitVec 16} (hz : s.par.zoomLegal z.toNat = true) :
    (s.setZoom z).Sound := by
  obtain ⟨hv, ⟨n0, b0, -, n1, b1, c1, n2, b2, c2, -, f1, f2⟩, ⟨-, -, -, z3, z4, hcw⟩, hb, -, hcfg⟩ := hs
  have hw : (z.setWidth 32).toNat = z.toNat := BitVec.toNat_setWidth_of_le (by omega)
  refine ⟨hv, ⟨n0, b0, ?_, n1, b1, c1, n2, b2, c2, SpgUnit.clear_shaped _, f1, f2⟩,
    ⟨?_, (Decim.zero_fits _).1, rfl, z3, z4, hcw⟩, hb, ?_, hcfg⟩ <;> simp [hw, hz]

/-- A legal tone: register and tuning word move together (R264, R306). -/
theorem State.Sound.setTone {s : State} (hs : s.Sound) {f : BitVec 16} (hf : s.par.toneLegal f.toNat = true) :
    (s.setTone f).Sound := by
  obtain ⟨hv, hu, ⟨hz, z1, z2, z3, z4, -⟩, hb, hzl, -, -, hcfg⟩ := hs
  obtain ⟨-, -, -, -, -, -, -, hd, -⟩ := Params.valid_parts hv
  have hw : (f.setWidth 32).toNat = f.toNat := BitVec.toNat_setWidth_of_le (by omega)
  refine ⟨hv, hu, ⟨hz, z1, z2, z3, z4, (Decim.zero_fits _).1, hd⟩, hb, hzl, ?_, ?_, hcfg⟩ <;> simp [hw, hf]

/-! ## Sound states: the frame (R190, R192) -/

/-- The decimator's part of the loop of R192 over a list of samples. -/
abbrev Decim.feedAll (on : Bool) (m : Nat) (taps : List Sc) (a : Decim × List Cx) (xs : List Cx) : Decim × List Cx :=
  xs.foldl (fun (a : Decim × List Cx) x => a.1.feed on m taps a.2 x) a

theorem Decim.feedAll_false (m : Nat) (taps : List Sc) (a : Decim × List Cx) (xs : List Cx) :
    Decim.feedAll false m taps a xs = a := List.foldl_fixed xs

theorem Decim.feedAll_dl_length (on : Bool) (m : Nat) (taps : List Sc) (xs : List Cx) : ∀ a : Decim × List Cx,
    (Decim.feedAll on m taps a xs).1.dl.length = a.1.dl.length := by
  induction xs with
  | nil => exact fun _ => rfl
  | cons x xs ih => exact fun a => (ih _).trans (Decim.feed_dl_length ..)

/-- Over a list of samples the phase and the outputs count the inputs. -/
theorem Decim.feedAll_count (m : Nat) (taps : List Sc) (xs : List Cx) : ∀ a : Decim × List Cx, a.1.ph < m →
    (Decim.feedAll true m taps a xs).1.ph < m
      ∧ (Decim.feedAll true m taps a xs).1.ph + m * (Decim.feedAll true m taps a xs).2.length
          = a.1.ph + xs.length + m * a.2.length := by
  induction xs with
  | nil => exact fun a h => ⟨h, rfl⟩
  | cons x xs ih =>
    intro a h
    obtain ⟨hlt, hcount⟩ := Decim.feed_count taps a.2 x h
    obtain ⟨hlt', hcount'⟩ := ih _ hlt
    exact ⟨hlt', by rw [List.length_cons]; simp only [Decim.feedAll, List.foldl_cons] at hcount' ⊢; omega⟩

/-- From phase zero, after a multiple of the factor, a decimator is at phase zero; one that does not run stays there. -/
theorem Decim.feedAll_ph {on : Bool} {m : Nat} (taps : List Sc) {d : Decim} (out xs : List Cx) (h0 : d.ph = 0)
    (hm : on = true → 1 ≤ m ∧ m ∣ xs.length) : (Decim.feedAll on m taps (d, out) xs).1.ph = 0 := by
  cases on
  · rw [Decim.feedAll_false]; exact h0
  · obtain ⟨hpos, hdvd⟩ := hm rfl
    obtain ⟨hlt, hcount⟩ := Decim.feedAll_count m taps xs (d, out) (by simp only [h0]; omega)
    refine Nat.eq_zero_of_dvd_of_lt ?_ hlt
    rw [Nat.dvd_add_iff_left (Nat.dvd_mul_right ..), hcount, h0, Nat.zero_add]
    exact Nat.dvd_add hdvd (Nat.dvd_mul_right ..)

/-- After a frame of a multiple of the factors both decimators are at phase zero, their delay lines as long as before. -/
theorem State.frontEnd_decimators (s : State) (buf : List Cx) (tx : Bool) (hz : s.zdec.ph = 0) (ha : s.adec.ph = 0)
    (hzm : 1 < s.regs.zoom.toNat → 1 ≤ s.zdecM ∧ s.zdecM ∣ buf.length)
    (ham : 1 ≤ s.par.spg.anfDecim ∧ s.par.spg.anfDecim ∣ buf.length) :
    (s.frontEnd buf tx).zdec.dl.length = s.zdec.dl.length ∧ (s.frontEnd buf tx).zdec.ph = 0
      ∧ (s.frontEnd buf tx).adec.dl.length = s.adec.dl.length ∧ (s.frontEnd buf tx).adec.ph = 0 := by
  obtain ⟨ys, hl, -, h1, h2⟩ := FrontEnd.foldl_step_cases s.par (s.frontConfig tx) buf
    { dcb := s.dcb, zdec := s.zdec, adec := s.adec, full := [], zc := [], ac := [] }
  have e1 : (s.frontEnd buf tx).zdec = _ := congrArg Prod.fst h1
  have e2 : (s.frontEnd buf tx).adec = _ := congrArg Prod.fst h2
  rw [e1, e2]
  refine ⟨Decim.feedAll_dl_length .., Decim.feedAll_ph _ _ _ hz fun on => ?_, Decim.feedAll_dl_length ..,
    Decim.feedAll_ph _ _ _ ha fun _ => ?_⟩ <;> rw [hl]
  · exact hzm (of_decide_eq_true on)
  · exact ham

theorem State.Sound.processSamples {s : State} (hs : s.Sound) {buf : List Cx} (hl : buf.length = s.par.spg.radioChunk)
    (tx : Bool) : (s.processSamples buf tx).Sound := by
  have hf := fun k => hs.unit_fits k
  obtain ⟨hv, ⟨n0, b0, c0, n1, b1, c1, n2, b2, c2, -⟩, ⟨hz, z1, z2, a1, a2, hcw⟩, hb, hzl, hcfg⟩ := hs
  obtain ⟨hmod, hpos, -⟩ := Params.valid_parts hv
  obtain ⟨hz1, hzc⟩ := Params.zoomLegal_parts hzl
  obtain ⟨hd1, hd2, hd3, hd4⟩ := s.frontEnd_decimators buf tx z2 a2
    (fun _ => by rw [hz, hl, hzc]; exact ⟨hz1, Nat.dvd_mul_left ..⟩)
    (by
      rw [hl]
      have hdvd := Nat.dvd_of_mod_eq_zero hmod
      exact ⟨Nat.pos_of_dvd_of_pos hdvd hpos, hdvd⟩)
  have hw := fun k x => SpgUnit.write_shaped s.par k x (hf k).1 (hf k).2
  refine ⟨hv, ⟨n0, b0, c0, n1, b1, c1, ?_⟩, ⟨hz, hd1.trans z1, hd2, hd3.trans a1, hd4, hcw⟩, hb, hzl, hcfg⟩
  simp only [State.processSamples]
  cases anfBranch s.regs tx
  · exact ⟨n2, b2, c2, hw .spectrum _, hw .waterfall _, (hf .anf).1⟩
  · exact ⟨n2, b2, c2, hw .spectrum _, hw .waterfall _, hw .anf _⟩

/-- The filter's new contents fit when the filter and the unit's accumulator do. -/
theorem State.filteredSpectrum_length (s : State) (v : List Sc) (h : v.length = s.specLpf.length) :
    (s.filteredSpectrum v).length = s.specLpf.length := by
  unfold State.filteredSpectrum
  split
  · simp [h]
  · exact h

theorem State.Sound.frame {s : State} (hs : s.Sound) {buf : List Cx} (hl : buf.length = s.par.spg.radioChunk)
    (tx : Bool) : (s.frame tx buf).Sound := by
  obtain ⟨d, o, hf, -, -, hlpf, -, -, hhist⟩ := s.frame_frame tx buf
  obtain ⟨hv, hu, hd, ⟨b0, b1, b2, b3, b4, b5, b6, b7⟩, hcfg⟩ := hs.processSamples hl tx
  rw [hf]
  refine ⟨hv, hu, hd, ⟨?_, b1, b2, b3, b4, b5, b6, hhist.trans b7⟩, hcfg⟩
  rcases hlpf with h | h
  · exact (congrArg List.length h).trans b0
  · refine (congrArg List.length h).trans ((State.filteredSpectrum_length _ _ ?_).trans b0)
    obtain ⟨n0, -, -, -, -, -, -, -, -, ⟨-, f0⟩, -⟩ := hu
    rw [List.length_map, SpgUnit.getPsd_length, b0, f0, n0]

/-! ## Sound states: audio samples (R260) -/

/-- A decimator's phase stays below its factor. -/
theorem Decim.push_fits (d : Decim) {m : Nat} (taps : List Sc) (x : Cx) (h : d.ph < m) :
    (d.push m taps x).1.dl.length = d.dl.length ∧ (d.push m taps x).1.ph < m := by
  rcases d.push_cases m taps x with ⟨_, hp⟩ | ⟨_, hp⟩ <;> rw [hp] <;> exact ⟨Bin32.push_length .., by simp only []; omega⟩

theorem State.Sound.audioStep {s : State} (hs : s.Sound) (w : Word) : (s.audioStep w).Sound := by
  obtain ⟨acc, dec, cw, es, hf, -, hcases⟩ := s.audioStep_frame w
  obtain ⟨hv, hu, ⟨z0, z1, z2, z3, z4, z5, z6⟩, ⟨b0, b1, b2, b3, b4, b5, b6, b7⟩, hcfg⟩ := hs
  have hdec : dec.dl.length = s.par.lCw ∧ dec.ph < s.par.cw.dCw := by
    rcases hcases with ⟨-, -, rfl, -⟩ | ⟨-, -, m, rfl, -⟩
    · exact ⟨z5, z6⟩
    · obtain ⟨h1, h2⟩ := s.cwdec.push_fits (Rom.cwTaps s.par) m z6
      exact ⟨h1.trans z5, h2⟩
  have hcw : cw.Fits s.par := by
    have h0 : s.cw.Fits s.par := ⟨b2, b3, b4, b5, b6⟩
    obtain ⟨-, -, -, -, -, -, -, -, -, -, hhop, hdly, -⟩ := Params.valid_parts hv
    rcases hcases with ⟨-, -, -, rfl, -⟩ | ⟨-, -, m, -, ⟨-, rfl, -⟩ | ⟨d, -, rfl, -⟩⟩
    · exact h0
    · exact h0
    · exact CwState.sample_frame _ _ _ _ h0 hhop hdly
  obtain ⟨c2, c3, c4, c5, c6⟩ := hcw
  rw [hf]
  exact ⟨hv, hu, ⟨z0, z1, z2, z3, z4, hdec⟩, ⟨b0, (Bin32.push_length ..).trans b1, c2, c3, c4, c5, c6, b7⟩, hcfg⟩

theorem State.Sound.audioFold (ws : List Word) : ∀ {s : State}, s.Sound → (ws.foldl State.audioStep s).Sound := by
  induction ws with
  | nil => exact fun hs => hs
  | cons w ws ih => exact fun hs => ih (hs.audioStep w)

/-! ## Sound states: every step -/

theorem State.Sound.effect {s : State} (hs : s.Sound) {i : Instr} (hp : passes i s) : (effect i s).Sound := by
  cases i
  case nop => exact hs
  case cfgWr reg value => exact hs.write hp.2
  case cfgRd reg => exact hs.emit ..
  case dspRst mask =>
    simp only [Machine.effect]
    cases mask.getLsbD 0 <;> cases mask.getLsbD 1
    · exact hs
    · exact hs.resetCwDomain
    · exact hs.resetIqDomain
    · exact hs.resetIqDomain.resetCwDomain
  case zoom z => exact hs.setZoom hp
  case cwTone hz => exact hs.setTone hp
  case spgWrite u chunk =>
    obtain ⟨hshape, hle⟩ := hs.unit_fits (unitSel u)
    exact hs.setUnit _ rfl rfl rfl (SpgUnit.write_shaped _ _ _ hshape hle)
  case spgGetpsd u => exact hs.emit ..
  case spgSetalpha u v =>
    have hshape := (hs.unit_fits (unitSel u)).1
    rcases (s.unit (unitSel u)).setAlpha_cases v with ⟨-, h⟩ | ⟨-, h⟩ <;> simp only [Machine.effect, h] <;>
      exact hs.setUnit _ rfl rfl rfl hshape
  case spgClear u => exact hs.setUnit _ rfl rfl rfl (SpgUnit.clear_shaped _)
  case spgReset u => exact hs.setUnit _ rfl rfl rfl (SpgUnit.clear_shaped _)
  case dspSamples tx buf => exact hs.frame (by simpa [complexSamples] using hp.2.1) tx
  case audSamples ws => exact State.Sound.audioFold ws hs

theorem SpgUnit.resetOf_shaped (c n b : Nat) (alpha0 : Sc) : (SpgUnit.resetOf c n b alpha0).Shaped :=
  ⟨List.length_replicate, List.length_replicate⟩

/-- With valid parameters the state after reset is sound, whatever turns remain. -/
theorem resetOf_sound {p : Params} (hv : p.valid = true) (rest : List Turn) :
    State.Sound { State.resetOf p with agenda := rest } := by
  obtain ⟨-, -, -, -, -, hzm, htone, hd, -, -, -, -, hg, hp, hn, hs, -⟩ := Params.valid_parts hv
  obtain ⟨f1, f2, f3, f4, f5⟩ := CwState.resetOf_fits hv p.cw.cwSnr0 p.cw.cwGist0
  have hm : (0 : Word).extractLsb' 6 26 = 0 := by decide
  have hz : p.zoomLegal 1 = true := by simp [Params.zoomLegal, hzm, Nat.mod_one]
  exact ⟨hv,
    ⟨rfl, rfl, rfl, rfl, rfl, rfl, rfl, rfl, rfl, SpgUnit.resetOf_shaped .., SpgUnit.resetOf_shaped ..,
      SpgUnit.resetOf_shaped ..⟩,
    ⟨rfl, List.length_replicate, rfl, List.length_replicate, rfl, List.length_replicate, hd⟩,
    ⟨List.length_replicate, List.length_replicate, f1, f2, f3, f4, f5, List.length_replicate⟩,
    ⟨hz, htone, rfl, hm, hg, hp, hn, hs⟩⟩

/-- Settles O56: soundness is a predicate that `step_keeps` carries through a step. -/
theorem stepKeepsSound : Obligations.StepKeepsSound := by
  intro s t hs h
  refine step_keeps (P := State.Sound) h (fun u hu => ?_) (fun _ _ hu => hu) (fun _ _ hp hu => hu.effect hp)
    fun rest => resetOf_sound hs.1 rest
  rw [hu]
  exact hs

/-! ## Reset -/

theorem vector_valid : Params.vector.valid = true := by decide +kernel

theorem SpgUnit.resetOf_weighted (c n b : Nat) {alpha0 : Sc} (h : Bin32.inUnit alpha0 = true) :
    (SpgUnit.resetOf c n b alpha0).Weighted := ⟨fun _ => ⟨h, rfl⟩, nofun⟩

/-- Settles O55: the reset state is `resetOf` of valid parameters; the three initial weights are all one half. -/
theorem resetIsSound : Obligations.ResetIsSound := by
  obtain ⟨hceil, hmark⟩ := resetOf_marks Params.vector []
  have hunit : Bin32.inUnit Bin32.half = true := by decide +kernel
  exact ⟨resetOf_sound vector_valid [],
    ⟨SpgUnit.resetOf_weighted _ _ _ hunit, SpgUnit.resetOf_weighted _ _ _ hunit, SpgUnit.resetOf_weighted _ _ _ hunit⟩,
    hceil, hmark⟩

/-- Settles O10: each field is the one `State.resetOf` writes; the sizes of zoom factor 1 are those of the frame. -/
theorem resetInputRestoresAll : Obligations.ResetInputRestoresAll := by
  intro s rest h
  have hstep : step s = .next { State.resetOf s.par with agenda := rest } := by
    simp only [step, h, State.hardReset]
  have hc : s.par.cSpec 1 = s.par.spg.radioChunk := Nat.div_one _
  have hl : s.par.lZoom 1 = 2 * s.par.spg.zoomFirM + 1 := by rw [Params.lZoom, Nat.mul_one]
  refine ⟨_, hstep, rfl, fun p => by cases p <;> exact ⟨rfl, rfl⟩, rfl, rfl, fun hv => ?_, fun hv => ?_, ?_, ?_, ?_⟩
  · simp [State.resetOf, hv]
  · simp [State.resetOf, hv, FaultCode.code]
  · exact ⟨by simp only [State.resetOf, SpgUnit.resetOf, hc]; rfl, rfl, rfl, rfl, rfl,
      by simp only [State.resetOf, Decim.zero, hl]; rfl, rfl⟩
  · exact ⟨rfl, rfl, rfl, rfl, rfl, rfl, rfl, rfl, rfl, rfl, rfl, rfl⟩
  · exact ⟨rfl, rfl, rfl, rfl, rfl, rfl⟩

end Machine
end Sys2Proof
end

section
/-! PROOFS. The datapath (R14, R17, R19, R20): correct rounding of every exact operation, the order, the FFT shift, argmax. -/

namespace Sys2Proof
namespace Bin32

/-! ## Correct rounding (R20) -/

theorem fix_cast (x : Sc) : (fix x : ℝ) = if isNeg x then -(mag x : ℝ) else (mag x : ℝ) := by
  unfold fix
  split
  · rw [Int.cast_neg, Int.cast_natCast]
  · rw [Int.cast_natCast]

/-- A packed sign and magnitude round the real number of that sign and magnitude. -/
theorem roundsTo_pack {v : ℝ} {negative : Bool} {n d : Nat} (hd : d ≠ 0)
    (hv : v = if negative then -((n : ℝ) / d) else (n : ℝ) / d) : RoundsTo v (pack negative n d) :=
  hv ▸ pack_roundsTo negative n d (Nat.pos_of_ne_zero hd)

/-- A zero of either sign rounds 0. -/
theorem roundsTo_zero {x : Sc} (hf : isFinite x = true) (h0 : fix x = 0) : RoundsTo 0 x := by
  have hb : (0 : ℝ) < (2 ^ 25 - 1) * 2 ^ 252 := by norm_num
  refine ⟨fun _ => ⟨hf, fun z _ => ?_⟩, fun h => absurd h (not_le.mpr hb), fun h => absurd h (by linarith)⟩
  rw [h0, Int.cast_zero, sub_zero, sub_zero, abs_zero]
  exact ⟨abs_nonneg _, fun h hne => absurd (by exact_mod_cast abs_eq_zero.mp h.symm) hne⟩

theorem add_roundsTo {x y : Sc} (hx : isFinite x = true) (hy : isFinite y = true) :
    RoundsTo ((fix x : ℝ) + fix y) (add x y) := by
  have hsum : (fix x : ℝ) + fix y = ((fix x + fix y : Int) : ℝ) := by push_cast; rfl
  rw [hsum]
  simp only [add, (fin_flags hx).1, (fin_flags hx).2, (fin_flags hy).1, (fin_flags hy).2, Bool.or_self, Bool.false_eq_true,
    if_false]
  generalize fix x + fix y = s
  split
  · rename_i h0
    exact roundsTo_pack one_ne_zero (by simp [h0])
  · refine roundsTo_pack one_ne_zero ?_
    rw [Nat.cast_natAbs, Nat.cast_one, div_one, Int.cast_abs]
    by_cases hs : s < 0
    · rw [if_pos (decide_eq_true hs), abs_of_neg (by exact_mod_cast hs), InvolutiveNeg.neg_neg]
    · rw [if_neg (by simpa using hs), abs_of_nonneg (by exact_mod_cast not_lt.mp hs)]

theorem sub_roundsTo {x y : Sc} (hx : isFinite x = true) (hy : isFinite y = true) :
    RoundsTo ((fix x : ℝ) - fix y) (sub x y) := by
  have h := add_roundsTo hx ((isFinite_neg y).trans hy)
  rw [fix_neg, Int.cast_neg, ← sub_eq_add_neg] at h
  simpa only [sub, (fin_flags hy).1, Bool.false_eq_true, if_false] using h

theorem mul_roundsTo {x y : Sc} (hx : isFinite x = true) (hy : isFinite y = true) :
    RoundsTo ((fix x : ℝ) * fix y / 2 ^ 149) (mul x y) := by
  simp only [mul, (fin_flags hx).1, (fin_flags hx).2, (fin_flags hy).1, (fin_flags hy).2, Bool.or_self, Bool.false_eq_true,
    if_false]
  refine roundsTo_pack (by positivity) ?_
  rw [fix_cast, fix_cast, Nat.cast_mul, Nat.cast_pow, Nat.cast_ofNat]
  cases isNeg x <;> cases isNeg y <;> simp <;> ring

theorem div_roundsTo {x y : Sc} (hx : isFinite x = true) (hy : isFinite y = true) (h0 : fix y ≠ 0) :
    RoundsTo ((fix x : ℝ) * 2 ^ 149 / fix y) (div x y) := by
  have hm : mag y ≠ 0 := by rwa [← fix_natAbs, Int.natAbs_ne_zero]
  have hz : isZero y = false := by rw [Bool.eq_false_iff, Ne, isZero_iff]; exact hm
  simp only [div, (fin_flags hx).1, (fin_flags hx).2, (fin_flags hy).1, (fin_flags hy).2, hz, Bool.or_self,
    Bool.false_eq_true, if_false]
  refine roundsTo_pack hm ?_
  rw [fix_cast, fix_cast, Nat.cast_mul, Nat.cast_pow, Nat.cast_ofNat]
  cases isNeg x <;> cases isNeg y <;> simp [neg_div, div_neg]

theorem sqrt_roundsTo {x : Sc} (hx : isFinite x = true) (h0 : 0 ≤ fix x) :
    RoundsTo (Real.sqrt ((fix x : ℝ) * 2 ^ 149)) (sqrt x) := by
  simp only [sqrt, (fin_flags hx).1, (fin_flags hx).2, Bool.false_eq_true, if_false]
  by_cases hm : mag x = 0
  · have hf : fix x = 0 := by rw [← Int.natAbs_eq_zero, fix_natAbs, hm]
    rw [if_pos (isZero_iff.mpr hm), hf, Int.cast_zero, zero_mul, Real.sqrt_zero]
    exact roundsTo_zero hx hf
  · have hneg : isNeg x = false := by
      by_contra hc
      rw [fix, if_pos (by simpa using hc)] at h0
      omega
    rw [if_neg (mt isZero_iff.mp hm), hneg, if_neg Bool.false_ne_true, fix_cast, hneg, if_neg Bool.false_ne_true]
    exact roundsTo_sqrt (mag x) (Nat.pos_of_ne_zero hm) (mag_lt hx)

theorem divNat_roundsTo {x : Sc} {n : Nat} (hx : isFinite x = true) (hn : n ≠ 0) : RoundsTo ((fix x : ℝ) / n) (divNat x n) := by
  rw [divNat, if_pos (by simp [hx, hn])]
  refine roundsTo_pack hn ?_
  rw [fix_cast]
  cases isNeg x <;> simp [neg_div]

theorem ofRatio_roundsTo (a : Int) {b : Nat} (hb : b ≠ 0) : RoundsTo ((a : ℝ) * 2 ^ 149 / b) (ofRatio a b) := by
  refine roundsTo_pack hb ?_
  rw [Nat.cast_mul, Nat.cast_pow, Nat.cast_ofNat, Nat.cast_natAbs, Int.cast_abs]
  by_cases ha : a < 0
  · rw [if_pos (decide_eq_true ha), abs_of_neg (by exact_mod_cast ha), neg_mul, neg_div, InvolutiveNeg.neg_neg]
  · rw [if_neg (by simpa using ha), abs_of_nonneg (by exact_mod_cast not_lt.mp ha)]

/-- Settles O59, operation by operation. -/
theorem addIsCorrectlyRounded : Obligations.AddIsCorrectlyRounded :=
  ⟨fun _ _ hx hy => ⟨add_roundsTo hx hy, sub_roundsTo hx hy, mul_roundsTo hx hy, div_roundsTo hx hy, sqrt_roundsTo hx,
      lt_fix hx hy⟩,
    fun _ _ hx hn => divNat_roundsTo hx hn, fun a _ hb => ofRatio_roundsTo a hb⟩

/-! ## The FFT shift (R19) -/

/-- Settles O60: bin 0 is the element whose shifted index is `N div 2`. -/
theorem shiftCentresBinZero : Obligations.ShiftCentresBinZero := by
  refine fun t => ⟨shift_length t, shift_getElem? t, fun ht => ?_⟩
  have hpos : 0 < t.length := List.length_pos_iff.mpr ht
  rw [shift_getElem? t _ (Nat.div_lt_self hpos one_lt_two), Nat.add_sub_of_le (Nat.div_le_self ..), Nat.mod_self]

/-! ## argmax (R17) -/

/-- The scan of `argmax` from `lo` over the next `m` elements. -/
def argmaxScan (v : List Sc) (lo m : Nat) : Nat :=
  (List.range m).foldl (fun best k => if lt (v.getD best 0) (v.getD (lo + 1 + k) 0) then lo + 1 + k else best) lo

theorem argmax_eq_scan (v : List Sc) (lo hi : Nat) : argmax v lo hi = argmaxScan v lo (hi - lo) := rfl

theorem argmaxScan_succ (v : List Sc) (lo m : Nat) :
    argmaxScan v lo (m + 1)
      = if lt (v.getD (argmaxScan v lo m) 0) (v.getD (lo + 1 + m) 0) then lo + 1 + m else argmaxScan v lo m := by
  rw [argmaxScan, List.range_succ, List.foldl_append]; rfl

/-- Whatever the vector holds, the scan stays in its range. -/
theorem argmaxScan_range (v : List Sc) (lo m : Nat) : lo ≤ argmaxScan v lo m ∧ argmaxScan v lo m ≤ lo + m := by
  induction m with
  | zero => exact ⟨le_rfl, le_rfl⟩
  | succ m ih =>
    rw [argmaxScan_succ]
    split <;> omega

theorem isNan_getD {v : List Sc} (hv : ∀ x ∈ v, isNan x = false) {i : Nat} (hi : i < v.length) : isNan (v.getD i 0) = false := by
  rw [List.getD_eq_getElem _ _ hi]
  exact hv _ (List.getElem_mem hi)

/-- The scan keeps the least index of a greatest element of what it has seen. -/
theorem argmaxScan_spec {v : List Sc} (hv : ∀ x ∈ v, isNan x = false) (lo m : Nat) (hm : lo + m < v.length) :
    (∀ j, lo ≤ j → j ≤ lo + m → orderKey (v.getD j 0) ≤ orderKey (v.getD (argmaxScan v lo m) 0))
      ∧ ∀ j, lo ≤ j → j < argmaxScan v lo m → orderKey (v.getD j 0) < orderKey (v.getD (argmaxScan v lo m) 0) := by
  induction m with
  | zero =>
    refine ⟨fun j h1 h2 => ?_, fun j h1 h2 => absurd h1 (not_le.mpr h2)⟩
    rw [show j = lo by omega]
    exact le_rfl
  | succ m ih =>
    obtain ⟨hmax, hleast⟩ := ih (by omega)
    obtain ⟨-, hhi⟩ := argmaxScan_range v lo m
    rw [argmaxScan_succ]
    simp only [lt_iff (isNan_getD hv (by omega : argmaxScan v lo m < v.length))
      (isNan_getD hv (by omega : lo + 1 + m < v.length))]
    generalize argmaxScan v lo m = best at *
    split
    · rename_i hlt
      refine ⟨fun j h1 h2 => ?_, fun j h1 h2 => (hmax j h1 (by omega)).trans_lt hlt⟩
      rcases Nat.lt_or_ge j (lo + 1 + m) with hj | hj
      · exact (hmax j h1 (by omega)).trans hlt.le
      · rw [show j = lo + 1 + m by omega]
    · rename_i hge
      refine ⟨fun j h1 h2 => ?_, hleast⟩
      rcases Nat.lt_or_ge j (lo + 1 + m) with hj | hj
      · exact hmax j h1 (by omega)
      · rw [show j = lo + 1 + m by omega]
        exact not_lt.mp hge

/-- Settles O41: what `argmaxScan_spec` says of the order keys, in the datapath's comparisons. -/
theorem argmaxIsLeastGreatest : Obligations.ArgmaxIsLeastGreatest := by
  intro v lo hi hle hlt hv
  obtain ⟨h1, h2⟩ := argmaxScan_range v lo (hi - lo)
  obtain ⟨hmax, hleast⟩ := argmaxScan_spec hv lo (hi - lo) (by omega)
  rw [← argmax_eq_scan, Nat.add_sub_of_le hle] at *
  refine ⟨h1, h2, fun j hj hj' => ?_, fun j hj hj' => ?_⟩
  · exact (le_iff (isNan_getD hv (by omega)) (isNan_getD hv (by omega))).mpr (hmax j hj hj')
  · exact (lt_iff (isNan_getD hv (by omega)) (isNan_getD hv (by omega))).mpr (hleast j hj hj')

end Bin32

/-! ## The tuning word (R14, R264) -/

/-- Rounding a quotient of naturals: within half a unit, the upper integer at a tie. -/
theorem Bin32.roundDiv_natCast (n d : Nat) : Bin32.roundDiv (n : Int) d = ((2 * n + d) / (2 * d) : Nat) := by
  rw [Bin32.roundDiv, if_neg (by omega)]
  rfl

/-- Settles O22: the quotient of `2 * 2^32 * f + FS_AUDIO` by `2 * FS_AUDIO` bounds its numerator on both sides. -/
theorem tuningWordIsNearest : Obligations.TuningWordIsNearest := by
  intro p f hpos
  refine ⟨(2 * (2 ^ 32 * f) + p.cw.fsAudio) / (2 * p.cw.fsAudio), ?_, ?_, ?_⟩
  · rw [Params.ftw, Bin32.roundDiv_natCast, BitVec.ofInt_natCast]
  · have h := Nat.div_mul_le_self (2 * (2 ^ 32 * f) + p.cw.fsAudio) (2 * p.cw.fsAudio)
    rw [Nat.mul_left_comm, ← Nat.mul_assoc] at h
    omega
  · have h := Nat.lt_div_mul_add (a := 2 * (2 ^ 32 * f) + p.cw.fsAudio) (b := 2 * p.cw.fsAudio) (by omega)
    nlinarith

end Sys2Proof
end

section
/-! PROOFS. Commands and updates on port IQ: the sample checks (R116), SPG.WRITE (R146 to R148), the spectrum emission (R197),
the level estimator (R222) and the passband bins (R231). -/

namespace Sys2Proof
namespace Machine

/-! ## The checks of the sample commands (R116, R334) -/

/-- A payload with a scalar that is not admitted, written out. -/
theorem samplesNotAdmitted_iff (s : State) (chunk : List (Word × Word)) :
    samplesNotAdmitted s chunk = true
      ↔ ∃ w ∈ chunk, ¬(Bin32.admitted s.par.spg.inMax w.1 = true ∧ Bin32.admitted s.par.spg.inMax w.2 = true) := by
  simp only [samplesNotAdmitted, notAdmitted, List.any_eq_true, Bool.or_eq_true, Bool.not_eq_true', not_and_or,
    Bool.not_eq_true]

theorem samplesNotAdmitted_eq_false {s : State} {chunk : List (Word × Word)}
    (h : ∀ w ∈ chunk, Bin32.admitted s.par.spg.inMax w.1 = true ∧ Bin32.admitted s.par.spg.inMax w.2 = true) :
    samplesNotAdmitted s chunk = false := by
  rw [Bool.eq_false_iff, Ne, samplesNotAdmitted_iff]
  exact fun ⟨w, hw, hbad⟩ => hbad (h w hw)

theorem admitted_iff (inMax x : Sc) :
    Bin32.admitted inMax x = true ↔ Bin32.isFinite x = true ∧ Bin32.mag x ≤ Bin32.mag inMax := by
  rw [Bin32.admitted, Bool.and_eq_true, decide_eq_true_iff]

theorem unitOf_eq_none {sel : BitVec 4} (h : 3 ≤ sel.toNat) : unitOf sel = none := by
  revert h; revert sel; decide

/-- Checks that pass stand aside; the first that fails raises its fault. -/
theorem guarded_pass {b : Bool} (hb : b = false) (f : FaultCode) (checks : List (Bool × FaultCode)) (s t : State) :
    guarded ((b, f) :: checks) s t = guarded checks s t := by rw [hb]; rfl

theorem guarded_fail {b : Bool} (hb : b = true) (f : FaultCode) (checks : List (Bool × FaultCode)) (s t : State) :
    guarded ((b, f) :: checks) s t = .next (raise f s) := by rw [hb]; rfl

theorem notOnPort_self {s : State} {p : Port} (h : s.cur = p) : notOnPort s p = false := by rw [notOnPort, h, bne_self_eq_false]

theorem badUnit_of_unitOf {sel : BitVec 4} {k : UnitId} (h : unitOf sel = some k) : badUnit sel = false := by
  rw [badUnit, h]; rfl

/-- Settles O27: on port 0 the port check stands aside, and the checks after it fail in their order. -/
theorem sampleCommandChecks : Obligations.SampleCommandChecks := by
  intro sel k tx chunk s hcur bad
  have hport := notOnPort_self hcur
  have hbad : bad → samplesNotAdmitted s chunk = true := by
    rintro ⟨w, hw, h⟩
    refine (samplesNotAdmitted_iff s chunk).mpr ⟨w, hw, fun hc => h ?_⟩
    obtain ⟨h1, h2⟩ := (admitted_iff _ _).mp hc.1
    obtain ⟨h3, h4⟩ := (admitted_iff _ _).mp hc.2
    exact ⟨h1, h2, h3, h4⟩
  have hne : ∀ {n : Nat}, chunk.length ≠ n → (chunk.length != n) = true := fun h => by simpa using h
  have heq : ∀ {n : Nat}, chunk.length = n → (chunk.length != n) = false := fun h => by simpa using h
  refine ⟨fun hsel => ?_, fun hk hlen => ?_, fun hk hlen hb => ?_, fun hlen => ?_, fun hlen hb => ?_⟩
  · have hu : badUnit sel = true := by rw [badUnit, unitOf_eq_none hsel]; rfl
    exact (guarded_pass hport ..).trans (guarded_fail hu ..)
  · simp only [exec, execSpgWrite, unitSel_of_unitOf hk]
    exact (guarded_pass hport ..).trans ((guarded_pass (badUnit_of_unitOf hk) ..).trans (guarded_fail (hne hlen) ..))
  · simp only [exec, execSpgWrite, unitSel_of_unitOf hk]
    exact (guarded_pass hport ..).trans ((guarded_pass (badUnit_of_unitOf hk) ..).trans
      ((guarded_pass (heq hlen) ..).trans (guarded_fail (hbad hb) ..)))
  · exact (guarded_pass hport ..).trans (guarded_fail (hne hlen) ..)
  · exact (guarded_pass hport ..).trans ((guarded_pass (heq hlen) ..).trans (guarded_fail (hbad hb) ..))

/-! ## SPG.WRITE (R146 to R148) -/

/-- SPG.WRITE whose checks pass replaces the selected unit by the written one. -/
theorem exec_spgWrite_next {sel : BitVec 4} {k : UnitId} {chunk : List (Word × Word)} {s : State} (hcur : s.cur = .iq)
    (hk : unitOf sel = some k) (hlen : chunk.length = (s.unit k).c) (hadm : samplesNotAdmitted s chunk = false) :
    exec (.spgWrite sel chunk) s = .next (s.setUnit k ((s.unit k).write s.par k (complexSamples chunk))) := by
  simp only [exec, execSpgWrite, unitSel_of_unitOf hk]
  refine guarded_next ?_
  simp [notOnPort_self hcur, badUnit_of_unitOf hk, hlen, hadm]

/-- A bin after an accumulation: the seed, or the weighted sum of the old value and the new power (R148). -/
theorem SpgUnit.accumulate_psd_getElem? (u : SpgUnit) {powers : List Sc} {j : Nat} {power : Sc} (hp : powers[j]? = some power)
    (hj : j < u.psd.length) :
    (u.accumulate powers).psd[j]? = some (if u.nt = 0 then power
      else Bin32.add (Bin32.mul u.gamma (u.psd.getD j 0)) (Bin32.mul u.alpha power)) := by
  unfold SpgUnit.accumulate
  split
  · exact hp
  · rw [List.getElem?_zipWith, hp, List.getElem?_eq_getElem hj, List.getD_eq_getElem _ _ hj]

/-- A bin after a chunk: the power accumulated is that of a DFT sum over the newest N samples (R18, R147). -/
theorem SpgUnit.write_psd_getElem? {u : SpgUnit} (p : Params) (k : UnitId) (chunk : List Cx) (hu : u.Shaped) (hn : u.n ≤ u.b)
    {j : Nat} (hj : j < u.n) :
    ∃ x : Cx, Bin32.DftOf ((u.write p k chunk).ring.drop (u.b - u.n)) j x
      ∧ (u.write p k chunk).psd[j]? = some (if u.nt = 0 then Bin32.normSq x
          else Bin32.add (Bin32.mul u.gamma (u.psd.getD j 0)) (Bin32.mul u.alpha (Bin32.normSq x))) := by
  obtain ⟨hring, hpsd⟩ := hu
  have hlen : ((u.write p k chunk).ring.drop (u.b - u.n)).length = u.n := by
    rw [List.length_drop, SpgUnit.write_ring_length, hring]; omega
  obtain ⟨x, hx, hdft⟩ := Bin32.dft_dftOf _ j (hlen.symm ▸ hj)
  refine ⟨x, hdft, ?_⟩
  have hpower : ((Bin32.dft ((u.write p k chunk).ring.drop (u.b - u.n))).map Bin32.normSq)[j]? = some (Bin32.normSq x) := by
    rw [List.getElem?_map, hx]; rfl
  exact SpgUnit.accumulate_psd_getElem? { u with ring := (u.write p k chunk).ring } hpower (hpsd.symm ▸ hj)

/-- Settles O23: the next state is the unit written, whose fields and bins are described one by one. -/
theorem spgWriteAccumulates : Obligations.SpgWriteAccumulates := by
  intro sel k chunk s hcur hk hlen hadm
  refine ⟨_, exec_spgWrite_next hcur hk hlen (samplesNotAdmitted_eq_false hadm), ?_⟩
  rw [State.unit_setUnit_same]
  refine ⟨rfl, rfl, rfl, rfl, rfl, rfl, rfl, rfl, ?_, fun hu hn j hj => ?_⟩
  · rw [SpgUnit.write_nt, bumpTransforms_toNat]
  · exact SpgUnit.write_psd_getElem? s.par k _ hu hn hj

/-! ## The spectrum emission (R196 to R198) -/

theorem gatePasses_iff (now last : BitVec 64) (period : Nat) :
    gatePasses now last period = true ↔ last.toNat + period < now.toNat := decide_eq_true_iff

/-- The two zeros of binary32. -/
theorem isZero_iff_bits (b : Sc) : Bin32.isZero b = true ↔ b = 0#32 ∨ b = 0x80000000#32 := by
  rw [Bin32.isZero, beq_iff_eq, ← BitVec.toNat_inj, ← BitVec.toNat_inj]
  simp only [BitVec.toNat_ofNat]
  omega

/-- The beta of R198 for each SPEC_BETA. -/
theorem betaZoom_eq (b : Sc) (z : Nat) :
    betaZoom b z
      = if b = 0#32 ∨ b = 0x80000000#32 then 0
        else if b = 0x3F800000#32 then 0x3F800000#32
        else Config.pow b (Bin32.ofRatio ((z : Int) + 1) 2) := by
  unfold betaZoom
  by_cases h0 : b = 0#32 ∨ b = 0x80000000#32
  · rw [if_pos h0, if_pos ((isZero_iff_bits b).mpr h0)]
  · rw [if_neg h0, if_neg (mt (isZero_iff_bits b).mp h0)]
    rfl

/-- The filter's new contents, bin by bin (R197). -/
theorem State.filteredSpectrum_getElem? (s : State) {v : List Sc} {i : Nat} {x : Sc} (hx : v[i]? = some x)
    (hi : i < s.specLpf.length) :
    (s.filteredSpectrum v)[i]? = some (if s.specLpfValid = true then
      Bin32.lpf (s.specLpf.getD i 0) x (betaZoom s.regs.specBeta s.regs.zoom.toNat) else x) := by
  unfold State.filteredSpectrum
  split
  · rw [List.getElem?_zipWith, hx, List.getElem?_eq_getElem hi, List.getD_eq_getElem _ _ hi]
  · exact hx

/-- Settles O35: the gate decides between no change and the filtered vector, which is described bin by bin. -/
theorem spectrumEmission : Obligations.SpectrumEmission := by
  refine ⟨fun s tx => ⟨fun hle => ?_, fun hlt => ?_⟩, by decide +kernel⟩
  · rcases s.updateSpectrum_cases tx with ⟨-, h⟩ | ⟨hg, -⟩
    · exact h
    · exact absurd ((gatePasses_iff ..).mp hg) (not_lt.mpr hle)
  · rcases s.updateSpectrum_cases tx with ⟨hg, -⟩ | ⟨-, h⟩
    · exact absurd ((gatePasses_iff ..).mpr hlt) (by rw [hg]; exact Bool.false_ne_true)
    · refine ⟨_, h, fun hlen => ?_⟩
      have hout := s.filteredSpectrum_length ((s.spectrum.getPsd s.par).map fun x => Bin32.add x s.par.feed.specCalDb)
        (by rw [List.length_map, hlen])
      refine ⟨hout, fun i hi => ?_⟩
      rw [hout] at hi
      have hget : ((s.spectrum.getPsd s.par).map fun x => Bin32.add x s.par.feed.specCalDb)[i]?
          = some (Bin32.add ((s.spectrum.getPsd s.par).getD i 0) s.par.feed.specCalDb) := by
        rw [List.getElem?_map, List.getElem?_eq_getElem (hlen ▸ hi), List.getD_eq_getElem _ _ (hlen ▸ hi)]; rfl
      rw [s.filteredSpectrum_getElem? hget hi, betaZoom_eq]
      rfl

/-! ## The level estimator (R222) -/

/-- Settles O38: the two cases of the estimator are those of the two auto bits. -/
theorem autolevelMovesFloor : Obligations.AutolevelMovesFloor := by
  intro s q f cand lo hi
  rcases s.autolevel_cases q with ⟨h1, h2, h⟩ | ⟨hbits, h⟩
  · rw [if_pos ⟨h1, h2⟩, h]
  · have hneg : ¬(s.regs.mode.getLsbD 3 = false ∧ s.regs.mode.getLsbD 4 = false) := by
      rintro ⟨h1, h2⟩
      rcases hbits with hb | hb
      · exact Bool.false_ne_true (h1.symm.trans hb)
      · exact Bool.false_ne_true (h2.symm.trans hb)
    rw [if_neg hneg, h, List.append_assoc]
    rfl

/-! ## The passband bins (R231, R232) -/

theorem clampBin_of_neg {n : Nat} {i : Int} (h : i < 0) : clampBin n i = 0 := by unfold clampBin; omega

theorem clampBin_of_mem {n : Nat} {i : Int} (h0 : 0 ≤ i) (h1 : i < n) : (clampBin n i : Int) = i := by unfold clampBin; omega

theorem clampBin_of_ge {n : Nat} {i : Int} (h : (n : Int) ≤ i) : clampBin n i = n - 1 := by unfold clampBin; omega

theorem clampBin_le (n : Nat) (i : Int) : clampBin n i ≤ n - 1 := by unfold clampBin; omega

theorem clampBin_mono (n : Nat) {i j : Int} (h : i ≤ j) : clampBin n i ≤ clampBin n j := by unfold clampBin; omega

/-- Settles O39: the clamp of a bin, and the truncated quotient rising with the frequency. -/
theorem passbandBins : Obligations.PassbandBins := by
  intro p hn hfs
  refine ⟨fun f => ⟨fun h => clampBin_of_neg h, fun h0 h1 => clampBin_of_mem h0 h1, fun h => clampBin_of_ge h⟩,
    fun f => clampBin_le .., fun f g hfg => clampBin_mono _ ?_, ?_, fun r q => ?_⟩
  · have hmul : f * p.spg.nWf ≤ g * p.spg.nWf := Int.mul_le_mul_of_nonneg_right hfg (Int.natCast_nonneg _)
    exact Int.add_le_add_left (Int.tdiv_le_tdiv (by omega) hmul) _
  · have h := clampBin_of_mem (n := p.spg.nWf) (i := (p.spg.nWf / 2 : Nat)) (by omega) (by omega)
    rw [wfBin, Int.zero_mul, Int.zero_tdiv, Int.add_zero]
    exact_mod_cast h
  · simp only [passbandPeak, min_comm, max_comm]

end Machine
end Sys2Proof
end

section
/-! PROOFS. The CW decoder (R267 to R276, R279): the queue of levels, the threshold update and the end of a block. -/

namespace Sys2Proof
namespace Bin32

theorem minNum_eq {a b : Sc} (ha : isNan a = false) (hb : isNan b = false) :
    minNum a b = if orderKey b < orderKey a then b else a := by simp [minNum, ha, hb, lt]

/-- The lesser of two scalars that are no NaN is one of them and not above either. -/
theorem minNum_spec {a b : Sc} (ha : isNan a = false) (hb : isNan b = false) :
    (minNum a b = a ∨ minNum a b = b) ∧ orderKey (minNum a b) ≤ orderKey a ∧ orderKey (minNum a b) ≤ orderKey b := by
  rw [minNum_eq ha hb]
  split
  · exact ⟨.inr rfl, by omega, le_rfl⟩
  · exact ⟨.inl rfl, le_rfl, by omega⟩

theorem foldl_minNum_spec (xs : List Sc) : ∀ a : Sc, isNan a = false → (∀ x ∈ xs, isNan x = false) →
    xs.foldl minNum a ∈ a :: xs ∧ ∀ x ∈ a :: xs, orderKey (xs.foldl minNum a) ≤ orderKey x := by
  induction xs with
  | nil => simp
  | cons b xs ih =>
    intro a ha hxs
    obtain ⟨hb, hxs⟩ := List.forall_mem_cons.mp hxs
    obtain ⟨hpick, hlea, hleb⟩ := minNum_spec ha hb
    obtain ⟨hmem, hle⟩ := ih (minNum a b) (by rcases hpick with h | h <;> rw [h] <;> assumption) hxs
    obtain ⟨hlem, hlexs⟩ := List.forall_mem_cons.mp hle
    rw [List.foldl_cons, List.forall_mem_cons, List.forall_mem_cons]
    refine ⟨?_, hlem.trans hlea, hlem.trans hleb, hlexs⟩
    rw [List.mem_cons] at hmem
    rw [List.mem_cons, List.mem_cons]
    rcases hmem with h | h
    · exact hpick.imp h.trans fun hp => .inl (h.trans hp)
    · exact .inr (.inr h)

/-- The least of a list without NaNs is an element of it, and no element is below it. -/
theorem minOf_spec (l : List Sc) (hl : l ≠ []) (hn : ∀ x ∈ l, isNan x = false) :
    minOf l ∈ l ∧ ∀ x ∈ l, orderKey (minOf l) ≤ orderKey x := by
  cases l with
  | nil => exact absurd rfl hl
  | cons a xs =>
    obtain ⟨ha, hxs⟩ := List.forall_mem_cons.mp hn
    exact foldl_minNum_spec xs a ha hxs

end Bin32

namespace Machine

/-! ## The queue of levels (R267 to R269) -/

/-- Settles O50: the level is the floored mean of a window's sum, and the three cases of a hop are those of the queue. -/
theorem rmsQueueDelaysLevels : Obligations.RmsQueueDelaysLevels := by
  refine ⟨fun c p r d => rfl, fun c p => ⟨fun hw => ?_, fun hne => ?_, fun he hlt => ?_, fun x older he hd hfull => ?_⟩⟩
  · exact ⟨_, Bin32.sum_sumOf .rmsWindow c.rwin hw, rfl⟩
  · rcases c.rmsHop_cases p with ⟨-, h⟩ | ⟨h, -⟩ | ⟨h, -⟩
    · exact h
    · exact absurd h hne
    · exact absurd h hne
  · rcases c.rmsHop_cases p with ⟨h, -⟩ | ⟨-, h, -⟩ | ⟨-, -, h⟩
    · exact absurd he h
    · exact absurd h hlt.ne
    · exact h
  · rcases c.rmsHop_cases p with ⟨h, -⟩ | ⟨-, -, h⟩ | ⟨-, h, -⟩
    · exact absurd he h
    · rw [h, hd]; rfl
    · exact absurd hfull h

/-! ## The threshold update (R273 to R276) -/

theorem CwState.updateThresholds_pulse (c : CwState) (p : Params) (r : CfgRegs) (signal : Bool) :
    (c.updateThresholds p r signal).thresholdPulse
      = p.thresholdPulse r.cwSnr (c.updateThresholds p r signal).peakFiltered (c.updateThresholds p r signal).noiseFiltered :=
  rfl

theorem thresholdPulse_max {p : Params} (h : p.cw.cwThrFormula = .max) (snr pf nf : Sc) :
    p.thresholdPulse snr pf nf = Bin32.maxNum (Bin32.add nf snr) (Bin32.sub pf p.cw.cwPeakMarginDb) := by
  rw [Params.thresholdPulse, h]

theorem thresholdPulse_sum {p : Params} (h : p.cw.cwThrFormula = .sum) (snr pf nf : Sc) :
    p.thresholdPulse snr pf nf
      = Bin32.add (Bin32.add nf snr) (Bin32.maxNum (Bin32.add nf snr) (Bin32.sub pf p.cw.cwPeakMarginDb)) := by
  rw [Params.thresholdPulse, h]

/-! ## The end of a block (R267 step 3, R270 to R272, R279) -/

theorem blockPowers_length {p : Params} {blk : List Cx} (h : blk.length = p.cw.fftCw) :
    (blockPowers p blk).length = p.cw.fftCw := by
  simp [blockPowers, Rom.cwWindow, h]

/-- A shifted bin of the block's power spectrum is the power of a DFT sum over the windowed block (R18, R270). -/
theorem blockPowers_getElem? {p : Params} {blk : List Cx} (h : blk.length = p.cw.fftCw) {i : Nat} (hi : i < p.cw.fftCw) :
    ∃ y : Cx, Bin32.DftOf (List.zipWith Bin32.scale (Rom.cwWindow p) blk)
        ((i + (p.cw.fftCw - p.cw.fftCw / 2)) % p.cw.fftCw) y
      ∧ (blockPowers p blk)[i]? = some (Bin32.normSq y) := by
  have hlen : (List.zipWith Bin32.scale (Rom.cwWindow p) blk).length = p.cw.fftCw := by simp [Rom.cwWindow, h]
  have hk : (i + (p.cw.fftCw - p.cw.fftCw / 2)) % p.cw.fftCw
      < (List.zipWith Bin32.scale (Rom.cwWindow p) blk).length := (Nat.mod_lt _ (by omega)).trans_eq hlen.symm
  obtain ⟨y, hy, hdft⟩ := Bin32.dft_dftOf _ _ hk
  refine ⟨y, hdft, ?_⟩
  rw [blockPowers, Bin32.shift_map, List.getElem?_map, Bin32.shift_getElem? _ _ (by rwa [Bin32.dft_length, hlen]),
    Bin32.dft_length, hlen, hy]
  rfl

/-- The window of R271 around the peak holds the peak, so that it is not empty. -/
theorem slice_peak_ne_nil (p : Params) {q : List Sc} (hq : q.length = p.cw.fftCw) (hn : 1 ≤ p.cw.fftCw) (hw : Nat) :
    slice q (peakBin p q - hw) (min (peakBin p q + hw) (p.cw.fftCw - 1)) ≠ [] := by
  obtain ⟨-, hpeak⟩ := Bin32.argmaxScan_range q 0 (p.cw.fftCw - 1)
  have hlt : peakBin p q < p.cw.fftCw := by
    rw [peakBin, Bin32.argmax_eq_scan, Nat.sub_zero]; omega
  rw [← List.length_pos_iff, slice, List.length_take, List.length_drop, hq]
  omega

/-- The regime of R272 from two sums of the block's powers: the window around the peak, and all of them. -/
theorem signalPresent_sums (p : Params) {q : List Sc} (hq : q.length = p.cw.fftCw) (hn : 1 ≤ p.cw.fftCw) :
    ∃ pIn pAll : Sc,
      Bin32.SumOf (slice q (peakBin p q - p.peakWidth / 2) (min (peakBin p q + p.peakWidth / 2) (p.cw.fftCw - 1))) pIn
        ∧ Bin32.SumOf q pAll ∧ signalPresent p q (peakBin p q) = Bin32.lt (Bin32.sub pAll pIn) pIn :=
  ⟨_, _, Bin32.sum_sumOf .cwInWindow _ (slice_peak_ne_nil p hq hn _),
    Bin32.sum_sumOf .cwTotal _ (List.ne_nil_of_length_pos (by omega)), rfl⟩

theorem CwState.tuneReport_on {c : CwState} (h : c.peakOn = true) {p : Params} {r : CfgRegs} {imax : Nat} :
    c.tuneReport p r imax = ({ c with peakHz := tuneHz p r imax }, [.plain .cwTune [tuneHz p r imax]]) := if_pos h

theorem CwState.tuneReport_off {c : CwState} (h : c.peakOn = false) {p : Params} {r : CfgRegs} {imax : Nat} :
    c.tuneReport p r imax = (c, []) := if_neg (Bool.eq_false_iff.mp h)

/-- The end of a full block: the thresholds for the regime, the count restarted, and the tone reported while the flag holds. -/
theorem CwState.blockEnd_full {c : CwState} {p : Params} (r : CfgRegs) (h : c.blkN = p.cw.fftCw) :
    c.blockEnd p r
      = (let q := blockPowers p c.blk
         let c1 := c.updateThresholds p r (signalPresent p q (peakBin p q))
         if c.peakOn then
           ({ c1 with blkN := 0, peakHz := tuneHz p r (peakBin p q) }, [.plain .cwTune [tuneHz p r (peakBin p q)]])
         else ({ c1 with blkN := 0 }, [])) := by
  have hon : ∀ signal, (c.updateThresholds p r signal).peakOn = c.peakOn := fun _ => rfl
  rw [CwState.blockEnd, if_pos h]
  dsimp only
  cases hp : c.peakOn
  · rw [CwState.tuneReport_off ((hon _).trans hp)]; rfl
  · rw [CwState.tuneReport_on ((hon _).trans hp)]; rfl

/-- Settles O47: the update by regime, the extremes of a queue, and the end of a full block on its power spectrum. -/
theorem thresholdUpdateByRegime : Obligations.ThresholdUpdateByRegime := by
  refine ⟨fun p r c signal => ?_, fun dly hne hnan => ?_, fun p r c => ⟨fun hne => ?_, fun he hlen hn _ => ?_⟩⟩
  · refine ⟨fun hs => ?_, fun hs => ?_, fun hf => ?_, fun hf => ?_, rfl, rfl⟩
    · rw [hs]; exact ⟨rfl, rfl⟩
    · rw [hs]; exact ⟨rfl, rfl⟩
    · rw [CwState.updateThresholds_pulse, thresholdPulse_max hf]
    · rw [CwState.updateThresholds_pulse, thresholdPulse_sum hf]
  · obtain ⟨hmax, hle⟩ := Bin32.maxOf_spec dly hne hnan
    obtain ⟨hmin, hge⟩ := Bin32.minOf_spec dly hne hnan
    exact ⟨hmax, hmin, fun x hx => ⟨(Bin32.le_iff (hnan x hx) (hnan _ hmax)).mpr (hle x hx),
      (Bin32.le_iff (hnan _ hmin) (hnan x hx)).mpr (hge x hx)⟩⟩
  · rw [CwState.blockEnd, if_neg hne]
  · have hq := blockPowers_length hlen
    obtain ⟨pIn, pAll, hin, hall, hsig⟩ := signalPresent_sums p hq hn
    rw [Params.peakWidth_eq] at hin
    refine ⟨blockPowers p c.blk, pIn, pAll, hq, fun i hi => blockPowers_getElem? hlen hi, hin, hall, ?_⟩
    rw [← hsig]
    exact CwState.blockEnd_full r he

end Machine
end Sys2Proof
end

section
/-! PROOFS. The weights of the units through every step (R41, R153), and which command writes which part of the state (R31). -/

namespace Sys2Proof
namespace Machine

/-! ## The weights of the units (R41, R153) -/

/-- SPG.SETALPHA's two modes give a unit the weights of R41. -/
theorem SpgUnit.setAlpha_weighted (u : SpgUnit) {v : Sc} (h : alphaLegal v = true) : (u.setAlpha v).Weighted := by
  rcases u.setAlpha_cases v with ⟨-, hset⟩ | ⟨hne, hset⟩ <;> rw [hset]
  · exact ⟨nofun, fun _ => ⟨rfl, rfl⟩⟩
  · have hunit : Bin32.inUnit v = true := by simpa [alphaLegal, hne] using h
    exact ⟨fun _ => ⟨hunit, rfl⟩, nofun⟩

theorem SpgUnit.Weighted.clear {u : SpgUnit} (h : u.Weighted) : u.clear.Weighted := h

theorem SpgUnit.Weighted.write {u : SpgUnit} (h : u.Weighted) (p : Params) (k : UnitId) (x : List Cx) :
    (u.write p k x).Weighted := h

theorem State.WeightsHold.unit {s : State} (hs : s.WeightsHold) (k : UnitId) : (s.unit k).Weighted := by
  obtain ⟨h0, h1, h2⟩ := hs
  cases k
  · exact h0
  · exact h1
  · exact h2

theorem State.WeightsHold.setUnit {s : State} (hs : s.WeightsHold) (k : UnitId) {u : SpgUnit} (hu : u.Weighted) :
    (s.setUnit k u).WeightsHold := by
  obtain ⟨h0, h1, h2⟩ := hs
  cases k
  · exact ⟨hu, h1, h2⟩
  · exact ⟨h0, hu, h2⟩
  · exact ⟨h0, h1, hu⟩

theorem State.WeightsHold.emit {s : State} (hs : s.WeightsHold) (p : Port) (e : Event) : (s.emit p e).WeightsHold := by
  cases p <;> exact hs

theorem State.WeightsHold.processSamples {s : State} (hs : s.WeightsHold) (buf : List Cx) (tx : Bool) :
    (s.processSamples buf tx).WeightsHold := by
  obtain ⟨h0, h1, h2⟩ := hs
  refine ⟨h0.write .., h1.write .., ?_⟩
  simp only [State.processSamples]
  split
  · exact h2.write ..
  · exact h2

/-- A command writes to the units' contents (ring, accumulator, count, chunk size) and only SPG.SETALPHA to their weights. -/
theorem State.WeightsHold.effect {s : State} (hs : s.WeightsHold) {i : Instr} (hp : passes i s) : (effect i s).WeightsHold := by
  cases i
  case nop => exact hs
  case cfgWr reg value => exact hs
  case cfgRd reg => exact hs.emit ..
  case dspRst mask =>
    simp only [Machine.effect]
    cases mask.getLsbD 0 <;> cases mask.getLsbD 1 <;> exact hs
  case zoom z => exact hs
  case cwTone hz => exact hs
  case spgWrite u chunk => exact hs.setUnit _ ((hs.unit _).write ..)
  case spgGetpsd u => exact hs.emit ..
  case spgSetalpha u v =>
    obtain ⟨-, -, -, hv⟩ := hp
    exact hs.setUnit _ (SpgUnit.setAlpha_weighted _ hv)
  case spgClear u => exact hs.setUnit _ (hs.unit _).clear
  case spgReset u => exact hs.setUnit _ (hs.unit _).clear
  case dspSamples tx buf =>
    obtain ⟨d, o, hf, -⟩ := s.frame_frame tx (complexSamples buf)
    simp only [Machine.effect, hf]
    exact hs.processSamples ..
  case audSamples ws =>
    obtain ⟨hd, acc, dec, cw, es, hf⟩ := State.audioFold_frame ws s
    simp only [Machine.effect, hf]
    exact hs

theorem resetOf_weightsHold {p : Params} (hv : p.valid = true) (rest : List Turn) :
    State.WeightsHold { State.resetOf p with agenda := rest } := by
  obtain ⟨-, -, -, -, -, -, -, -, -, -, -, -, -, -, -, -, h0, h1, h2⟩ := Params.valid_parts hv
  exact ⟨SpgUnit.resetOf_weighted _ _ _ h0, SpgUnit.resetOf_weighted _ _ _ h1, SpgUnit.resetOf_weighted _ _ _ h2⟩

/-- Settles O57: the weights are a predicate that `step_keeps` carries through a step; valid parameters give the reset its
initial weights. -/
theorem stepKeepsWeights : Obligations.StepKeepsWeights := by
  intro s t hv hs h
  refine step_keeps (P := State.WeightsHold) h (fun u hu => ?_) (fun _ _ hu => hu) (fun _ _ hp hu => hu.effect hp)
    fun rest => resetOf_weightsHold hv rest
  rw [hu]
  exact hs

/-! ## Who writes what (R31) -/

/-- No command but CFG.WR, ZOOM and CW.TONE has an effect on the configuration registers. -/
theorem effect_regs (i : Instr) (s : State) :
    (effect i s).regs = s.regs ∨ (∃ r w, i = .cfgWr r w) ∨ (∃ z, i = .zoom z) ∨ ∃ f, i = .cwTone f := by
  cases i
  case cfgWr reg value => exact .inr (.inl ⟨reg, value, rfl⟩)
  case zoom z => exact .inr (.inr (.inl ⟨z, rfl⟩))
  case cwTone hz => exact .inr (.inr (.inr ⟨hz, rfl⟩))
  case dspRst mask =>
    left
    simp only [effect]
    cases mask.getLsbD 0 <;> cases mask.getLsbD 1 <;> rfl
  case dspSamples tx buf =>
    obtain ⟨d, o, hf, -⟩ := s.frame_frame tx (complexSamples buf)
    exact .inl (by rw [effect, hf]; rfl)
  case audSamples ws =>
    obtain ⟨hd, acc, dec, cw, es, hf⟩ := State.audioFold_frame ws s
    exact .inl (by rw [effect, hf])
  all_goals exact .inl (by simp [effect])

/-- Settles O51: a fault writes no register, and an effect only those of the three commands. -/
theorem onlyConfigCommandsWriteRegisters : Obligations.OnlyConfigCommandsWriteRegisters := by
  intro i s t hx hne
  rcases exec_cases i s with ⟨f, -, he⟩ | ⟨-, he⟩ <;> rw [he] at hx <;> cases hx
  · exact absurd rfl hne
  · exact (effect_regs i s).resolve_left hne

/-- The IQ domain: DSP.RST and ZOOM may write it from any port, every other writer has passed the check for port IQ. -/
theorem effect_sameIq {i : Instr} {s : State} (hp : passes i s) :
    SameIq s (effect i s) ∨ (∃ m, i = .dspRst m) ∨ (∃ z, i = .zoom z) ∨ s.cur = .iq := by
  cases i
  case nop => exact .inl (by simp [effect, SameIq])
  case cfgWr reg value => exact .inl (by simp [effect, SameIq])
  case cfgRd reg => exact .inl (by simp [effect, SameIq])
  case dspRst mask => exact .inr (.inl ⟨mask, rfl⟩)
  case zoom z => exact .inr (.inr (.inl ⟨z, rfl⟩))
  case cwTone hz => exact .inl (by simp [effect, SameIq])
  case spgGetpsd u => exact .inl (by simp [effect, SameIq])
  case audSamples ws =>
    obtain ⟨hd, acc, dec, cw, es, hf⟩ := State.audioFold_frame ws s
    exact .inl (by simp [effect, hf, SameIq])
  case spgWrite u chunk => exact .inr (.inr (.inr hp.1))
  case spgSetalpha u v => exact .inr (.inr (.inr hp.1))
  case spgClear u => exact .inr (.inr (.inr hp.1))
  case spgReset u => exact .inr (.inr (.inr hp.1))
  case dspSamples tx buf => exact .inr (.inr (.inr hp.1))

/-- The CW domain: DSP.RST and CW.TONE may write it from any port, AUD.SAMPLES has passed the check for port AUD. -/
theorem effect_sameCw {i : Instr} {s : State} (hp : passes i s) :
    SameCw s (effect i s) ∨ (∃ m, i = .dspRst m) ∨ (∃ f, i = .cwTone f) ∨ s.cur = .aud := by
  cases i
  case dspRst mask => exact .inr (.inl ⟨mask, rfl⟩)
  case cwTone hz => exact .inr (.inr (.inl ⟨hz, rfl⟩))
  case audSamples ws => exact .inr (.inr (.inr hp))
  case dspSamples tx buf =>
    obtain ⟨d, o, hf, -⟩ := s.frame_frame tx (complexSamples buf)
    refine .inl ?_
    rw [effect, hf]
    exact ⟨rfl, rfl, rfl, rfl, rfl⟩
  all_goals exact .inl (by simp [effect, SameCw])

/-- Settles O52: a fault writes no domain; the two effect lemmas name the writers. -/
theorem domainsHaveTheirWriters : Obligations.DomainsHaveTheirWriters := by
  intro i s t hx
  rcases exec_cases i s with ⟨f, -, he⟩ | ⟨hp, he⟩ <;> rw [he] at hx <;> cases hx
  · exact ⟨fun h => absurd (by simp [SameIq]) h, fun h => absurd (by simp [SameCw]) h⟩
  · exact ⟨(effect_sameIq hp).resolve_left, (effect_sameCw hp).resolve_left⟩

end Machine
end Sys2Proof
end

section
/-! PROOFS. The words of a well-formed command decode to it, whatever follows (R111 to R116, R120), and a port's turn runs it
(R33, R90); words that arrive on a running and on a halted block (R111, R331). -/

namespace Sys2Proof

/-! ## Headers of the opcode map (R112, R115, R116) -/

/-- A mask over a header's opcode, its reserved bits 19:17 and the given parts of its other fields (R115). -/
def headerMask (unit : BitVec 4) (tx : Bool) (arg : BitVec 16) : Word :=
  0xFF#8 ++ unit ++ 7#3 ++ BitVec.ofBool tx ++ arg

/-- Masked, a built header is the header of its masked fields: no reserved bit is set (R112, R116). -/
theorem header_and_headerMask (o : BitVec 8) (u mu : BitVec 4) (t mt : Bool) (a ma : BitVec 16) :
    header o u t a &&& headerMask mu mt ma = header o (u &&& mu) (t && mt) (a &&& ma) := by
  have ho : o &&& 0xFF#8 = o := BitVec.and_allOnes
  have h : header o u t a &&& headerMask mu mt ma
      = (o &&& 0xFF#8) ++ (u &&& mu) ++ (0#3 &&& 7#3) ++ (BitVec.ofBool t &&& BitVec.ofBool mt) ++ (a &&& ma) := by
    rw [← BitVec.and_append, ← BitVec.and_append, ← BitVec.and_append, ← BitVec.and_append]
    rfl
  rw [h, ho, BitVec.ofBool_and_ofBool]
  rfl

section
variable {o : BitVec 8} {u : BitVec 4} {t : Bool} {a : BitVec 16} {payload : List Word} {i : Instr} {r : OpRow}

/-- A header of a row of R115 whose fields are zero where the row's mask looks, with the payload it calls for, decodes to what
the row's operands assemble to, whatever follows. -/
theorem decode_header (mu : BitVec 4) (mt : Bool) (ma : BitVec 16) (hr : (opcodeMap.find? fun r => r.opc == o) = some r)
    (hmask : r.mask = headerMask mu mt ma) (hmatch : r.matchBits = header o 0 false 0)
    (hu : u &&& mu = 0) (ht : (t && mt) = false) (ha : a &&& ma = 0)
    (hl : payload.length + 1 = r.fixedWords + r.perSample * a.toNat) (hi : assemble (header o u t a) payload = some i)
    (more : List Word) :
    decode (header o u t a :: payload ++ more) = .ok i ∧ commandLength (header o u t a) = payload.length + 1 :=
  decode_of_row (by rw [opcodeRow, hdrOpc_header]; exact hr) (by rw [hmask, header_and_headerMask, hmatch, hu, ht, ha])
    (by rw [hdrArg_header]; exact hl) hi

/-- The same for a row whose length does not depend on ARG (R113). -/
theorem decode_header_fixed (mu : BitVec 4) (mt : Bool) (ma : BitVec 16)
    (hr : (opcodeMap.find? fun r => r.opc == o) = some r)
    (hmask : r.mask = headerMask mu mt ma) (hmatch : r.matchBits = header o 0 false 0)
    (hu : u &&& mu = 0) (ht : (t && mt) = false) (ha : a &&& ma = 0)
    (hl : payload.length + 1 = r.fixedWords) (h0 : r.perSample = 0) (hi : assemble (header o u t a) payload = some i)
    (more : List Word) :
    decode (header o u t a :: payload ++ more) = .ok i ∧ commandLength (header o u t a) = payload.length + 1 :=
  decode_header mu mt ma hr hmask hmatch hu ht ha (by rw [h0, Nat.zero_mul]; exact hl) hi more

end

/-! ## Every well-formed command (R114, R119, R120) -/

/-- The words of a well-formed command decode to it whatever follows, and its header calls for exactly them. Row by row of R115:
the fields its mask looks at, the zeros the encoder writes there, the length, and the operands read back. -/
theorem decode_encode {i : Instr} (hw : i.wellFormed = true) (more : List Word) :
    decode (encode i ++ more) = .ok i ∧ commandLength ((encode i).headD 0) = (encode i).length := by
  cases i
  case nop => exact decode_header_fixed 0xF true 0xFFFF rfl rfl rfl rfl rfl rfl rfl rfl rfl more
  case cfgWr reg value =>
    exact decode_header_fixed 0xF true 0 rfl rfl rfl rfl rfl BitVec.and_zero rfl rfl (by simp [assemble]) more
  case cfgRd reg =>
    exact decode_header_fixed 0xF true 0 rfl rfl rfl rfl rfl BitVec.and_zero rfl rfl (by simp [assemble]) more
  case dspRst mask =>
    have hm : ∀ m : BitVec 2, m.setWidth 16 &&& 0xFFFC#16 = 0 := by decide
    exact decode_header_fixed 0xF true 0xFFFC rfl rfl rfl rfl rfl (hm mask) rfl rfl (by simp [assemble]) more
  case zoom z =>
    exact decode_header_fixed 0xF true 0 rfl rfl rfl rfl rfl BitVec.and_zero rfl rfl (by simp [assemble]) more
  case cwTone hz =>
    exact decode_header_fixed 0xF true 0 rfl rfl rfl rfl rfl BitVec.and_zero rfl rfl (by simp [assemble]) more
  case spgWrite u chunk =>
    have hn := Laws.EncodedLength.count_toNat (of_decide_eq_true hw)
    have hl : (sampleWords chunk).length + 1 = 1 + 2 * (BitVec.ofNat 16 chunk.length).toNat := by
      rw [hn, sampleWords_length, Nat.add_comm]
    exact decode_header 0 true 0 rfl rfl rfl BitVec.and_zero rfl BitVec.and_zero hl (by simp [assemble]) more
  case spgGetpsd u =>
    exact decode_header_fixed 0 true 0xFFFF rfl rfl rfl BitVec.and_zero rfl rfl rfl rfl (by simp [assemble]) more
  case spgSetalpha u v =>
    exact decode_header_fixed 0 true 0xFFFF rfl rfl rfl BitVec.and_zero rfl rfl rfl rfl (by simp [assemble]) more
  case spgClear u =>
    exact decode_header_fixed 0 true 0xFFFF rfl rfl rfl BitVec.and_zero rfl rfl rfl rfl (by simp [assemble]) more
  case spgReset u =>
    exact decode_header_fixed 0 true 0xFFFF rfl rfl rfl BitVec.and_zero rfl rfl rfl rfl (by simp [assemble]) more
  case dspSamples tx buf =>
    have hn := Laws.EncodedLength.count_toNat (of_decide_eq_true hw)
    have hl : (sampleWords buf).length + 1 = 1 + 2 * (BitVec.ofNat 16 buf.length).toNat := by
      rw [hn, sampleWords_length, Nat.add_comm]
    exact decode_header 0xF false 0 rfl rfl rfl rfl (Bool.and_false tx) BitVec.and_zero hl (by simp [assemble]) more
  case audSamples samples =>
    have hn := Laws.EncodedLength.count_toNat (of_decide_eq_true hw)
    have hl : samples.length + 1 = 1 + 1 * (BitVec.ofNat 16 samples.length).toNat := by
      rw [hn, Nat.one_mul, Nat.add_comm]
    exact decode_header 0xF true 0 rfl rfl rfl rfl rfl BitVec.and_zero hl (by simp [assemble]) more

namespace Machine

/-! ## A port's turn (R33, R90, R111, R331) -/

/-- Taking a turn leaves the streams. -/
@[simp] theorem State.stream_withAgenda (s : State) (rest : List Turn) (p : Port) :
    State.stream { s with agenda := rest } p = s.stream p := by cases p <;> rfl

@[simp] theorem State.readyWords_withAgenda (s : State) (rest : List Turn) (p : Port) :
    State.readyWords { s with agenda := rest } p = s.readyWords p := by
  rw [State.readyWords, State.stream_withAgenda, State.readyWords]

theorem step_of_port {s : State} {p : Port} {rest : List Turn} (ha : s.agenda = .port p :: rest) :
    step s = runPort p { s with agenda := rest } := by simp only [step, ha]

theorem step_of_arrive {s : State} {p : Port} {w : Word} {rest : List Turn} (ha : s.agenda = .arrive p w :: rest) :
    step s = .next (State.arriveWord { s with agenda := rest } p w) := by simp only [step, ha]

/-- With a well-formed command at the front of its stream a port is ready, with exactly the command's words. -/
theorem readyWords_of_encode {s : State} {p : Port} {i : Instr} {more : List Word} (hw : i.wellFormed = true)
    (hs : s.stream p = encode i ++ more) : s.readyWords p = some (encode i) := by
  obtain ⟨-, hlen⟩ := decode_encode hw []
  have hpos := commandLength_pos ((encode i).headD 0)
  cases he : encode i with
  | nil => rw [hlen, he] at hpos; cases hpos
  | cons h payload =>
    rw [he] at hs hlen
    have hc : commandLength h = (h :: payload).length := hlen
    simp only [State.readyWords, hs, List.cons_append, hc]
    rw [← List.cons_append, if_neg (by rw [List.length_append]; omega), List.take_left]

/-- The turn of a running block's port with a ready command: exec of the command, its words consumed. -/
theorem step_port_of_decode {s : State} {p : Port} {rest : List Turn} {ws : List Word} {i : Instr}
    (ha : s.agenda = .port p :: rest) (hr : s.run = .run) (hw : s.readyWords p = some ws) (hd : decode ws = .ok i) :
    step s = exec i (State.consume { s with agenda := rest } p ws.length) := by
  have hready : State.readyWords { s with agenda := rest } p = some ws := (s.readyWords_withAgenda rest p).trans hw
  have hissue : State.issue { s with agenda := rest } p = .command i (State.consume { s with agenda := rest } p ws.length) := by
    rcases issue_cases { s with agenda := rest } p with ⟨-, h | h⟩ | ⟨-, vs, h, ⟨j, hj, he⟩ | ⟨e, hj, -⟩⟩
    · cases hr.symm.trans h
    · cases hready.symm.trans h
    · cases hready.symm.trans h
      cases hd.symm.trans hj
      exact he
    · cases hready.symm.trans h
      cases hd.symm.trans hj
  rw [step_of_port ha, runPort, hissue]

/-- Settles O5: the port is ready with the encoder's words, they decode to the command, and consuming them leaves the rest. -/
theorem stepRunsEncodedCommand : Obligations.StepRunsEncodedCommand := by
  intro s p rest i more hw ha hr hs
  obtain ⟨hdec, -⟩ := decode_encode hw []
  rw [List.append_nil] at hdec
  rw [step_port_of_decode ha hr (readyWords_of_encode hw hs) hdec, State.consume, State.stream_withAgenda, hs, List.drop_left]

/-! ## Words that arrive, and the halted block (R111, R331) -/

theorem arriveWord_run {s : State} (h : s.run = .run) (p : Port) (w : Word) :
    s.arriveWord p w = s.setStream p (s.stream p ++ [w]) := by simp [State.arriveWord, State.halted, h]

theorem arriveWord_fault {s : State} (h : s.run = .fault) (p : Port) (w : Word) : s.arriveWord p w = s := by
  simp [State.arriveWord, State.halted, h]

theorem issue_fault {s : State} (h : s.run = .fault) (p : Port) : s.issue p = .idle := by
  simp [State.issue, State.halted, h]

/-- Settles O8: an arriving word joins the stream of a running block alone; a halted block's port has nothing to issue. -/
theorem haltedBlockRunsNothing : Obligations.HaltedBlockRunsNothing := by
  intro s p w rest
  refine ⟨fun hr ha => ?_, fun hf ha => ?_, fun hf ha => ?_⟩
  · rw [step_of_arrive ha, arriveWord_run (s := { s with agenda := rest }) hr, State.stream_withAgenda]
  · rw [step_of_port ha, runPort, issue_fault (s := { s with agenda := rest }) hf]
  · rw [step_of_arrive ha, arriveWord_fault (s := { s with agenda := rest }) hf]

end Machine
end Sys2Proof
end

section
/-! PROOFS. The register map and its values after reset (R35 to R38), and the sizes and the delay line on the two sample paths
(R46, R54, R192, R261 to R263). -/

namespace Sys2Proof
namespace Machine

/-! ## The register map (R35 to R38) -/

/-- TIME_LO and TIME_HI are the halves of the time (R35, R345). -/
theorem timeWords_eq (s : State) :
    s.timeMs.extractLsb' 0 32 = BitVec.ofNat 32 s.timeMs.toNat
      ∧ s.timeMs.extractLsb' 32 32 = BitVec.ofNat 32 (s.timeMs.toNat / 2 ^ 32) := by
  constructor
  · rfl
  · rw [← Nat.shiftRight_eq_div_pow]
    rfl

/-- The four registers of a unit stand from 0x20 + 4u on, in the order of `SpgUnit.reg` (R35). -/
theorem State.readReg_unit (s : State) (k : UnitId) :
    let b := BitVec.ofNat 16 (0x20 + 4 * k.bits.toNat)
    s.readReg b = some ((s.unit k).reg 0) ∧ s.readReg (b + 1) = some ((s.unit k).reg 1)
      ∧ s.readReg (b + 2) = some ((s.unit k).reg 2) ∧ s.readReg (b + 3) = some ((s.unit k).reg 3) := by
  cases k <;> exact ⟨rfl, rfl, rfl, rfl⟩

theorem State.readReg_eq_none (s : State) (i : BitVec 16) :
    s.readReg i = none ↔ (0x1B ≤ i.toNat ∧ i.toNat ≤ 0x1F) ∨ 0x2C ≤ i.toNat := by
  rw [← Option.not_isSome_iff_eq_none, s.readReg_isSome, populated]
  simp only [Bool.or_eq_true, Bool.and_eq_true, decide_eq_true_eq]
  omega

/-- Settles O18: STATUS, the halves of the time and each unit's SPG_CTL are assembled; the other registers are read as stored. -/
theorem registerMap : Obligations.RegisterMap := by
  intro s
  obtain ⟨hlo, hhi⟩ := timeWords_eq s
  refine ⟨?_, fun u b hb => ?_, s.readReg_eq_none⟩
  · rw [← s.statusWord_eq, ← hlo, ← hhi]
    rfl
  · obtain ⟨h0, h1, h2, h3⟩ := s.readReg_unit u
    rw [hb, ← SpgUnit.ctlWord_eq]
    exact ⟨h0, h1, h2, h3⟩

/-- STATUS right after reset: no flag but SETTLED, and that only when there is nothing to settle (R36). -/
theorem resetOf_statusWord (p : Params) :
    (State.resetOf p).statusWord = if p.feed.psdDelayInit = 0 then 2 else 0 := by
  have hflags : (State.resetOf p).statusWord = BitVec.ofNat 32 (0 + (if p.feed.psdDelayInit = 0 then 2 else 0) + 0) :=
    State.statusWord_eq _
  rw [hflags]
  split <;> rfl

/-- The ANF history is zero after reset, also past its end (R53). -/
theorem resetOf_anfHist_getD (p : Params) (k : Nat) : (State.resetOf p).anfHist.getD k 0 = 0 := by
  rw [State.resetOf, List.getD_eq_getElem?_getD, List.getElem?_replicate]
  split <;> rfl

/-- Settles O11: the register map read at the reset state, whose flags are clear, whose history and time are zero and whose
units have taken their first weights. -/
theorem resetRegisterValues : Obligations.ResetRegisterValues := by
  intro p
  obtain ⟨hregs, hunits, -⟩ := registerMap (State.resetOf p)
  constructor
  · have htime : (State.resetOf p).timeMs.toNat = 0 := rfl
    rw [hregs, ← State.statusWord_eq, resetOf_statusWord, resetOf_anfHist_getD, resetOf_anfHist_getD, resetOf_anfHist_getD,
      BitVec.ofNat_toNat 32 p.feed.psdDelayInit, htime, Nat.zero_div]
    rfl
  · obtain ⟨a0, g0, n0, c0⟩ := hunits .spectrum 0x20 rfl
    obtain ⟨a1, g1, n1, c1⟩ := hunits .waterfall 0x24 rfl
    obtain ⟨a2, g2, n2, c2⟩ := hunits .anf 0x28 rfl
    have hc : ((State.resetOf p).unit .spectrum).c = p.spg.radioChunk := Nat.div_one _
    rw [hc] at c0
    have hlist : (List.range 12).map (fun i => (State.resetOf p).readReg (BitVec.ofNat 16 (0x20 + i)))
        = [0x20, 0x20 + 1, 0x20 + 2, 0x20 + 3, 0x24, 0x24 + 1, 0x24 + 2, 0x24 + 3, 0x28, 0x28 + 1, 0x28 + 2, 0x28 + 3].map
            (State.resetOf p).readReg := rfl
    rw [hlist]
    simp only [List.map_cons, List.map_nil, a0, g0, n0, c0, a1, g1, n1, c1, a2, g2, n2, c2]
    rfl

/-! ## The chunks of a frame (R46, R192) -/

/-- From phase zero, a decimator that runs gives one output for each `m` inputs. -/
theorem Decim.feedAll_length {m : Nat} (taps : List Sc) {d : Decim} (xs : List Cx) (h0 : d.ph = 0) (hm : 1 ≤ m)
    (hdvd : m ∣ xs.length) : (Decim.feedAll true m taps (d, []) xs).2.length = xs.length / m := by
  obtain ⟨-, hcount⟩ := Decim.feedAll_count m taps xs (d, []) (by simp only [h0]; omega)
  rw [Decim.feedAll_ph taps [] xs h0 fun _ => ⟨hm, hdvd⟩, h0] at hcount
  simp only [List.length_nil, Nat.mul_zero, Nat.zero_add, Nat.add_zero] at hcount
  rw [← hcount, Nat.mul_div_cancel_left _ hm]

/-- The lengths of a frame's chunks: the full-rate one is the frame's, a decimated one the frame's over the factor. -/
theorem State.frontEnd_lengths (s : State) (buf : List Cx) (tx : Bool) :
    (s.frontEnd buf tx).full.length = buf.length
      ∧ (1 < s.regs.zoom.toNat → s.zdec.ph = 0 → 1 ≤ s.zdecM → s.zdecM ∣ buf.length →
          (s.frontEnd buf tx).zc.length = buf.length / s.zdecM)
      ∧ (anfBranch s.regs tx = true → s.adec.ph = 0 → 1 ≤ s.par.spg.anfDecim → s.par.spg.anfDecim ∣ buf.length →
          (s.frontEnd buf tx).ac.length = buf.length / s.par.spg.anfDecim) := by
  obtain ⟨ys, hl, hfull, hzoom, hanf⟩ := FrontEnd.foldl_step_cases s.par (s.frontConfig tx) buf
    { dcb := s.dcb, zdec := s.zdec, adec := s.adec, full := [], zc := [], ac := [] }
  have ez : (s.frontEnd buf tx).zc = _ := congrArg Prod.snd hzoom
  have ea : (s.frontEnd buf tx).ac = _ := congrArg Prod.snd hanf
  refine ⟨?_, fun hon h0 hm hdvd => ?_, fun hon h0 hm hdvd => ?_⟩
  · rw [State.frontEnd, hfull, List.nil_append, hl]
  · have hc : (s.frontConfig tx).zoomOn = true := decide_eq_true hon
    rw [ez, hc, ← hl]
    exact Decim.feedAll_length _ ys h0 hm (hl ▸ hdvd)
  · have hc : (s.frontConfig tx).anfOn = true := hon
    rw [ea, hc, ← hl]
    exact Decim.feedAll_length _ ys h0 hm (hl ▸ hdvd)

/-- Settles O31: RADIO_CHUNK is a multiple of both factors, so the chunks have the sizes of the units' geometry. -/
theorem feedChunksFitUnits : Obligations.FeedChunksFitUnits := by
  intro s tx buf hs hbuf
  obtain ⟨hv, ⟨-, -, c0, -, -, c1, -, -, c2, -⟩, ⟨hz, -, z2, -, a2, -⟩, -, hzl, -⟩ := hs
  obtain ⟨hmod, hpos, -⟩ := Params.valid_parts hv
  obtain ⟨hz1, hzc⟩ := Params.zoomLegal_parts hzl
  have hanf : s.par.spg.anfDecim ∣ buf.length := hbuf ▸ Nat.dvd_of_mod_eq_zero hmod
  have hanf1 : 1 ≤ s.par.spg.anfDecim := Nat.pos_of_dvd_of_pos hanf (hbuf ▸ hpos)
  have hzm : 1 ≤ s.zdecM ∧ s.zdecM ∣ buf.length := by
    rw [hz, hbuf, hzc]
    exact ⟨hz1, Nat.dvd_mul_left ..⟩
  obtain ⟨hfull, hzoom, hac⟩ := s.frontEnd_lengths buf tx
  obtain ⟨-, hd2, -, hd4⟩ := s.frontEnd_decimators buf tx z2 a2 (fun _ => hzm) ⟨hanf1, hanf⟩
  refine ⟨by rw [hfull, hbuf, c1, Params.cWf], ?_, fun htx hen => ?_, hd2, hd4⟩
  · rw [c0, Params.cSpec]
    split
    · rename_i h1
      rw [hfull, hbuf, h1]
      exact (Nat.div_one _).symm
    · rename_i h1
      have hne : s.regs.zoom.toNat ≠ 1 := fun h => h1 (BitVec.eq_of_toNat_eq h)
      rw [hzoom (by omega) z2 hzm.1 hzm.2, hbuf, hz]
  · rw [hac (by rw [htx]; exact hen) a2 hanf1 hanf, hbuf, c2, Params.cAnf]

/-! ## The Hilbert delay line (R54, R261 to R263) -/

/-- With CW_EN clear the loop of AUD.SAMPLES is the fold of the samples' values into the delay line. -/
theorem audioFold_of_cwOff (ws : List Word) : ∀ s : State, s.regs.cwEn = false →
    ws.foldl State.audioStep s = { s with hilbDl := ws.foldl (fun dl w => Bin32.push dl (audioSample w)) s.hilbDl } := by
  induction ws with
  | nil => exact fun _ _ => rfl
  | cons w ws ih =>
    intro s h
    have hstep : s.audioStep w = { s with hilbDl := Bin32.push s.hilbDl (audioSample w) } := by simp [State.audioStep, h]
    rw [List.foldl_cons, hstep]
    exact ih { s with hilbDl := Bin32.push s.hilbDl (audioSample w) } h

/-- Settles O45: the port check passes and the loop leaves the decoder out. -/
theorem hilbertAdvancesWithoutCw : Obligations.HilbertAdvancesWithoutCw := by
  intro ws s hcur hoff
  have hpass : exec (.audSamples ws) s = .next (ws.foldl State.audioStep s) := guarded_pass (notOnPort_self hcur) ..
  rw [hpass, audioFold_of_cwOff ws s hoff]
  rfl

end Machine
end Sys2Proof
end

section
/-! PROOFS. A port's turn (R90, R99, R111), and the independence of the two producer domains (R31, R95). -/

namespace Sys2Proof
namespace Machine

/-! ## A port's turn (R90, R99, R111) -/

/-- Settles O4: the turn of a port with a ready command, with the consumption of the words written out. -/
theorem stepRunsDecodedCommand : Obligations.StepRunsDecodedCommand := by
  intro s p rest ws i ha hr hw hd
  rw [step_port_of_decode ha hr hw hd, State.consume, State.stream_withAgenda]

/-- A port has no ready command exactly when its stream is empty or shorter than its header calls for (R111). -/
theorem readyWords_eq_none {s : State} {p : Port} :
    s.readyWords p = none ↔ s.stream p = [] ∨ (s.stream p).length < commandLength ((s.stream p).headD 0) := by
  unfold State.readyWords
  cases hs : s.stream p with
  | nil => simp
  | cons w ws => simp

theorem issue_of_unready {s : State} {p : Port} (h : s.readyWords p = none) : s.issue p = .idle := by
  rcases issue_cases s p with ⟨hi, -⟩ | ⟨-, ws, hw, -⟩
  · exact hi
  · cases h.symm.trans hw

/-- Settles O6: a port with no ready command has nothing to issue, whether the block runs or not. -/
theorem unreadyPortHasNoStep : Obligations.UnreadyPortHasNoStep := by
  intro s p rest ha hs
  have hready : State.readyWords { s with agenda := rest } p = none :=
    (s.readyWords_withAgenda rest p).trans (readyWords_eq_none.mpr hs)
  rw [step_of_port ha, runPort, issue_of_unready hready]

/-- The turn of a running block's port with a ready command, from the state before the turn was given. -/
theorem step_turn {s : State} {p : Port} {ws : List Word} {i : Instr} (rest : List Turn)
    (hr : s.run = .run) (hw : s.readyWords p = some ws) (hd : decode ws = .ok i) :
    step { s with agenda := .port p :: rest } = exec i (State.consume { s with agenda := rest } p ws.length) :=
  step_port_of_decode (s := { s with agenda := .port p :: rest }) rfl hr ((s.readyWords_withAgenda _ p).trans hw) hd

/-! ## The two sides of the state (R31)

Independence of the two producer domains is stated by replacing, in a state, all that a command neither reads nor writes:
its effect is the same, and what was put in stays. -/

/-- `s` with all that the commands of the IQ producer neither read nor write taken from `t`. -/
def State.withAudSide (s t : State) : State :=
  { s with
    hilbDl := t.hilbDl, ddsAcc := t.ddsAcc, ddsFtw := t.ddsFtw, cwdec := t.cwdec, cw := t.cw
    inAud := t.inAud, outAud := t.outAud, agenda := t.agenda }

/-- `s` with all that AUD.SAMPLES neither reads nor writes taken from `t`. -/
def State.withIqSide (s t : State) : State :=
  { t with
    par := s.par, regs := s.regs, cur := s.cur
    hilbDl := s.hilbDl, ddsAcc := s.ddsAcc, ddsFtw := s.ddsFtw, cwdec := s.cwdec, cw := s.cw, outAud := s.outAud }

/-- The commands of the IQ producer: SPG.* and DSP.SAMPLES. -/
def IqProducer (i : Instr) : Prop :=
  (∃ u ch, i = .spgWrite u ch) ∨ (∃ u, i = .spgGetpsd u) ∨ (∃ u v, i = .spgSetalpha u v) ∨ (∃ u, i = .spgClear u)
    ∨ (∃ u, i = .spgReset u) ∨ (∃ tx buf, i = .dspSamples tx buf)

/-! ## AUD.SAMPLES is independent of the IQ side (R260, R263) -/

theorem State.decodeTone_withIqSide (s t : State) (c : Cx) :
    (s.withIqSide t).decodeTone c = (s.decodeTone c).withIqSide t := by
  simp only [State.decodeTone, State.withIqSide]
  cases (s.cwdec.push s.par.cw.dCw (Rom.cwTaps s.par) (mixDown s.ddsAcc c)).2 <;> rfl

/-- With MODE.CW_EN the decoder takes the Hilbert output of the advanced delay line (R263). -/
theorem State.audioStep_of_cwOn {s : State} (h : s.regs.cwEn = true) (w : Word) :
    s.audioStep w = State.decodeTone { s with hilbDl := Bin32.push s.hilbDl (audioSample w) }
      (hilbertOutput s.par (Bin32.push s.hilbDl (audioSample w))) := if_pos h

theorem State.audioStep_withIqSide (s t : State) (w : Word) :
    (s.withIqSide t).audioStep w = (s.audioStep w).withIqSide t := by
  cases h : s.regs.cwEn
  · simp only [State.audioStep, State.withIqSide, h]; rfl
  · rw [State.audioStep_of_cwOn h, State.audioStep_of_cwOn (s := s.withIqSide t) h, ← State.decodeTone_withIqSide]
    rfl

theorem audioFold_withIqSide (t : State) (ws : List Word) : ∀ s : State,
    ws.foldl State.audioStep (s.withIqSide t) = (ws.foldl State.audioStep s).withIqSide t := by
  induction ws with
  | nil => exact fun _ => rfl
  | cons w ws ih => intro s; rw [List.foldl_cons, State.audioStep_withIqSide, ih, List.foldl_cons]

/-! ## DSP.SAMPLES is independent of the AUD side (R190) -/

theorem State.processSamples_withAudSide (s t : State) (buf : List Cx) (tx : Bool) :
    (s.withAudSide t).processSamples buf tx = (s.processSamples buf tx).withAudSide t := rfl

theorem State.countSettle_withAudSide (s t : State) : (s.withAudSide t).countSettle = s.countSettle.withAudSide t := by
  rw [State.countSettle, State.countSettle, apply_ite (State.withAudSide · t)]; rfl

theorem State.updateSpectrum_withAudSide (s t : State) (tx : Bool) :
    (s.withAudSide t).updateSpectrum tx = (s.updateSpectrum tx).withAudSide t := by
  rw [State.updateSpectrum, State.updateSpectrum, apply_ite (State.withAudSide · t)]; rfl

theorem State.autolevel_withAudSide (s t : State) (q : List Sc) :
    (s.withAudSide t).autolevel q = (s.autolevel q).withAudSide t := by
  rw [State.autolevel, State.autolevel, apply_ite (State.withAudSide · t)]; rfl

theorem State.afterRxWaterfall_withAudSide (s t : State) (q : List Sc) :
    (s.withAudSide t).afterRxWaterfall q = (s.afterRxWaterfall q).withAudSide t := by
  have hlevel (u : State) :
      (if (u.withAudSide t).minMaxDelay = 0 then (u.withAudSide t).autolevel q
        else { u.withAudSide t with minMaxDelay := (u.withAudSide t).minMaxDelay - 1 })
      = State.withAudSide (if u.minMaxDelay = 0 then u.autolevel q else { u with minMaxDelay := u.minMaxDelay - 1 }) t := by
    rw [apply_ite (State.withAudSide · t), State.autolevel_withAudSide]; rfl
  have hrec : (s.withAudSide t).regs.recActive = s.regs.recActive := rfl
  simp only [State.afterRxWaterfall, hrec]
  cases s.regs.recActive
  · exact hlevel (s.smeter q)
  · exact hlevel s

theorem State.updateWaterfall_withAudSide (s t : State) (tx : Bool) :
    (s.withAudSide t).updateWaterfall tx = (s.updateWaterfall tx).withAudSide t := by
  rw [State.updateWaterfall, State.updateWaterfall]
  simp only [apply_ite (State.withAudSide · t), ← State.afterRxWaterfall_withAudSide]
  rfl

theorem State.anfDecide_withAudSide (s t : State) (f : Word) :
    (s.withAudSide t).anfDecide f = (s.anfDecide f).withAudSide t := by
  rw [State.anfDecide, State.anfDecide]
  simp only [apply_ite (State.withAudSide · t)]
  rfl

theorem State.anfUpdate_withAudSide (s t : State) : (s.withAudSide t).anfUpdate = s.anfUpdate.withAudSide t := by
  rw [State.anfUpdate, State.anfUpdate]
  simp only [apply_ite (State.withAudSide · t), ← State.anfDecide_withAudSide]
  rfl

theorem State.produceOutputs_withAudSide (s t : State) (tx : Bool) :
    (s.withAudSide t).produceOutputs tx = (s.produceOutputs tx).withAudSide t := by
  simp only [State.produceOutputs, State.updateSpectrum_withAudSide, State.updateWaterfall_withAudSide,
    State.anfUpdate_withAudSide, apply_ite (State.withAudSide · t)]
  rfl

theorem State.frame_withAudSide (s t : State) (tx : Bool) (buf : List Cx) :
    (s.withAudSide t).frame tx buf = (s.frame tx buf).withAudSide t := by
  simp only [State.frame, State.processSamples_withAudSide, State.countSettle_withAudSide,
    State.produceOutputs_withAudSide, apply_ite (State.withAudSide · t)]
  rfl

/-! ## The commands of the IQ producer (R31, R340) -/

@[simp] theorem State.unit_withAudSide (s t : State) (k : UnitId) : (s.withAudSide t).unit k = s.unit k := by cases k <;> rfl

@[simp] theorem State.par_withAudSide (s t : State) : (s.withAudSide t).par = s.par := rfl

theorem State.setUnit_withAudSide (s t : State) (k : UnitId) (u : SpgUnit) :
    (s.withAudSide t).setUnit k u = (s.setUnit k u).withAudSide t := by cases k <;> rfl

theorem State.emit_withAudSide (s t : State) (e : Event) :
    (s.withAudSide t).emit .iq e = (s.emit .iq e).withAudSide t := rfl

theorem effect_withAudSide {i : Instr} (hi : IqProducer i) (s t : State) :
    effect i (s.withAudSide t) = (effect i s).withAudSide t := by
  rcases hi with ⟨u, ch, rfl⟩ | ⟨u, rfl⟩ | ⟨u, v, rfl⟩ | ⟨u, rfl⟩ | ⟨u, rfl⟩ | ⟨tx, buf, rfl⟩
  all_goals simp only [effect, State.unit_withAudSide, State.par_withAudSide, State.setUnit_withAudSide,
    State.emit_withAudSide, State.frame_withAudSide]

/-- A command of the IQ producer is its checks, which the AUD side cannot change, and its effect. -/
theorem exec_iqProducer {i : Instr} (hi : IqProducer i) : ∃ checks : State → List (Bool × FaultCode),
    (∀ s, exec i s = guarded (checks s) s (effect i s)) ∧ ∀ s t, checks (s.withAudSide t) = checks s := by
  rcases hi with ⟨u, ch, rfl⟩ | ⟨u, rfl⟩ | ⟨u, v, rfl⟩ | ⟨u, rfl⟩ | ⟨u, rfl⟩ | ⟨tx, buf, rfl⟩
  · refine ⟨_, fun _ => rfl, fun s t => ?_⟩
    rw [State.unit_withAudSide]
    rfl
  all_goals exact ⟨_, fun _ => rfl, fun _ _ => rfl⟩

theorem guarded_withAudSide {checks : List (Bool × FaultCode)} {s u a : State} (t : State)
    (h : guarded checks s u = .next a) : guarded checks (s.withAudSide t) (u.withAudSide t) = .next (a.withAudSide t) := by
  unfold guarded at h ⊢
  cases hf : firstFault checks with
  | none => rw [hf] at h; cases h; rfl
  | some f => rw [hf] at h; cases h; rfl

/-- What a command of the IQ producer does, its faults included, does not depend on the AUD side and leaves it. -/
theorem exec_withAudSide {i : Instr} (hi : IqProducer i) {s a : State} (t : State) (h : exec i s = .next a) :
    exec i (s.withAudSide t) = .next (a.withAudSide t) := by
  obtain ⟨checks, hexec, hchecks⟩ := exec_iqProducer hi
  rw [hexec] at h ⊢
  rw [hchecks, effect_withAudSide hi]
  exact guarded_withAudSide t h

theorem exec_keeps_par {i : Instr} {s a : State} (h : exec i s = .next a) : a.par = s.par := by
  rcases exec_cases i s with ⟨f, -, he⟩ | ⟨-, he⟩ <;> rw [he] at h <;> cases h
  · rfl
  · exact (effect_marks i s).1

theorem exec_keeps_regs {i : Instr} (hi : IqProducer i) {s a : State} (h : exec i s = .next a) : a.regs = s.regs := by
  by_contra hne
  obtain ⟨r, w, rfl⟩ | ⟨z, rfl⟩ | ⟨f, rfl⟩ := onlyConfigCommandsWriteRegisters i s a h hne <;> simp [IqProducer] at hi

/-- A command of the IQ producer leaves the AUD side and the configuration. -/
theorem exec_iqProducer_frame {i : Instr} (hi : IqProducer i) {s a : State} (h : exec i s = .next a) :
    a = { a.withAudSide s with par := s.par, regs := s.regs } := by
  have hside : a = a.withAudSide s := Host.Outcome.next.inj (h.symm.trans (exec_withAudSide hi s h))
  rw [← exec_keeps_par h, ← exec_keeps_regs hi h]
  exact hside

/-! ## Both orders (R95) -/

theorem exec_audSamples {s : State} (hcur : s.cur = .aud) (ws : List Word) :
    exec (.audSamples ws) s = .next (ws.foldl State.audioStep s) := guarded_pass (notOnPort_self hcur) ..

/-- What AUD.SAMPLES leaves alone: the IQ side, and of the AUD side the tuning word, the streams and the turns. -/
theorem exec_audSamples_frame {ws : List Word} {s c : State} (hcur : s.cur = .aud) (h : exec (.audSamples ws) s = .next c) :
    c = { s with hilbDl := c.hilbDl, ddsAcc := c.ddsAcc, cwdec := c.cwdec, cw := c.cw, outAud := c.outAud } := by
  obtain ⟨hd, acc, dec, cw, es, hfold⟩ := State.audioFold_frame ws s
  rw [exec_audSamples hcur, hfold] at h
  cases h
  rfl

section
variable {i : Instr} {s a c : State} {r1 r2 : List Turn} {n m : Nat} {samples : List Word}

/-- The IQ command finds after the audio samples, which lead to `c`, what it found before them, when it led to `a`. -/
theorem exec_after_audSamples (hi : IqProducer i) (ha : exec i (State.consume { s with agenda := r1 } .iq n) = .next a)
    (hc : exec (.audSamples samples) (State.consume { s with agenda := r2 } .aud m) = .next c) (rest : List Turn) :
    exec i (State.consume { c with agenda := rest } .iq n) = .next (a.withAudSide { c with agenda := rest }) := by
  have hside : State.consume { c with agenda := rest } .iq n
      = (State.consume { s with agenda := r1 } .iq n).withAudSide { c with agenda := rest } := by
    rw [exec_audSamples_frame rfl hc]; rfl
  rw [hside]
  exact exec_withAudSide hi _ ha

/-- The audio samples find after the IQ command, which leads to `a`, what they found before it, when they led to `c`. -/
theorem audSamples_after_exec (hi : IqProducer i) (ha : exec i (State.consume { s with agenda := r1 } .iq n) = .next a)
    (hc : exec (.audSamples samples) (State.consume { s with agenda := r2 } .aud m) = .next c) (rest : List Turn) :
    exec (.audSamples samples) (State.consume { a with agenda := rest } .aud m)
      = .next (c.withIqSide (State.consume { a with agenda := rest } .aud m)) := by
  have hside : State.consume { a with agenda := rest } .aud m
      = (State.consume { s with agenda := r2 } .aud m).withIqSide (State.consume { a with agenda := rest } .aud m) := by
    rw [exec_iqProducer_frame hi ha]; rfl
  have hfold := Host.Outcome.next.inj ((exec_audSamples rfl samples).symm.trans hc)
  rw [exec_audSamples rfl, ← hfold, ← audioFold_withIqSide, ← hside]

end

/-- Settles O54: both orders end on the IQ side that the IQ command leaves and the AUD side that the audio samples leave. -/
theorem producerCommandsCommute : Obligations.ProducerCommandsCommute := by
  intro s a b c d rest i ws vs samples hrun hi hws hdec hvs haud ha harun hb hc hd
  rw [step_turn _ hrun hws hdec] at ha
  rw [step_turn _ hrun hvs haud] at hc
  have hframe := exec_iqProducer_frame hi ha
  have hframe' := exec_audSamples_frame rfl hc
  have hstep : step a = exec (.audSamples samples) (State.consume { a with agenda := rest } .aud vs.length) :=
    step_port_of_decode (by rw [hframe]; rfl) harun (by rw [hframe]; exact hvs) haud
  have hstep' : step c = exec i (State.consume { c with agenda := rest } .iq ws.length) :=
    step_port_of_decode (by rw [hframe']; rfl) (by rw [hframe']; exact hrun) (by rw [hframe']; exact hws) hdec
  rw [hstep, audSamples_after_exec hi ha hc] at hb
  rw [hstep', exec_after_audSamples hi ha hc] at hd
  cases hb
  cases hd
  rw [hframe, hframe']
  rfl

end Machine
end Sys2Proof
end

section
/-! PROOFS. Words and commands correspond: what decodes is an encoding, and the words that are no command halt the block (R111 to
R120, R331). -/

namespace Sys2Proof

/-! ## Every word by its fields (R112, R116) -/

theorem bitVec_exists_append {m n : Nat} (x : BitVec (m + n)) : ∃ (y : BitVec m) (z : BitVec n), x = y ++ z :=
  ⟨x.extractLsb' n m, x.extractLsb' 0 n, by
    rw [BitVec.extractLsb'_append_extractLsb'_eq_extractLsb' (Nat.zero_add n).symm, BitVec.extractLsb'_eq_self]⟩

theorem bitVec_append_inj {m n : Nat} {x x' : BitVec m} {y y' : BitVec n} : x ++ y = x' ++ y' ↔ x = x' ∧ y = y' := by
  refine ⟨fun h => ⟨?_, ?_⟩, fun ⟨hx, hy⟩ => hx ▸ hy ▸ rfl⟩
  · rw [← BitVec.extractLsb'_append_eq_left (a := x) (b := y), h, BitVec.extractLsb'_append_eq_left]
  · rw [← BitVec.extractLsb'_append_eq_right (a := x) (b := y), h, BitVec.extractLsb'_append_eq_right]

/-- The word with the fields of R112 and the bits `z` in the reserved places 19:17. -/
def fieldsWord (o : BitVec 8) (u : BitVec 4) (z : BitVec 3) (t : Bool) (a : BitVec 16) : Word :=
  o ++ u ++ z ++ BitVec.ofBool t ++ a

theorem header_eq_fieldsWord (o : BitVec 8) (u : BitVec 4) (t : Bool) (a : BitVec 16) :
    header o u t a = fieldsWord o u 0 t a := rfl

theorem headerMask_eq_fieldsWord (u : BitVec 4) (t : Bool) (a : BitVec 16) :
    headerMask u t a = fieldsWord 0xFF u 7 t a := rfl

theorem exists_fieldsWord (h : Word) : ∃ o u z t a, h = fieldsWord o u z t a := by
  obtain ⟨x, a, hx⟩ := bitVec_exists_append (m := 8 + 4 + 3 + 1) (n := 16) h
  obtain ⟨x, b, rfl⟩ := bitVec_exists_append x
  obtain ⟨x, z, rfl⟩ := bitVec_exists_append x
  obtain ⟨o, u, rfl⟩ := bitVec_exists_append x
  obtain ⟨t, rfl⟩ : ∃ t, b = BitVec.ofBool t := (by decide : ∀ b : BitVec 1, ∃ t, b = BitVec.ofBool t) b
  exact ⟨o, u, z, t, a, hx⟩

theorem fieldsWord_inj {o o' : BitVec 8} {u u' : BitVec 4} {z z' : BitVec 3} {t t' : Bool} {a a' : BitVec 16} :
    fieldsWord o u z t a = fieldsWord o' u' z' t' a' ↔ o = o' ∧ u = u' ∧ z = z' ∧ t = t' ∧ a = a' := by
  have h : fieldsWord o u z t a = fieldsWord o' u' z' t' a'
      ↔ (o ++ u ++ z ++ BitVec.ofBool t ++ a : BitVec (8 + 4 + 3 + 1 + 16)) = o' ++ u' ++ z' ++ BitVec.ofBool t' ++ a' := Iff.rfl
  simp only [h, bitVec_append_inj, BitVec.ofBool_eq_iff_eq, and_assoc]

theorem fieldsWord_and (o o' : BitVec 8) (u u' : BitVec 4) (z z' : BitVec 3) (t t' : Bool) (a a' : BitVec 16) :
    fieldsWord o u z t a &&& fieldsWord o' u' z' t' a' = fieldsWord (o &&& o') (u &&& u') (z &&& z') (t && t') (a &&& a') := by
  unfold fieldsWord
  rw [← BitVec.ofBool_and_ofBool, ← BitVec.and_append, ← BitVec.and_append, ← BitVec.and_append, ← BitVec.and_append]

/-- A word that passes a row's check of the reserved bits is a header of that row, zero in the fields the row does not have. -/
theorem eq_header_of_masked {h : Word} {o : BitVec 8} {mu : BitVec 4} {mt : Bool} {ma : BitVec 16}
    (hm : h &&& headerMask mu mt ma = header o 0 false 0) :
    ∃ u t a, h = header o u t a ∧ u &&& mu = 0 ∧ (t && mt) = false ∧ a &&& ma = 0 := by
  obtain ⟨o', u, z, t, a, rfl⟩ := exists_fieldsWord h
  rw [headerMask_eq_fieldsWord, fieldsWord_and, header_eq_fieldsWord, fieldsWord_inj] at hm
  obtain ⟨ho, hu, hz, ht, ha⟩ := hm
  obtain rfl : o' = o := BitVec.and_allOnes.symm.trans ho
  obtain rfl : z = 0 := BitVec.and_allOnes.symm.trans hz
  exact ⟨u, t, a, rfl, hu, ht, ha⟩

section
variable {h : Word} {o : BitVec 8}

/-- Format N. -/
theorem eq_header_n (hm : h &&& headerMask 0xF true 0xFFFF = header o 0 false 0) : h = header o 0 false 0 := by
  obtain ⟨u, t, a, rfl, hu, ht, ha⟩ := eq_header_of_masked hm
  rw [BitVec.and_allOnes.symm.trans hu, (Bool.and_true t).symm.trans ht, BitVec.and_allOnes.symm.trans ha]

/-- Formats A and AW, and S without TX. -/
theorem eq_header_a (hm : h &&& headerMask 0xF true 0 = header o 0 false 0) : ∃ a, h = header o 0 false a := by
  obtain ⟨u, t, a, rfl, hu, ht, -⟩ := eq_header_of_masked hm
  exact ⟨a, by rw [BitVec.and_allOnes.symm.trans hu, (Bool.and_true t).symm.trans ht]⟩

/-- Format A with a domain mask: ARG has no bit above bit 1 (R114). -/
theorem eq_header_mask (hm : h &&& headerMask 0xF true 0xFFFC = header o 0 false 0) :
    ∃ m : BitVec 2, h = header o 0 false (m.setWidth 16) := by
  obtain ⟨u, t, a, rfl, hu, ht, ha⟩ := eq_header_of_masked hm
  obtain ⟨x, m, rfl⟩ := bitVec_exists_append (m := 14) (n := 2) a
  have hx : (x ++ m : BitVec (14 + 2)) &&& (BitVec.allOnes 14 ++ 0#2) = 0#14 ++ 0#2 := ha
  rw [BitVec.and_append, BitVec.and_allOnes, bitVec_append_inj] at hx
  have hextend : ∀ m : BitVec 2, (0#14 ++ m : BitVec 16) = m.setWidth 16 := by decide
  exact ⟨m, by rw [BitVec.and_allOnes.symm.trans hu, (Bool.and_true t).symm.trans ht, hx.1, ← hextend]⟩

/-- Formats U and UW. -/
theorem eq_header_u (hm : h &&& headerMask 0 true 0xFFFF = header o 0 false 0) : ∃ u, h = header o u false 0 := by
  obtain ⟨u, t, a, rfl, -, ht, ha⟩ := eq_header_of_masked hm
  exact ⟨u, by rw [(Bool.and_true t).symm.trans ht, BitVec.and_allOnes.symm.trans ha]⟩

/-- Format US. -/
theorem eq_header_us (hm : h &&& headerMask 0 true 0 = header o 0 false 0) : ∃ u a, h = header o u false a := by
  obtain ⟨u, t, a, rfl, -, ht, -⟩ := eq_header_of_masked hm
  exact ⟨u, a, by rw [(Bool.and_true t).symm.trans ht]⟩

/-- Format S with TX. -/
theorem eq_header_s (hm : h &&& headerMask 0xF false 0 = header o 0 false 0) : ∃ t a, h = header o 0 t a := by
  obtain ⟨u, t, a, rfl, hu, -, -⟩ := eq_header_of_masked hm
  exact ⟨t, a, by rw [BitVec.and_allOnes.symm.trans hu]⟩

end

/-! ## Payloads of the lengths of R113 -/

/-- The words that a header calls for, when they are all there: the header and a payload (R111). -/
theorem take_commandLength {h : Word} {rest : List Word} (hl : commandLength h ≤ (h :: rest).length) :
    ∃ payload, (h :: rest).take (commandLength h) = h :: payload ∧ payload.length + 1 = commandLength h := by
  obtain ⟨n, hn⟩ := Nat.exists_eq_add_of_le' (commandLength_pos h)
  rw [hn, List.length_cons, Nat.add_le_add_iff_right] at hl
  exact ⟨rest.take n, by rw [hn, List.take_succ_cons], by rw [hn, List.length_take, min_eq_left hl]⟩

section
variable {payload : List Word} {n : Nat} {a : BitVec 16}

theorem payload_eq_nil (hl : payload.length + 1 = 1 + 0 * n) : payload = [] :=
  List.length_eq_zero_iff.mp (by omega)

theorem payload_eq_singleton (hl : payload.length + 1 = 2 + 0 * n) : ∃ v, payload = [v] :=
  List.length_eq_one_iff.mp (by omega)

/-- A count read from ARG fits in ARG, and is written back as it was (R112, R119). -/
theorem count_of_arg (hn : n = a.toNat) : n ≤ maxSamples ∧ BitVec.ofNat 16 n = a := by
  have ha := a.isLt
  exact ⟨by rw [maxSamples]; omega, by rw [hn, BitVec.ofNat_toNat, BitVec.setWidth_eq]⟩

/-- Two words for each of ARG samples are the words of ARG complex samples. -/
theorem payload_eq_sampleWords (hl : payload.length + 1 = 1 + 2 * a.toNat) :
    ∃ ss, payload = sampleWords ss ∧ ss.length ≤ maxSamples ∧ BitVec.ofNat 16 ss.length = a :=
  ⟨samplePairs payload, (sampleWords_samplePairs payload (by omega)).symm,
    count_of_arg (by rw [samplePairs_length]; omega)⟩

/-- One word for each of ARG real samples. -/
theorem payload_length_eq (hl : payload.length + 1 = 1 + 1 * a.toNat) :
    payload.length ≤ maxSamples ∧ BitVec.ofNat 16 payload.length = a := count_of_arg (by omega)

end

/-! ## What decodes is an encoding (R112 to R116, R120) -/

/-- A header that passes the checks of its row of R115, with a payload of the row's length, is the encoding of a command. -/
theorem exists_encode_eq {h : Word} {r : OpRow} {payload : List Word} (hr : r ∈ opcodeMap)
    (hm : h &&& r.mask = r.matchBits) (hl : payload.length + 1 = r.fixedWords + r.perSample * (hdrArg h).toNat) :
    ∃ i : Instr, i.wellFormed = true ∧ encode i = h :: payload := by
  simp only [opcodeMap, List.mem_cons, List.not_mem_nil, or_false] at hr
  rcases hr with rfl | rfl | rfl | rfl | rfl | rfl | rfl | rfl | rfl | rfl | rfl | rfl | rfl
  · obtain rfl := eq_header_n (o := 0x00) hm
    obtain rfl := payload_eq_nil hl
    exact ⟨.nop, rfl, rfl⟩
  · obtain ⟨reg, rfl⟩ := eq_header_a (o := 0x01) hm
    obtain ⟨v, rfl⟩ := payload_eq_singleton hl
    exact ⟨.cfgWr reg v, rfl, rfl⟩
  · obtain ⟨reg, rfl⟩ := eq_header_a (o := 0x02) hm
    obtain rfl := payload_eq_nil hl
    exact ⟨.cfgRd reg, rfl, rfl⟩
  · obtain ⟨mask, rfl⟩ := eq_header_mask (o := 0x03) hm
    obtain rfl := payload_eq_nil hl
    exact ⟨.dspRst mask, rfl, rfl⟩
  · obtain ⟨z, rfl⟩ := eq_header_a (o := 0x04) hm
    obtain rfl := payload_eq_nil hl
    exact ⟨.zoom z, rfl, rfl⟩
  · obtain ⟨hz, rfl⟩ := eq_header_a (o := 0x05) hm
    obtain rfl := payload_eq_nil hl
    exact ⟨.cwTone hz, rfl, rfl⟩
  · obtain ⟨u, a, rfl⟩ := eq_header_us (o := 0x10) hm
    rw [hdrArg_header] at hl
    obtain ⟨chunk, rfl, hn, rfl⟩ := payload_eq_sampleWords hl
    exact ⟨.spgWrite u chunk, decide_eq_true hn, rfl⟩
  · obtain ⟨u, rfl⟩ := eq_header_u (o := 0x11) hm
    obtain rfl := payload_eq_nil hl
    exact ⟨.spgGetpsd u, rfl, rfl⟩
  · obtain ⟨u, rfl⟩ := eq_header_u (o := 0x12) hm
    obtain ⟨v, rfl⟩ := payload_eq_singleton hl
    exact ⟨.spgSetalpha u v, rfl, rfl⟩
  · obtain ⟨u, rfl⟩ := eq_header_u (o := 0x13) hm
    obtain rfl := payload_eq_nil hl
    exact ⟨.spgClear u, rfl, rfl⟩
  · obtain ⟨u, rfl⟩ := eq_header_u (o := 0x14) hm
    obtain rfl := payload_eq_nil hl
    exact ⟨.spgReset u, rfl, rfl⟩
  · obtain ⟨tx, a, rfl⟩ := eq_header_s (o := 0x20) hm
    rw [hdrArg_header] at hl
    obtain ⟨buf, rfl, hn, rfl⟩ := payload_eq_sampleWords hl
    exact ⟨.dspSamples tx buf, decide_eq_true hn, rfl⟩
  · obtain ⟨a, rfl⟩ := eq_header_a (o := 0x21) hm
    rw [hdrArg_header] at hl
    obtain ⟨hn, rfl⟩ := payload_length_eq hl
    exact ⟨.audSamples payload, decide_eq_true hn, rfl⟩

/-- Words that decode have a header of a row of R115 with the reserved bits clear, and all the words it calls for. -/
theorem header_of_decode {ws : List Word} {i : Instr} (hd : decode ws = .ok i) :
    ∃ h rest r, ws = h :: rest ∧ opcodeRow h = some r ∧ h &&& r.mask = r.matchBits ∧ commandLength h ≤ ws.length := by
  unfold decode at hd
  cases ws with
  | nil => cases hd
  | cons h rest =>
    simp only at hd
    split at hd
    · cases hd
    split at hd
    · cases hd
    rename_i hlen _ r hr
    split at hd
    · cases hd
    exact ⟨h, rest, r, rfl, hr, not_not.mp ‹_›, Nat.le_of_not_lt hlen⟩

/-- The words that a decoded header calls for are the encoding of a command. -/
theorem exists_encode_of_decode {ws : List Word} {i : Instr} (hd : decode ws = .ok i) :
    ∃ j : Instr, j.wellFormed = true ∧ encode j = ws.take (commandLength (ws.headD 0)) := by
  obtain ⟨h, rest, r, rfl, hr, hm, hl⟩ := header_of_decode hd
  have hc : commandLength h = r.fixedWords + r.perSample * (hdrArg h).toNat := by simp only [commandLength, hr]
  obtain ⟨payload, ht, hn⟩ := take_commandLength hl
  rw [List.headD_cons, ht]
  exact exists_encode_eq (List.mem_of_find?_eq_some hr) hm (hn.trans hc)

/-- Settles O1: it is `decode_encode`. -/
theorem decodeOfEncode : Obligations.DecodeOfEncode := fun _ more hw => decode_encode hw more

/-- Settles O2: the words are the encoding of some command, to which they then decode. -/
theorem encodeOfDecode : Obligations.EncodeOfDecode := by
  intro ws i hd
  obtain ⟨j, hw, he⟩ := exists_encode_of_decode hd
  obtain ⟨hj, -⟩ := decode_encode hw (ws.drop (commandLength (ws.headD 0)))
  rw [he, List.take_append_drop] at hj
  cases hd.symm.trans hj
  exact ⟨hw, he.symm⟩

/-! ## The words of the spec's examples (R125) -/

theorem decode_of_encode_eq {i : Instr} {ws : List Word} (hw : i.wellFormed = true) (he : encode i = ws) :
    decode ws = .ok i := by
  obtain ⟨hd, -⟩ := decode_encode hw []
  rwa [List.append_nil, he] at hd

/-- Settles O3: each list of words is the encoding of its command. -/
theorem specWordsDecode : Obligations.SpecWordsDecode := by
  refine ⟨?_, ?_, ?_, ?_, ?_, ?_, ?_, ?_, ?_⟩ <;> exact decode_of_encode_eq rfl rfl

/-! ## Words that are no command (R116, R117) -/

/-- The opcodes outside the thirteen of R115 are those of R117. -/
theorem opcodeRow_eq_none {h : Word} (hopc : (0x06 ≤ (hdrOpc h).toNat ∧ (hdrOpc h).toNat ≤ 0x0F)
    ∨ (0x15 ≤ (hdrOpc h).toNat ∧ (hdrOpc h).toNat ≤ 0x1F) ∨ 0x22 ≤ (hdrOpc h).toNat) : opcodeRow h = none := by
  have hrange : ∀ r ∈ opcodeMap, r.opc.toNat ≤ 0x05 ∨ (0x10 ≤ r.opc.toNat ∧ r.opc.toNat ≤ 0x14)
      ∨ (0x20 ≤ r.opc.toNat ∧ r.opc.toNat ≤ 0x21) := by decide
  refine List.find?_eq_none.mpr fun r hr heq => ?_
  have := hrange r hr
  rw [beq_iff_eq.mp heq] at this
  omega

/-- No opcode has two rows. -/
theorem opcodeRow_eq_some {h : Word} {r : OpRow} (hr : r ∈ opcodeMap) (ho : r.opc = hdrOpc h) : opcodeRow h = some r := by
  have hunique : ∀ r ∈ opcodeMap, (opcodeMap.find? fun q => q.opc == r.opc) = some r := by decide
  rw [opcodeRow, ← ho]
  exact hunique r hr

theorem commandLength_of_illegal {h : Word} (hr : opcodeRow h = none) : commandLength h = 1 := by simp only [commandLength, hr]

theorem decode_badOpcode {h : Word} (hr : opcodeRow h = none) (rest : List Word) :
    decode (h :: rest) = .error .badOpcode := by
  have hlen : ¬ (h :: rest).length < commandLength h := by rw [commandLength_of_illegal hr]; simp
  simp only [decode, if_neg hlen, hr]

theorem decode_badEncoding {h : Word} {r : OpRow} {rest : List Word} (hr : opcodeRow h = some r)
    (hm : h &&& r.mask ≠ r.matchBits) (hl : commandLength h ≤ (h :: rest).length) :
    decode (h :: rest) = .error .badEncoding := by
  simp only [decode, if_neg (Nat.not_lt.mpr hl), hr, if_pos hm]

namespace Machine

theorem readyWords_of_cons {s : State} {p : Port} {h : Word} {ws : List Word} (hs : s.stream p = h :: ws)
    (hl : commandLength h ≤ (h :: ws).length) : s.readyWords p = some ((h :: ws).take (commandLength h)) := by
  simp only [State.readyWords, hs, if_neg (Nat.not_lt.mpr hl)]

/-- The turn of a running block's port whose ready words are no command: the fault is raised, the words consumed. -/
theorem step_port_of_decode_error {s : State} {p : Port} {rest : List Turn} {ws : List Word} {e : DecodeError}
    (ha : s.agenda = .port p :: rest) (hr : s.run = .run) (hw : s.readyWords p = some ws) (hd : decode ws = .error e) :
    step s = .next (raise (decodeFault e) (State.consume { s with agenda := rest } p ws.length)) := by
  have hready : State.readyWords { s with agenda := rest } p = some ws := (s.readyWords_withAgenda rest p).trans hw
  have hrun : State.halted { s with agenda := rest } = false := by rw [State.halted, hr]; rfl
  have hissue : State.issue { s with agenda := rest } p
      = .illegal (decodeFault e) (State.consume { s with agenda := rest } p ws.length) := by
    simp [State.issue, hrun, hready, hd]
  rw [step_of_port ha, runPort, hissue]

/-- A header at the front of a running block's stream, with its words all there, that decode to an error. -/
theorem step_port_of_illegal {s : State} {p : Port} {rest : List Turn} {h : Word} {ws : List Word} {e : DecodeError}
    (ha : s.agenda = .port p :: rest) (hr : s.run = .run) (hs : s.stream p = h :: ws)
    (hl : commandLength h ≤ (h :: ws).length) (hd : decode ((h :: ws).take (commandLength h)) = .error e) :
    step s = .next { State.setStream { s with agenda := rest } p ((h :: ws).drop (commandLength h)) with
      cur := p, run := .fault, faultCode := (decodeFault e).code } := by
  rw [step_port_of_decode_error ha hr (readyWords_of_cons hs hl) hd, List.length_take, min_eq_left hl, raise,
    State.consume, State.stream_withAgenda, hs]

/-- Settles O7: an opcode of R117 has no row, so its length is 1 and it decodes to an error alone; a header of a row that fails the
row's mask decodes to an error with the words of its length. -/
theorem illegalHeaderHalts : Obligations.IllegalHeaderHalts := by
  intro s p rest h ws ha hr hs
  refine ⟨fun hopc => ?_, fun r hmem ho hm hl => ?_⟩
  · have hrow := opcodeRow_eq_none hopc
    have hc := commandLength_of_illegal hrow
    have hstep := step_port_of_illegal ha hr hs (by rw [hc]; simp) (by rw [hc]; exact decode_badOpcode hrow [])
    rw [hc] at hstep
    exact hstep
  · refine step_port_of_illegal (e := .badEncoding) ha hr hs hl ?_
    obtain ⟨payload, ht, hn⟩ := take_commandLength hl
    rw [ht]
    exact decode_badEncoding (opcodeRow_eq_some hmem ho) hm hn.ge

end Machine
end Sys2Proof
end

section
/-! PROOFS. Where the events of a command go, and what no command moves (R121, R344). -/

namespace Sys2Proof
namespace Machine

/-! ## Events and inputs (R121, R344) -/

theorem State.events_emitAll_nil (s : State) (p q : Port) : (s.emitAll p []).events q = s.events q := by
  cases p <;> simp [State.emitAll]

/-- A command's events join the event stream of its own port: those of SPG.GETPSD and DSP.SAMPLES on port IQ and those of
AUD.SAMPLES on port AUD because the port check has passed (R121, R340). -/
theorem effect_events {i : Instr} {s : State} (hp : passes i s) :
    ∃ es, ∀ p, (effect i s).events p = (s.emitAll s.cur es).events p := by
  cases i
  case cfgRd reg => exact ⟨_, fun _ => rfl⟩
  case spgGetpsd u =>
    obtain ⟨hc, -⟩ := hp
    rw [hc]
    exact ⟨_, fun _ => rfl⟩
  case dspSamples tx buf =>
    obtain ⟨hc, -⟩ := hp
    obtain ⟨d, o, hf, -⟩ := s.frame_frame tx (complexSamples buf)
    rw [hc, effect, hf]
    exact ⟨o.events, fun p => by cases p <;> rfl⟩
  case audSamples ws =>
    have hc : s.cur = .aud := hp
    obtain ⟨hd, acc, dec, cw, es, hf⟩ := State.audioFold_frame ws s
    rw [hc, effect, hf]
    exact ⟨es, fun p => by cases p <;> rfl⟩
  case dspRst mask =>
    refine ⟨[], fun p => ?_⟩
    rw [State.events_emitAll_nil, effect]
    cases mask.getLsbD 0 <;> cases mask.getLsbD 1 <;> cases p <;> rfl
  case cfgWr | zoom | cwTone => exact ⟨[], fun p => by rw [State.events_emitAll_nil]; cases p <;> rfl⟩
  all_goals exact ⟨[], fun p => by simp [effect, State.events_emitAll_nil]⟩

/-- No command's effect moves the time, the command streams, the turns or the current port. -/
theorem effect_inputs (i : Instr) (s : State) : (effect i s).timeMs = s.timeMs ∧ SameInputs s (effect i s) := by
  cases i
  case dspRst mask =>
    simp only [effect]
    cases mask.getLsbD 0 <;> cases mask.getLsbD 1 <;> simp [SameInputs]
  case dspSamples tx buf =>
    obtain ⟨d, o, hf, -⟩ := s.frame_frame tx (complexSamples buf)
    rw [effect, hf]
    exact ⟨rfl, rfl, rfl, rfl, rfl, rfl⟩
  case audSamples ws =>
    obtain ⟨hd, acc, dec, cw, es, hf⟩ := State.audioFold_frame ws s
    simp [effect, hf, SameInputs]
  all_goals simp [effect, SameInputs]

/-- Settles O53: a fault emits nothing; an effect emits on the port of the command, and leaves what the environment moves. -/
theorem eventsGoToIssuingPort : Obligations.EventsGoToIssuingPort := by
  intro i s t hx
  rcases exec_cases i s with ⟨f, -, he⟩ | ⟨hp, he⟩ <;> rw [he] at hx <;> cases hx
  · exact ⟨fun p _ => events_raise s f p, ⟨[], by simp⟩, rfl, rfl, rfl, rfl, rfl, rfl, rfl⟩
  · obtain ⟨es, hes⟩ := effect_events hp
    obtain ⟨htime, hinputs⟩ := effect_inputs i s
    obtain ⟨hpar, -⟩ := effect_marks i s
    exact ⟨fun p hne => (hes p).trans (s.events_emitAll_other s.cur p es hne),
      ⟨es, (hes s.cur).trans (s.events_emitAll_same s.cur es)⟩, htime, hpar, hinputs⟩

end Machine
end Sys2Proof
end

section
/-! PROOFS. The unit commands SPG.GETPSD, SPG.SETALPHA, SPG.CLEAR and SPG.RESET (R149 to R156): their headers, the checks they
begin with, and their effects on a unit. -/

namespace Sys2Proof

/-! ## Headers that carry a unit alone (R112, R114) -/

/-- The header of formats U and UW: the opcode, the unit, and 20 bits of zero. -/
theorem header_unit (opc : BitVec 8) (sel : BitVec 4) :
    header opc sel false 0 = (opc ++ (sel ++ 0#20 : BitVec 24) : BitVec 32) := by
  calc header opc sel false 0 = opc ++ sel ++ (0#3 ++ 0#1) ++ 0#16 :=
        congrArg (· ++ 0#16) (BitVec.append_assoc (x₁ := opc ++ sel) (x₂ := 0#3) (x₃ := 0#1))
    _ = opc ++ sel ++ 0#20 := BitVec.append_assoc (x₁ := opc ++ sel) (x₂ := 0#4) (x₃ := 0#16)
    _ = opc ++ (sel ++ 0#20) := BitVec.append_assoc

/-- A command decodes from its unit header and its payload, whatever follows. -/
theorem decode_of_encode_unit {i : Instr} {opc : BitVec 8} {sel : BitVec 4} {payload : List Word} (hw : i.wellFormed = true)
    (he : encode i = header opc sel false 0 :: payload) (more : List Word) :
    decode ((opc ++ (sel ++ 0#20 : BitVec 24) : BitVec 32) :: (payload ++ more)) = .ok i := by
  obtain ⟨hd, -⟩ := decode_encode hw more
  rwa [he, header_unit] at hd

namespace Bin32

/-! ## The closed interval [0, 1] (R153) -/

/-- `NUM`'s order with equality on finite scalars is that of the exact values (R20). -/
theorem le_fix {x y : Sc} (hx : isFinite x = true) (hy : isFinite y = true) : le x y = true ↔ fix x ≤ fix y := by
  rw [le_iff (fin_flags hx).1 (fin_flags hy).1, ← not_lt, orderKey_lt, not_lt]

theorem fix_zero : fix 0 = 0 := by decide

theorem fix_one : fix one = 2 ^ 149 := by decide +kernel

/-- Both zeros and 1.0 are inside. -/
theorem inUnit_iff {v : Sc} (hv : isFinite v = true) : inUnit v = true ↔ 0 ≤ fix v ∧ fix v ≤ 2 ^ 149 := by
  rw [inUnit, Bool.and_eq_true, le_fix (by decide) hv, le_fix hv (by decide), fix_zero, fix_one]

theorem inUnit_minusOne : inUnit minusOne = false := by decide

end Bin32

namespace Machine

/-! ## The checks that the unit commands begin with (R116, R334, R340) -/

theorem notOnPort_of_ne {s : State} {p : Port} (h : s.cur ≠ p) : notOnPort s p = true := bne_iff_ne.mpr h

theorem badUnit_of_le {sel : BitVec 4} (h : 3 ≤ sel.toNat) : badUnit sel = true := by rw [badUnit, unitOf_eq_none h]; rfl

theorem guarded_unit_wrongPort {s : State} (h : s.cur ≠ .iq) (checks : List (Bool × FaultCode)) (t : State) :
    guarded ((notOnPort s .iq, .wrongPort) :: checks) s t = .next { s with run := .fault, faultCode := 8 } :=
  guarded_fail (notOnPort_of_ne h) ..

theorem guarded_unit_badUnit {s : State} {sel : BitVec 4} (hcur : s.cur = .iq) (hsel : 3 ≤ sel.toNat)
    (checks : List (Bool × FaultCode)) (t : State) :
    guarded ((notOnPort s .iq, .wrongPort) :: (badUnit sel, .badUnit) :: checks) s t
      = .next { s with run := .fault, faultCode := 3 } :=
  (guarded_pass (notOnPort_self hcur) ..).trans (guarded_fail (badUnit_of_le hsel) ..)

theorem guarded_unit_pass {s : State} {sel : BitVec 4} {k : UnitId} (hcur : s.cur = .iq) (hk : unitOf sel = some k)
    (checks : List (Bool × FaultCode)) (t : State) :
    guarded ((notOnPort s .iq, .wrongPort) :: (badUnit sel, .badUnit) :: checks) s t = guarded checks s t :=
  (guarded_pass (notOnPort_self hcur) ..).trans (guarded_pass (badUnit_of_unitOf hk) ..)

/-! ## SPG.GETPSD (R149 to R151) -/

/-- SPG.GETPSD on port 0: the unit's own number labels the one event. -/
theorem exec_spgGetpsd_next {sel : BitVec 4} {k : UnitId} {s : State} (hcur : s.cur = .iq) (hk : unitOf sel = some k) :
    exec (.spgGetpsd sel) s
      = .next { s with outIq := s.outIq ++ [⟨.psdData, sel, false, (s.unit k).getPsd s.par⟩] } := by
  simp only [exec, execSpgGetpsd, unitSel_of_unitOf hk, bits_of_unitOf hk]
  exact guarded_unit_pass hcur hk ..

/-- The report maps each shifted bin, averaged in accumulate mode over the transforms counted, to dB. -/
theorem SpgUnit.getPsd_eq_map (u : SpgUnit) (p : Params) :
    u.getPsd p = (Bin32.shift u.psd).map fun v =>
      Bin32.dB p.spg.epsPwr (if u.acc = true ∧ u.nt ≠ 0 then Bin32.divNat v u.nt.toNat else v) := by
  unfold SpgUnit.getPsd
  by_cases h : u.acc = true ∧ u.nt ≠ 0
  · have hmean : (u.acc && u.nt != 0) = true := by simpa using h
    simp only [hmean, if_true, if_pos h, List.map_map]
    rfl
  · have hmean : (u.acc && u.nt != 0) = false := by simpa using h
    simp only [hmean, Bool.false_eq_true, if_false, if_neg h]

theorem SpgUnit.getPsd_getElem? (u : SpgUnit) (p : Params) {i : Nat} (hi : i < u.psd.length) :
    (u.getPsd p)[i]? = some
      (let v := u.psd.getD ((i + (u.psd.length - u.psd.length / 2)) % u.psd.length) 0
       Bin32.dB p.spg.epsPwr (if u.acc = true ∧ u.nt ≠ 0 then Bin32.divNat v u.nt.toNat else v)) := by
  have hbin : (i + (u.psd.length - u.psd.length / 2)) % u.psd.length < u.psd.length := Nat.mod_lt _ (Nat.zero_lt_of_lt hi)
  rw [SpgUnit.getPsd_eq_map, List.getElem?_map, Bin32.shift_getElem? _ _ hi, List.getElem?_eq_getElem hbin,
    List.getD_eq_getElem _ _ hbin, Option.map_some]

/-- Settles O24: the event carries `getPsd`, described element by element. -/
theorem spgGetpsdReports : Obligations.SpgGetpsdReports := by
  refine ⟨fun sel more => decode_of_encode_unit (payload := []) rfl rfl more, fun sel s => ⟨fun hport => ?_,
    fun hcur hsel => ?_, fun k hcur hk => ?_⟩⟩
  · exact guarded_unit_wrongPort hport ..
  · exact guarded_unit_badUnit hcur hsel ..
  · exact ⟨_, exec_spgGetpsd_next hcur hk, SpgUnit.getPsd_length .., fun i hi =>
      SpgUnit.getPsd_getElem? _ _ (SpgUnit.getPsd_length (s.unit k) s.par ▸ hi)⟩

/-! ## SPG.SETALPHA (R153) -/

/-- SPG.SETALPHA on port 0 and a unit that exists: its scalar alone decides. -/
theorem exec_spgSetalpha_eq {sel : BitVec 4} {k : UnitId} {s : State} (v : Word) (hcur : s.cur = .iq)
    (hk : unitOf sel = some k) :
    exec (.spgSetalpha sel v) s
      = guarded [(notAdmitted s v || !alphaLegal v, .badValue)] s (s.setUnit k ((s.unit k).setAlpha v)) := by
  simp only [exec, execSpgSetalpha, unitSel_of_unitOf hk]
  exact guarded_unit_pass hcur hk ..

/-- The legal operand in terms of exact values. -/
theorem alphaLegal_iff {v : Sc} (hv : Bin32.isFinite v = true) :
    alphaLegal v = true ↔ v = 0xBF800000#32 ∨ (0 ≤ Bin32.fix v ∧ Bin32.fix v ≤ 2 ^ 149) := by
  rw [alphaLegal, Bool.or_eq_true, beq_iff_eq, Bin32.inUnit_iff hv, Bin32.minusOne]

/-- The check of SPG.SETALPHA's scalar, written out. -/
theorem alphaCheck_eq_false_iff (s : State) (v : Word) :
    (notAdmitted s v || !alphaLegal v) = false
      ↔ (Bin32.isFinite v = true ∧ Bin32.mag v ≤ Bin32.mag s.par.spg.inMax)
        ∧ (v = 0xBF800000#32 ∨ (0 ≤ Bin32.fix v ∧ Bin32.fix v ≤ 2 ^ 149)) := by
  rw [Bool.or_eq_false_iff, notAdmitted, Bool.not_eq_false', Bool.not_eq_false', admitted_iff]
  exact and_congr_right fun hadm => alphaLegal_iff hadm.1

theorem exec_spgSetalpha_next {sel : BitVec 4} {k : UnitId} {s : State} {v : Word} (hcur : s.cur = .iq)
    (hk : unitOf sel = some k) (hadm : Bin32.isFinite v = true ∧ Bin32.mag v ≤ Bin32.mag s.par.spg.inMax)
    (hlegal : v = 0xBF800000#32 ∨ (0 ≤ Bin32.fix v ∧ Bin32.fix v ≤ 2 ^ 149)) :
    exec (.spgSetalpha sel v) s = .next (s.setUnit k ((s.unit k).setAlpha v)) :=
  (exec_spgSetalpha_eq v hcur hk).trans (guarded_pass ((alphaCheck_eq_false_iff s v).mpr ⟨hadm, hlegal⟩) ..)

/-- Settles O25: the scalar's check fails in the first case; -1.0 is outside [0, 1], so the two modes exclude each other. -/
theorem spgSetalphaSelectsMode : Obligations.SpgSetalphaSelectsMode := by
  refine ⟨fun sel v more => decode_of_encode_unit (payload := [v]) rfl rfl more, fun sel v s => ⟨fun hport => ?_,
    fun hcur hsel => ?_, fun k hcur hk => ⟨fun hbad => ?_, fun hadm hminus => ?_, fun hadm hunit => ?_⟩⟩⟩
  · exact guarded_unit_wrongPort hport ..
  · exact guarded_unit_badUnit hcur hsel ..
  · have hcheck : (notAdmitted s v || !alphaLegal v) = true := by
      rw [← Bool.not_eq_false, alphaCheck_eq_false_iff, not_and_or, not_or]
      exact hbad
    exact (exec_spgSetalpha_eq v hcur hk).trans (guarded_fail hcheck ..)
  · obtain ⟨-, hset⟩ := ((s.unit k).setAlpha_cases v).resolve_right fun h => h.1 hminus
    rw [exec_spgSetalpha_next hcur hk hadm (.inl hminus), hset]
    rfl
  · have hne : v ≠ Bin32.minusOne := by
      rintro rfl
      exact absurd ((Bin32.inUnit_iff hadm.1).mpr hunit) (Bool.eq_false_iff.mp Bin32.inUnit_minusOne)
    obtain ⟨-, hset⟩ := ((s.unit k).setAlpha_cases v).resolve_left fun h => hne h.1
    rw [exec_spgSetalpha_next hcur hk hadm (.inr hunit), hset]
    rfl

/-! ## SPG.CLEAR and SPG.RESET (R154 to R156) -/

/-- SPG.RESET is SPG.CLEAR under another opcode (R155). -/
theorem exec_spgReset_eq (sel : BitVec 4) (s : State) : exec (.spgReset sel) s = exec (.spgClear sel) s := rfl

theorem exec_spgClear_next {sel : BitVec 4} {k : UnitId} {s : State} (hcur : s.cur = .iq) (hk : unitOf sel = some k) :
    exec (.spgClear sel) s = .next (s.setUnit k (s.unit k).clear) := by
  simp only [exec, execSpgClear, unitSel_of_unitOf hk]
  exact guarded_unit_pass hcur hk ..

/-- Settles O26: both commands are SPG.CLEAR, whose effect is `spg_clear`. -/
theorem spgClearAndResetZeroUnit : Obligations.SpgClearAndResetZeroUnit := by
  refine ⟨fun sel more => ⟨decode_of_encode_unit (payload := []) rfl rfl more,
    decode_of_encode_unit (payload := []) rfl rfl more⟩, fun sel s i hi => ?_⟩
  have hclear : exec i s = exec (.spgClear sel) s := by
    rcases List.mem_pair.mp hi with rfl | rfl
    · rfl
    · exact exec_spgReset_eq sel s
  rw [hclear]
  exact ⟨fun hport => guarded_unit_wrongPort hport .., fun hcur hsel => guarded_unit_badUnit hcur hsel ..,
    fun k hcur hk => exec_spgClear_next hcur hk⟩

end Machine
end Sys2Proof
end

section
/-! PROOFS. The sample path sample by sample (R170 to R172, R192), the decimator's outputs (R174), and the CW path of one audio
sample up to the decimated sample (R260 to R267). -/

namespace Sys2Proof
namespace Bin32

/-! ## FIR sums (R174, R262) -/

/-- Against the reversed delay line, tap k meets element L-1-k (R174). -/
theorem zipWith_reverse_eq_map_range {α β γ : Type} (f : α → β → γ) {taps : List α} {dl : List β} (a : α) (b : β)
    (h : dl.length = taps.length) :
    List.zipWith f taps dl.reverse
      = (List.range taps.length).map fun k => f (taps.getD k a) (dl.getD (taps.length - 1 - k) b) := by
  refine List.ext_getElem (by simp [h]) fun k hk _ => ?_
  have hk' : k < taps.length := by simpa [h] using hk
  have hj : taps.length - 1 - k < dl.length := by omega
  simp [h, hk', List.getElem?_eq_getElem hj]

/-- The sum over the taps of a term of the tap and its element, in `NUM`'s order. -/
theorem sumOf_fir {β : Type} (site : Config.SumSite) (term : Sc → β → Sc) {taps : List Sc} {dl : List β} (b : β)
    (hne : taps ≠ []) (h : dl.length = taps.length) :
    SumOf ((List.range taps.length).map fun k => term (taps.getD k 0) (dl.getD (taps.length - 1 - k) b))
      (sum site (List.zipWith term taps dl.reverse)) := by
  rw [zipWith_reverse_eq_map_range term 0 b h]
  exact sum_sumOf site _ (by simpa using hne)

@[simp] theorem swap_swap (x : Cx) : swap (swap x) = x := rfl

end Bin32

namespace Machine

/-! ## The decimator (R174) -/

theorem Decim.push_below {d : Decim} {m : Nat} (h : d.ph + 1 ≠ m) (taps : List Sc) (x : Cx) :
    d.push m taps x = (⟨Bin32.push d.dl x, d.ph + 1⟩, none) := if_neg h

theorem Decim.push_full {d : Decim} {m : Nat} (h : d.ph + 1 = m) (taps : List Sc) (x : Cx) :
    d.push m taps x = (⟨Bin32.push d.dl x, 0⟩, some (firOutput taps (Bin32.push d.dl x))) := if_pos h

/-- The phase counts inputs modulo the factor. -/
theorem Decim.push_ph {d : Decim} {m : Nat} (taps : List Sc) (x : Cx) (h : d.ph < m) :
    (d.push m taps x).1.ph = (d.ph + 1) % m := by
  by_cases hm : d.ph + 1 = m
  · rw [Decim.push_full hm, hm, Nat.mod_self]
  · rw [Decim.push_below hm, Nat.mod_eq_of_lt (by omega)]

/-- Both parts of the FIR output are sums of each tap times its sample, tap 0 with the newest. -/
theorem firOutput_sumOf {taps : List Sc} {dl : List Cx} (hne : taps ≠ []) (h : dl.length = taps.length) :
    Bin32.SumOf ((List.range taps.length).map fun k =>
        Bin32.mul (taps.getD k 0) (dl.getD (taps.length - 1 - k) Cx.zero).re) (firOutput taps dl).re
      ∧ Bin32.SumOf ((List.range taps.length).map fun k =>
        Bin32.mul (taps.getD k 0) (dl.getD (taps.length - 1 - k) Cx.zero).im) (firOutput taps dl).im := by
  rw [firOutput, Bin32.csum, List.map_zipWith, List.map_zipWith]
  exact ⟨Bin32.sumOf_fir .firRe (fun tap x => Bin32.mul tap x.re) Cx.zero hne h,
    Bin32.sumOf_fir .firIm (fun tap x => Bin32.mul tap x.im) Cx.zero hne h⟩

/-- From phase zero, `n` times the factor many inputs append `n` outputs. -/
theorem Decim.feedAll_length_append {m n : Nat} (taps : List Sc) {d : Decim} (xs out : List Cx) (hm : 1 ≤ m) (h0 : d.ph = 0)
    (hl : xs.length = n * m) : (Decim.feedAll true m taps (d, out) xs).2.length = out.length + n := by
  have hph := Decim.feedAll_ph (on := true) taps out xs h0 fun _ => ⟨hm, hl ▸ Nat.dvd_mul_left ..⟩
  obtain ⟨-, hcount⟩ := Decim.feedAll_count m taps xs (d, out) (by simp only [h0]; omega)
  refine Nat.eq_of_mul_eq_mul_left hm ?_
  simp only [hph, h0, hl, Nat.zero_add] at hcount
  rw [hcount]
  ring

/-- Settles O30: the two branches of the step, and its count over a list from phase zero. -/
theorem decimatorCountsOutputs : Obligations.DecimatorCountsOutputs := by
  refine ⟨fun m taps d x => ⟨fun hbelow => Decim.push_below hbelow .., fun hfull =>
      ⟨_, Decim.push_full hfull .., fun htaps hl => ?_⟩⟩, fun m n taps d xs out hm h0 hl => ⟨?_, ?_, ?_⟩⟩
  · exact firOutput_sumOf htaps ((Bin32.push_length ..).trans hl)
  · exact Decim.feedAll_ph taps out xs h0 fun _ => ⟨hm, hl ▸ Nat.dvd_mul_left ..⟩
  · exact Decim.feedAll_dl_length ..
  · exact Decim.feedAll_length_append taps xs out hm h0 hl

/-! ## The sample path (R170 to R172, R192) -/

theorem State.frontEnd_nil (s : State) (tx : Bool) :
    s.frontEnd [] tx = { dcb := s.dcb, zdec := s.zdec, adec := s.adec, full := [], zc := [], ac := [] } := rfl

/-- One more sample is one more turn of the loop. -/
theorem State.frontEnd_append (s : State) (buf : List Cx) (x : Cx) (tx : Bool) :
    s.frontEnd (buf ++ [x]) tx = (s.frontEnd buf tx).step s.par (s.frontConfig tx) x := by
  rw [State.frontEnd, List.foldl_append]
  rfl

theorem Decim.feed_eq_ite (d : Decim) {on : Bool} {c : Prop} [Decidable c] (h : on = true ↔ c) (m : Nat) (taps : List Sc)
    (out : List Cx) (x : Cx) :
    d.feed on m taps out x
      = if c then ((d.push m taps x).1, out ++ (d.push m taps x).2.toList) else (d, out) := if_congr h rfl rfl

theorem anfBranch_iff (r : CfgRegs) (tx : Bool) : anfBranch r tx = true ↔ tx = false ∧ r.mode.getLsbD 0 = true := by
  rw [anfBranch, Bool.and_eq_true, Bool.not_eq_true', CfgRegs.anfEn]

/-- Settles O29: the longer frame is one more turn of the loop, whose two decimators run on their conditions. -/
theorem fullRateChunkIsSwappedDcBlocked : Obligations.FullRateChunkIsSwappedDcBlocked := by
  intro s tx buf x
  simp only [State.frontEnd_append, FrontEnd.step_zdec, FrontEnd.step_adec]
  refine ⟨rfl, rfl, ?_, ?_, ?_, State.frontEnd_nil s tx⟩
  · rw [FrontEnd.step_full, List.getLastD_concat, Bin32.swap_swap]
    rfl
  · exact Decim.feed_eq_ite _ decide_eq_true_iff ..
  · exact Decim.feed_eq_ite _ (anfBranch_iff s.regs tx) ..

/-! ## AUD.SAMPLES with CW_EN set (R260 to R267) -/

/-- One audio sample advances both phases by one and keeps what their advance depends on (R265, R266). -/
theorem State.audioStep_phases {s : State} (hon : s.regs.cwEn = true) (hph : s.cwdec.ph < s.par.cw.dCw) (w : Word) :
    (s.audioStep w).regs = s.regs ∧ (s.audioStep w).par = s.par ∧ (s.audioStep w).ddsFtw = s.ddsFtw
      ∧ (s.audioStep w).ddsAcc = s.ddsAcc + s.ddsFtw
      ∧ (s.audioStep w).cwdec.ph = (s.cwdec.ph + 1) % s.par.cw.dCw := by
  obtain ⟨acc, dec, cw, es, hf, -, ⟨hoff, -⟩ | ⟨-, rfl, m, rfl, -⟩⟩ := s.audioStep_frame w
  · rw [hon] at hoff
    cases hoff
  · rw [hf]
    exact ⟨rfl, rfl, rfl, rfl, Decim.push_ph _ m hph⟩

/-- Both phases over the loop of AUD.SAMPLES. -/
theorem State.audioFold_phases (ws : List Word) : ∀ s : State, s.regs.cwEn = true → s.cwdec.ph < s.par.cw.dCw →
    (ws.foldl State.audioStep s).ddsAcc.toNat = (s.ddsAcc.toNat + ws.length * s.ddsFtw.toNat) % 2 ^ 32
      ∧ (ws.foldl State.audioStep s).cwdec.ph = (s.cwdec.ph + ws.length) % s.par.cw.dCw := by
  induction ws with
  | nil =>
    intro s _ hph
    simpa using ⟨(Nat.mod_eq_of_lt s.ddsAcc.isLt).symm, (Nat.mod_eq_of_lt hph).symm⟩
  | cons w ws ih =>
    intro s hon hph
    obtain ⟨hregs, hpar, hftw, hacc, hdec⟩ := s.audioStep_phases hon hph w
    have hlt : (s.audioStep w).cwdec.ph < (s.audioStep w).par.cw.dCw := by
      rw [hdec, hpar]
      exact Nat.mod_lt _ (by omega)
    obtain ⟨iacc, idec⟩ := ih (s.audioStep w) (by rw [hregs, hon]) hlt
    rw [List.foldl_cons, iacc, idec, hacc, hftw, hdec, hpar, BitVec.toNat_add, Nat.mod_add_mod, Nat.mod_add_mod,
      List.length_cons]
    exact ⟨by congr 1; ring, by congr 1; omega⟩

/-- A sample that gives no decimated sample moves the two phases and the decimator alone (R265, R266). -/
theorem State.decodeTone_of_none {s : State} {c : Cx}
    (h : (s.cwdec.push s.par.cw.dCw (Rom.cwTaps s.par) (mixDown s.ddsAcc c)).2 = none) :
    s.decodeTone c = { s with
      ddsAcc := s.ddsAcc + s.ddsFtw
      cwdec := (s.cwdec.push s.par.cw.dCw (Rom.cwTaps s.par) (mixDown s.ddsAcc c)).1 } := by
  simp only [State.decodeTone, h]

/-- A decimated sample runs `cw_sample` on top (R266, R267). -/
theorem State.decodeTone_of_some {s : State} {c d : Cx}
    (h : (s.cwdec.push s.par.cw.dCw (Rom.cwTaps s.par) (mixDown s.ddsAcc c)).2 = some d) :
    s.decodeTone c = { s with
      ddsAcc := s.ddsAcc + s.ddsFtw
      cwdec := (s.cwdec.push s.par.cw.dCw (Rom.cwTaps s.par) (mixDown s.ddsAcc c)).1
      cw := (s.cw.sample s.par s.regs d).1
      outAud := s.outAud ++ (s.cw.sample s.par s.regs d).2 } := by
  simp only [State.decodeTone, h]
  rfl

/-- With CW_EN set a single sample is one turn of the decoder on the advanced delay line. -/
theorem exec_audSamples_singleton {s : State} (hcur : s.cur = .aud) (hon : s.regs.cwEn = true) (w : Word) :
    exec (.audSamples [w]) s
      = .next (State.decodeTone { s with hilbDl := Bin32.push s.hilbDl (audioSample w) }
          (hilbertOutput s.par (Bin32.push s.hilbDl (audioSample w)))) := by
  rw [exec_audSamples hcur, List.foldl_cons, List.foldl_nil, State.audioStep_of_cwOn hon]

/-- Settles O46: the phases by induction over the samples; one sample by what the decoder does with and without an output. -/
theorem eachSampleAdvancesPhases : Obligations.EachSampleAdvancesPhases := by
  intro s hcur hon
  refine ⟨fun ws hph => ⟨_, exec_audSamples hcur ws, State.audioFold_phases ws s hon hph⟩, fun w hl htaps hdelay => ?_⟩
  have hne : Rom.hilbertTaps s.par ≠ [] := List.ne_nil_of_length_pos (by omega)
  have hline : (Bin32.push s.hilbDl (audioSample w)).length = (Rom.hilbertTaps s.par).length := by
    rw [Bin32.push_length, hl, htaps]
  have hfir := Bin32.sumOf_fir .hilbert Bin32.mul 0 hne hline
  rw [htaps] at hfir
  refine ⟨_, hfir, fun hnone => ?_, fun d hsome => ?_⟩
  · exact (exec_audSamples_singleton hcur hon w).trans (congrArg _ (State.decodeTone_of_none hnone))
  · exact (exec_audSamples_singleton hcur hon w).trans (congrArg _ (State.decodeTone_of_some hsome))

end Machine
end Sys2Proof
end

section
/-! PROOFS. DSP.SAMPLES (R190 to R202, R230): the whole command with the settle counter above 0 and at 0, the waterfall emission and
its hold, which events a frame emits, and what a transmit frame leaves. -/

namespace Sys2Proof
namespace Machine

/-! ## The command and the settle counter (R190 to R195) -/

/-- DSP.SAMPLES on port 0 with a whole frame of admitted samples completes (R116, R191). -/
theorem exec_dspSamples_next {tx : Bool} {buf : List (Word × Word)} {s : State} (hcur : s.cur = .iq)
    (hlen : buf.length = s.par.spg.radioChunk) (hadm : samplesNotAdmitted s buf = false) :
    exec (.dspSamples tx buf) s = .next (s.frame tx (complexSamples buf)) := by
  refine guarded_next ?_
  simp [notOnPort_self hcur, hlen, hadm]

/-- A DSP.SAMPLES that leaves the block running has had its effect: a fault would have halted it. -/
theorem eq_frame_of_exec_dspSamples {tx : Bool} {buf : List (Word × Word)} {s t : State}
    (hx : exec (.dspSamples tx buf) s = .next t) (ht : t.run = s.run) (hr : s.run = .run) :
    t = s.frame tx (complexSamples buf) := by
  rcases exec_cases (.dspSamples tx buf) s with ⟨f, -, he⟩ | ⟨-, he⟩ <;> rw [he] at hx <;> cases hx
  · exact absurd (ht.trans hr) (by simp [raise])
  · rfl

/-- A frame with the settle counter above 0 is accumulated and counted, and that is all (R195). -/
theorem State.frame_of_settling {s : State} (h : s.psdDelay ≠ 0) (tx : Bool) (buf : List Cx) :
    s.frame tx buf = { s.processSamples buf tx with psdDelay := s.psdDelay - 1 } := by
  have hset : (s.processSamples buf tx).settled = false := beq_eq_false_iff_ne.mpr h
  rw [State.frame, hset]
  exact if_neg h

/-- A frame with the settle counter at 0 goes on to the outputs (R190, R195). -/
theorem State.frame_of_settled {s : State} (h : s.psdDelay = 0) (tx : Bool) (buf : List Cx) :
    s.frame tx buf = (s.processSamples buf tx).produceOutputs tx := by
  have hset : (s.processSamples buf tx).settled = true := beq_iff_eq.mpr h
  have hcount : (s.processSamples buf tx).countSettle = s.processSamples buf tx := if_pos h
  simp only [State.frame, hset, hcount, if_true]

/-- Settles O32: a settling frame is `process_samples` and the count, which write none of the parts named. -/
theorem settlingFrameIsDropped : Obligations.SettlingFrameIsDropped := by
  intro tx buf s t hx ht hr hd
  rw [eq_frame_of_exec_dspSamples hx ht hr, State.frame_of_settling hd]
  exact ⟨⟨rfl, rfl, rfl⟩, rfl, rfl, rfl, rfl, rfl, rfl, rfl, rfl, rfl, rfl, rfl, rfl⟩

/-! ## What the updates leave unchanged -/

@[simp] theorem State.updateSpectrum_regs (s : State) (tx : Bool) : (s.updateSpectrum tx).regs = s.regs := by
  obtain ⟨_, _, _, _, h, -⟩ := s.updateSpectrum_frame tx
  rw [h]; rfl

@[simp] theorem State.updateWaterfall_regs (s : State) (tx : Bool) : (s.updateWaterfall tx).regs = s.regs := by
  obtain ⟨_, _, _, _, _, _, h, -⟩ := s.updateWaterfall_frame tx
  rw [h]; rfl

/-- The model's test of the ANF branch as the conditions of R193. -/
theorem ite_anfBranch {α : Type} (r : CfgRegs) (tx : Bool) (a b : α) :
    (if anfBranch r tx then a else b) = if tx = false ∧ r.mode.getLsbD 0 = true then a else b :=
  if_congr (anfBranch_iff r tx) rfl rfl

theorem State.produceOutputs_eq (s : State) (tx : Bool) :
    s.produceOutputs tx
      = if tx = false ∧ s.regs.mode.getLsbD 0 = true then ((s.updateSpectrum tx).updateWaterfall tx).anfUpdate
        else (s.updateSpectrum tx).updateWaterfall tx := by
  rw [State.produceOutputs, ite_anfBranch, State.updateWaterfall_regs, State.updateSpectrum_regs]

/-- Settles O28: `process_samples` writes the parts named; the settle counter decides what follows. -/
theorem dspSamplesWritesUnits : Obligations.DspSamplesWritesUnits := by
  intro tx buf s hcur hlen hadm f anfOn s1 s2
  have hexec := exec_dspSamples_next (tx := tx) hcur hlen (samplesNotAdmitted_eq_false hadm)
  have hproc : s.processSamples (complexSamples buf) tx = s1 := by
    simp only [State.processSamples, ite_anfBranch]
    rfl
  refine ⟨fun hd => ?_, fun hd => ?_, _, hexec, ?_⟩
  · rw [hexec, State.frame_of_settling hd, hproc]
  · rw [hexec, State.frame_of_settled hd, hproc, State.produceOutputs_eq]
  · obtain ⟨d, o, hf, hd, -⟩ := s.frame_frame tx (complexSamples buf)
    rw [hf, hproc]
    exact ⟨⟨rfl, rfl, rfl, rfl⟩, ⟨rfl, rfl, rfl, rfl, rfl⟩, ⟨rfl, rfl, rfl, rfl, rfl⟩, rfl, rfl, rfl, rfl, rfl, rfl, rfl,
      rfl, rfl, rfl, hd⟩

/-! ## The waterfall emission and the hold (R199 to R201, R230) -/

/-- The state after a waterfall emission and before what follows it: the event and the time. -/
def State.emitWaterfall (s : State) (tx : Bool) : State :=
  { s with
    lastWfMs := s.timeMs
    outIq := s.outIq ++ [⟨.waterfallData, 0, tx, (s.waterfall.getPsd s.par).map (Bin32.add · s.par.feed.wfCalDb)⟩] }

theorem State.updateWaterfall_of_closed {s : State} (h : s.timeMs.toNat ≤ s.lastWfMs.toNat + s.par.feed.wfPeriodMs)
    (tx : Bool) : s.updateWaterfall tx = s := by
  rcases s.updateWaterfall_cases tx with ⟨-, hw⟩ | ⟨hg, -⟩
  · exact hw
  · exact absurd ((gatePasses_iff ..).mp hg) (not_lt.mpr h)

theorem State.updateWaterfall_of_open {s : State} (h : s.lastWfMs.toNat + s.par.feed.wfPeriodMs < s.timeMs.toNat)
    (tx : Bool) :
    s.updateWaterfall tx
      = if tx then { s.emitWaterfall tx with minMaxDelay := s.par.feed.minmaxDelayTx }
        else (s.emitWaterfall tx).afterRxWaterfall ((s.waterfall.getPsd s.par).map (Bin32.add · s.par.feed.wfCalDb)) := by
  rcases s.updateWaterfall_cases tx with ⟨hg, -⟩ | ⟨-, hw⟩
  · exact absurd ((gatePasses_iff ..).mpr h) (by rw [hg]; exact Bool.false_ne_true)
  · exact hw

/-- Settles O36: past the gate a transmit emission arms the hold; after a receive one the meter, then the levels or the count, with
what they leave. -/
theorem waterfallEmissionAndHold : Obligations.WaterfallEmissionAndHold := by
  intro s tx q s1 s2
  refine ⟨fun hle => State.updateWaterfall_of_closed hle tx, fun hlt => ?_⟩
  have hopen := State.updateWaterfall_of_open hlt tx
  cases tx with
  | true =>
    rw [if_pos rfl] at hopen
    rw [hopen]
    exact ⟨fun _ => rfl, nofun, nofun, rfl, ⟨[], rfl⟩, nofun, fun _ => ⟨rfl, rfl⟩, fun _ => rfl⟩
  | false =>
    rw [if_neg Bool.false_ne_true] at hopen
    have hrx : (s.emitWaterfall false).afterRxWaterfall q = if s.minMaxDelay = 0 then s2.autolevel q
        else { s2 with minMaxDelay := s.minMaxDelay - 1 } := State.afterRxWaterfall_eq ..
    obtain ⟨md, gmin, gmax, hold, es, hf, -, hhold, -, hlevels, hmeter⟩ := (s.emitWaterfall false).afterRxWaterfall_frame q
    refine ⟨nofun, fun _ h0 => ?_, fun _ hne => ?_, ?_⟩
    · exact (hopen.trans hrx).trans (if_pos h0)
    · exact (hopen.trans hrx).trans (if_neg hne)
    · rw [hopen, hf]
      exact ⟨rfl, ⟨es, List.append_assoc ..⟩, fun _ => hhold, fun h => hlevels (h.resolve_right nofun),
        fun h => hmeter (h.resolve_right nofun)⟩

/-! ## Which events a frame emits (R196, R199, R202, R222, R230, R241) -/

/-- The kinds of the events of `update_spectrum`: one past its gate (R196, R197). -/
def State.spectrumKinds (s : State) : List EventKind :=
  if s.lastSpecMs.toNat + s.par.feed.specPeriodMs < s.timeMs.toNat then [.spectrumData] else []

/-- The kinds of the level events (R222). -/
def levelKinds (r : CfgRegs) : List EventKind :=
  (if r.specAuto = true then [.specMin, .specMax] else []) ++ (if r.wfAuto = true then [.wfMin, .wfMax] else [])

/-- The kinds of the events that follow a receive emission: the meter unless recording, the levels without a hold (R199, R222,
R230). -/
def State.afterRxKinds (s : State) : List EventKind :=
  (if s.regs.recActive = false then [.meterUpdate] else []) ++ (if s.minMaxDelay = 0 then levelKinds s.regs else [])

/-- The kinds of the events of `update_waterfall` (R199). -/
def State.waterfallKinds (s : State) (tx : Bool) : List EventKind :=
  if s.lastWfMs.toNat + s.par.feed.wfPeriodMs < s.timeMs.toNat then
    .waterfallData :: if tx = true then [] else s.afterRxKinds
  else []

theorem State.updateSpectrum_kinds (s : State) (tx : Bool) :
    (s.updateSpectrum tx).outIq.map Event.kind = s.outIq.map Event.kind ++ s.spectrumKinds := by
  unfold State.spectrumKinds
  rcases s.updateSpectrum_cases tx with ⟨hg, h⟩ | ⟨hg, h⟩ <;> rw [h]
  · rw [if_neg (of_decide_eq_false hg), List.append_nil]
  · rw [if_pos (of_decide_eq_true hg), List.map_append]
    rfl

theorem levelEvents_kinds (r : CfgRegs) (lo hi : Sc) : (levelEvents r lo hi).map Event.kind = levelKinds r := by
  unfold levelEvents levelKinds
  cases r.specAuto <;> cases r.wfAuto <;> rfl

theorem State.autolevel_kinds (s : State) (q : List Sc) :
    (s.autolevel q).outIq.map Event.kind = s.outIq.map Event.kind ++ levelKinds s.regs := by
  rcases s.autolevel_cases q with ⟨h3, h4, h⟩ | ⟨-, h⟩ <;> rw [h]
  · simp [levelKinds, h3, h4]
  · rw [List.map_append, levelEvents_kinds]

theorem State.afterRxWaterfall_kinds (s : State) (q : List Sc) :
    (s.afterRxWaterfall q).outIq.map Event.kind = s.outIq.map Event.kind ++ s.afterRxKinds := by
  have hmeter : (if s.regs.recActive = true then s else s.smeter q).outIq.map Event.kind
      = s.outIq.map Event.kind ++ if s.regs.recActive = false then [.meterUpdate] else [] := by
    cases s.regs.recActive <;> simp [State.smeter_eq]
  have hregs : (if s.regs.recActive = true then s else s.smeter q).regs = s.regs := by
    split <;> rfl
  rw [State.afterRxWaterfall_eq, State.afterRxKinds, ← List.append_assoc, ← hmeter]
  by_cases hz : s.minMaxDelay = 0
  · rw [if_pos hz, if_pos hz, State.autolevel_kinds, hregs]
  · rw [if_neg hz, if_neg hz, List.append_nil]

theorem State.emitWaterfall_kinds (s : State) (tx : Bool) :
    (s.emitWaterfall tx).outIq.map Event.kind = s.outIq.map Event.kind ++ [.waterfallData] := List.map_append

theorem State.updateWaterfall_kinds (s : State) (tx : Bool) :
    (s.updateWaterfall tx).outIq.map Event.kind = s.outIq.map Event.kind ++ s.waterfallKinds tx := by
  unfold State.waterfallKinds
  split
  next hopen =>
    rw [State.updateWaterfall_of_open hopen]
    cases tx
    · have hrx : (s.emitWaterfall false).afterRxKinds = s.afterRxKinds := rfl
      rw [if_neg Bool.false_ne_true, if_neg Bool.false_ne_true, State.afterRxWaterfall_kinds, State.emitWaterfall_kinds, hrx,
        List.append_assoc]
      rfl
    · exact s.emitWaterfall_kinds true
  next hclosed => rw [State.updateWaterfall_of_closed (not_lt.mp hclosed), List.append_nil]

/-- An ANF event comes only past its gate (R241). -/
theorem State.anfUpdate_kinds (s : State) :
    ∃ ks : List EventKind, s.anfUpdate.outIq.map Event.kind = s.outIq.map Event.kind ++ ks
      ∧ ∀ k ∈ ks, k = .anfFreq ∧ s.lastAnfMs.toNat + s.par.feed.anfPeriodMs < s.timeMs.toNat := by
  rcases s.anfUpdate_cases with ⟨-, h⟩ | ⟨hg, -⟩
  · exact ⟨[], by simp [h], by simp⟩
  · obtain ⟨_, _, _, es, h, hk, -⟩ := s.anfUpdate_frame
    refine ⟨es.map Event.kind, ?_, fun k hmem => ⟨by simpa using hk.subset hmem, (gatePasses_iff ..).mp hg⟩⟩
    rw [h]
    exact List.map_append

/-- The events of a settled frame: those of the two displays, then on the ANF branch at most an ANF frequency (R190, R202). -/
theorem State.produceOutputs_kinds (s : State) (tx : Bool) :
    ∃ ks : List EventKind,
      (s.produceOutputs tx).outIq.map Event.kind
          = s.outIq.map Event.kind ++ (s.spectrumKinds ++ (s.waterfallKinds tx ++ ks))
        ∧ ∀ k ∈ ks, k = .anfFreq ∧ tx = false ∧ s.regs.mode.getLsbD 0 = true
            ∧ s.lastAnfMs.toNat + s.par.feed.anfPeriodMs < s.timeMs.toNat := by
  obtain ⟨_, _, _, _, hspec, -⟩ := s.updateSpectrum_frame tx
  obtain ⟨_, _, _, _, _, _, hwf, -⟩ := (s.updateSpectrum tx).updateWaterfall_frame tx
  have hks : ((s.updateSpectrum tx).updateWaterfall tx).outIq.map Event.kind
      = s.outIq.map Event.kind ++ (s.spectrumKinds ++ s.waterfallKinds tx) := by
    rw [State.updateWaterfall_kinds, State.updateSpectrum_kinds, List.append_assoc, hspec]
    rfl
  rw [State.produceOutputs_eq]
  split
  next hanf =>
    obtain ⟨htx, hen⟩ := hanf
    obtain ⟨ks, hmap, hmem⟩ := ((s.updateSpectrum tx).updateWaterfall tx).anfUpdate_kinds
    refine ⟨ks, by rw [hmap, hks, List.append_assoc, List.append_assoc], fun k hk => ?_⟩
    obtain ⟨hkind, hgate⟩ := hmem k hk
    rw [hwf, hspec] at hgate
    exact ⟨hkind, htx, hen, hgate⟩
  next => exact ⟨[], by rw [hks, List.append_nil], by simp⟩

theorem State.mem_spectrumKinds {s : State} {k : EventKind} :
    k ∈ s.spectrumKinds ↔ s.lastSpecMs.toNat + s.par.feed.specPeriodMs < s.timeMs.toNat ∧ k = .spectrumData := by
  simp [State.spectrumKinds]

theorem mem_levelKinds {r : CfgRegs} {k : EventKind} :
    k ∈ levelKinds r ↔ r.mode.getLsbD 3 = true ∧ (k = .specMin ∨ k = .specMax)
      ∨ r.mode.getLsbD 4 = true ∧ (k = .wfMin ∨ k = .wfMax) := by
  simp [levelKinds, CfgRegs.specAuto, CfgRegs.wfAuto]

theorem State.mem_afterRxKinds {s : State} {k : EventKind} :
    k ∈ s.afterRxKinds ↔ s.regs.mode.getLsbD 5 = false ∧ k = .meterUpdate
      ∨ s.minMaxDelay = 0 ∧ k ∈ levelKinds s.regs := by
  simp [State.afterRxKinds, CfgRegs.recActive]

theorem State.mem_waterfallKinds {s : State} {tx : Bool} {k : EventKind} :
    k ∈ s.waterfallKinds tx ↔ s.lastWfMs.toNat + s.par.feed.wfPeriodMs < s.timeMs.toNat
      ∧ (k = .waterfallData ∨ tx = false ∧ k ∈ s.afterRxKinds) := by
  simp [State.waterfallKinds]

/-- When nothing but an ANF frequency follows the displays' events, which other kinds are there. -/
theorem State.mem_frameKinds {s : State} {tx : Bool} {ks : List EventKind} {k : EventKind} (hks : ∀ k ∈ ks, k = .anfFreq)
    (hne : k ≠ .anfFreq) :
    k ∈ s.spectrumKinds ++ (s.waterfallKinds tx ++ ks)
      ↔ s.lastSpecMs.toNat + s.par.feed.specPeriodMs < s.timeMs.toNat ∧ k = .spectrumData
        ∨ s.lastWfMs.toNat + s.par.feed.wfPeriodMs < s.timeMs.toNat
          ∧ (k = .waterfallData
            ∨ tx = false
              ∧ (s.regs.mode.getLsbD 5 = false ∧ k = .meterUpdate
                ∨ s.minMaxDelay = 0
                  ∧ (s.regs.mode.getLsbD 3 = true ∧ (k = .specMin ∨ k = .specMax)
                    ∨ s.regs.mode.getLsbD 4 = true ∧ (k = .wfMin ∨ k = .wfMax)))) := by
  have hno : k ∉ ks := fun hk => hne (hks k hk)
  rw [List.mem_append, List.mem_append, State.mem_spectrumKinds, State.mem_waterfallKinds, State.mem_afterRxKinds,
    mem_levelKinds, or_iff_left hno]

theorem State.anfFreq_notMem_displays (s : State) (tx : Bool) :
    .anfFreq ∉ s.spectrumKinds ∧ .anfFreq ∉ s.waterfallKinds tx := by
  simp [State.mem_spectrumKinds, State.mem_waterfallKinds, State.mem_afterRxKinds, mem_levelKinds]

/-- A settled frame's events, as `frame_frame` lists them, have the kinds of its outputs. -/
theorem State.frame_kinds {s : State} (hd : s.psdDelay = 0) {tx : Bool} {buf : List Cx} {es : List Event}
    (hes : (s.frame tx buf).outIq = s.outIq ++ es) :
    ∃ ks : List EventKind, es.map Event.kind = s.spectrumKinds ++ (s.waterfallKinds tx ++ ks)
      ∧ ∀ k ∈ ks, k = .anfFreq ∧ tx = false ∧ s.regs.mode.getLsbD 0 = true
          ∧ s.lastAnfMs.toNat + s.par.feed.anfPeriodMs < s.timeMs.toNat := by
  obtain ⟨ks, hmap, hanf⟩ := (s.processSamples buf tx).produceOutputs_kinds tx
  rw [← State.frame_of_settled hd, hes, List.map_append] at hmap
  exact ⟨ks, List.append_cancel_left hmap, hanf⟩

/-- Settles O33: the order is that of `frame_frame`; which kinds are there is `frame_kinds` and `mem_frameKinds`. -/
theorem frameEventsInOrder : Obligations.FrameEventsInOrder := by
  intro tx buf s t hx
  rcases exec_cases (.dspSamples tx buf) s with ⟨f, -, he⟩ | ⟨-, he⟩ <;> rw [he] at hx <;> cases hx
  · exact ⟨[], (List.append_nil _).symm, rfl, rfl, List.nil_sublist _,
      fun ht hr => absurd (ht.trans hr) (by simp [raise])⟩
  · obtain ⟨d, o, hf, -, hsub, -⟩ := s.frame_frame tx (complexSamples buf)
    have hiq : (s.frame tx (complexSamples buf)).outIq = s.outIq ++ o.events := congrArg State.outIq hf
    refine ⟨o.events, hiq, (congrArg State.outAud hf :), (congrArg State.outCfg hf :), hsub, fun _ _ hd => ?_⟩
    obtain ⟨ks, hks, hanf⟩ := State.frame_kinds hd hiq
    have hmem := fun k hne => State.mem_frameKinds (s := s) (tx := tx) (k := k) (fun j hj => (hanf j hj).1) hne
    have hdisplays := s.anfFreq_notMem_displays tx
    rw [hks]
    refine ⟨?_, ?_, ?_, ?_, ?_, fun hk => ?_⟩
    · simpa using hmem .spectrumData nofun
    · simpa using hmem .waterfallData nofun
    · simpa [and_assoc] using hmem .meterUpdate nofun
    · simpa [and_assoc] using And.intro (hmem .specMin nofun) (hmem .specMax nofun)
    · simpa [and_assoc] using And.intro (hmem .wfMin nofun) (hmem .wfMax nofun)
    · have hin : .anfFreq ∈ ks := by simpa [hdisplays] using hk
      exact (hanf _ hin).2

/-! ## Transmit frames (R193, R199, R201) -/

/-- A transmit frame does not reach the ANF decimator (R193). -/
theorem State.frontEnd_adec_tx (s : State) (buf : List Cx) : (s.frontEnd buf true).adec = s.adec := by
  obtain ⟨ys, -, -, -, hadec⟩ := FrontEnd.foldl_step_cases s.par (s.frontConfig true) buf
    { dcb := s.dcb, zdec := s.zdec, adec := s.adec, full := [], zc := [], ac := [] }
  exact congrArg Prod.fst (hadec.trans (Decim.feedAll_false ..))

/-- The outputs of a transmit frame: the spectrum filter, the two emission times and the hold, which is armed exactly with a
waterfall event. -/
theorem State.produceOutputs_tx (s : State) :
    ∃ (lpf : List Sc) (v : Bool) (lspec lwf : BitVec 64) (hold : BitVec 8) (es : List Event),
      s.produceOutputs true = s.withOutputs { s.outputs with
          specLpf := lpf, specLpfValid := v, lastSpecMs := lspec, lastWfMs := lwf, minMaxDelay := hold, events := es }
        ∧ (∀ e ∈ es, e.tx = true ∧ (e.kind = .spectrumData ∨ e.kind = .waterfallData))
        ∧ hold = if .waterfallData ∈ es.map Event.kind then s.par.feed.minmaxDelayTx else s.minMaxDelay := by
  obtain ⟨lpf, v, lspec, es1, hspec, hk1, htx1, -⟩ := s.updateSpectrum_frame true
  obtain ⟨lwf, hold, gmin, gmax, md, es2, hwf, -, -, htx⟩ := (s.updateSpectrum true).updateWaterfall_frame true
  obtain ⟨hgmin, hgmax, hmd, htx2, hhold⟩ := htx rfl
  have hspecKind : ∀ e ∈ es1, e.kind = .spectrumData := fun e he => by
    simpa using hk1.subset (List.mem_map_of_mem he)
  refine ⟨lpf, v, lspec, lwf, hold, es1 ++ es2, ?_, fun e he => ?_, ?_⟩
  · rw [State.produceOutputs_eq, if_neg (by simp), hwf, hgmin, hgmax, hmd, hspec]
    simp [State.withOutputs, State.outputs]
  · rcases List.mem_append.mp he with h | h
    · exact ⟨htx1 e h, .inl (hspecKind e h)⟩
    · exact ⟨(htx2 e h).1, .inr (htx2 e h).2⟩
  · have hiff : .waterfallData ∈ (es1 ++ es2).map Event.kind ↔ es2 ≠ [] := by
      rw [List.mem_map]
      constructor
      · rintro ⟨e, he, hk⟩ rfl
        rw [List.append_nil] at he
        exact EventKind.noConfusion ((hspecKind e he).symm.trans hk)
      · intro hne
        obtain ⟨e, he⟩ := List.exists_mem_of_ne_nil es2 hne
        exact ⟨e, List.mem_append_right es1 he, (htx2 e he).2⟩
    rw [hspec] at hhold
    simp only [hiff, ne_eq, ite_not]
    exact hhold

/-- Settles O34: a settling frame emits nothing; the outputs of a settled one are those of `produceOutputs_tx`. -/
theorem transmitFrameLeavesReceiveState : Obligations.TransmitFrameLeavesReceiveState := by
  intro buf s t hx ht hr
  rw [eq_frame_of_exec_dspSamples hx ht hr]
  have hadec := s.frontEnd_adec_tx (complexSamples buf)
  by_cases hd : s.psdDelay = 0
  · obtain ⟨lpf, v, lspec, lwf, hold, es, hout, htx, hhold⟩ := (s.processSamples (complexSamples buf) true).produceOutputs_tx
    rw [State.frame_of_settled hd, hout]
    exact ⟨rfl, rfl, rfl, rfl, hadec, rfl, rfl, rfl, es, rfl, htx, hhold⟩
  · rw [State.frame_of_settling hd]
    exact ⟨rfl, rfl, rfl, rfl, hadec, rfl, rfl, rfl, [], (List.append_nil _).symm, nofun, rfl⟩

end Machine
end Sys2Proof
end

section
/-! PROOFS. The percentile of the level estimator and the slice maximum of the S-meter (43_autolevel_smeter.md R221, R231 to
R233). -/

namespace Sys2Proof
namespace Bin32

/-! ## The percentile (R221) -/

/-- The ascending sort around its element `k`: the `k` elements before it are not above it, those after it not below it. -/
theorem sortAsc_split {q : List Sc} (hq : ∀ x ∈ q, isNan x = false) {k : Nat} (hk : k < q.length) :
    ∃ below x above, sortAsc q = below ++ x :: above ∧ below.length = k
      ∧ (∀ y ∈ below, orderKey y ≤ orderKey x) ∧ ∀ y ∈ above, orderKey x ≤ orderKey y := by
  have hk' : k < (sortAsc q).length := (sortAsc_length q).symm ▸ hk
  have hsplit : sortAsc q = (sortAsc q).take k ++ (sortAsc q)[k] :: (sortAsc q).drop (k + 1) := by
    rw [← List.drop_eq_getElem_cons hk', List.take_append_drop]
  have hsorted := sortAsc_pairwise hq
  rw [hsplit, List.pairwise_append, List.pairwise_cons] at hsorted
  obtain ⟨-, ⟨habove, -⟩, hbelow⟩ := hsorted
  exact ⟨_, _, _, hsplit, List.length_take_of_le hk'.le, fun y hy => hbelow y hy _ List.mem_cons_self, habove⟩

/-- Settles O37: the counts are those of the sorted vector, read off on both sides of its element K. -/
theorem percentileIsLeastWithEnoughBelow : Obligations.PercentileIsLeastWithEnoughBelow := by
  intro q k hq hk
  obtain ⟨below, x, above, hs, hlen, hbelow, habove⟩ := sortAsc_split hq hk
  have hperm : (below ++ x :: above).Perm q := hs ▸ sortAsc_perm q
  have hn : ∀ y ∈ below ++ x :: above, isNan y = false := fun y hy => hq y (hperm.mem_iff.mp hy)
  have hx : x ∈ below ++ x :: above := by simp
  refine ⟨x, hperm.mem_iff.mp hx, by rw [hs, ← hlen]; simp, ?_, fun z hz hlt => ?_⟩
  · have hall : below.countP (fun y => le y x) = below.length :=
      List.countP_eq_length.mpr fun y hy => (le_iff (hn y (by simp [hy])) (hn x hx)).mpr (hbelow y hy)
    have hself : le x x = true := (le_iff (hn x hx) (hn x hx)).mpr le_rfl
    rw [← hperm.countP_eq, List.countP_append, hall, List.countP_cons_of_pos (p := fun y => le y x) hself]
    omega
  · obtain ⟨-, -, hzx⟩ := lt_of_lt_true hlt
    have hnone : (x :: above).countP (fun y => le y z) = 0 := by
      refine List.countP_eq_zero.mpr fun y hy hle => ?_
      rw [le_iff (hn y (by simp [hy])) (hq z hz)] at hle
      rcases List.mem_cons.mp hy with rfl | hy
      · omega
      · exact absurd (habove y hy) (by omega)
    rw [← hperm.countP_eq, List.countP_append, hnone, Nat.add_zero, ← hlen]
    exact List.countP_le_length

end Bin32

namespace Machine

/-! ## The slice maximum (R231 to R233) -/

theorem mem_slice_iff {v : List Sc} {lo hi : Nat} (h : lo ≤ hi) {x : Sc} :
    x ∈ slice v lo hi ↔ ∃ i, lo ≤ i ∧ i ≤ hi ∧ v[i]? = some x := by
  simp only [slice, List.mem_iff_getElem?, List.getElem?_take, List.getElem?_drop, Option.ite_none_right_eq_some]
  constructor
  · rintro ⟨j, hj, hx⟩
    exact ⟨lo + j, by omega, by omega, hx⟩
  · rintro ⟨i, hlo, hhi, hx⟩
    exact ⟨i - lo, by omega, by rwa [Nat.add_sub_of_le hlo]⟩

theorem wfBin_lt {p : Params} (h : 1 ≤ p.spg.nWf) (f : Int) : wfBin p f < p.spg.nWf := by
  have hle : wfBin p f ≤ p.spg.nWf - 1 := clampBin_le ..
  omega

/-- The greatest element of a range inside a vector without NaNs. -/
theorem maxOf_slice_spec {v : List Sc} {lo hi : Nat} (h : lo ≤ hi) (hhi : hi < v.length)
    (hv : ∀ x ∈ v, Bin32.isNan x = false) :
    (∃ i, lo ≤ i ∧ i ≤ hi ∧ v[i]? = some (Bin32.maxOf (slice v lo hi)))
      ∧ ∀ i, lo ≤ i → i ≤ hi → Bin32.le (v.getD i 0) (Bin32.maxOf (slice v lo hi)) = true := by
  have hmem : ∀ i, lo ≤ i → i ≤ hi → v.getD i 0 ∈ slice v lo hi := fun i h1 h2 =>
    (mem_slice_iff h).mpr ⟨i, h1, h2, by rw [List.getD_eq_getElem _ _ (by omega), List.getElem?_eq_getElem]⟩
  have hn : ∀ x ∈ slice v lo hi, Bin32.isNan x = false := fun x hx => by
    obtain ⟨i, -, -, hi⟩ := (mem_slice_iff h).mp hx
    exact hv x (List.mem_of_getElem? hi)
  obtain ⟨hmax, hle⟩ := Bin32.maxOf_spec _ (List.ne_nil_of_mem (hmem lo le_rfl h)) hn
  exact ⟨(mem_slice_iff h).mp hmax, fun i h1 h2 =>
    (Bin32.le_iff (hn _ (hmem i h1 h2)) (hn _ hmax)).mpr (hle _ (hmem i h1 h2))⟩

/-- Settles O40: the peak is the greatest element between the two passband bins, which lie inside the vector. -/
theorem smeterKeepsSmoothedLevel : Obligations.SmeterKeepsSmoothedLevel := by
  intro s q
  refine ⟨passbandPeak s.par s.regs q, s.smeter_eq q, fun hq hlen hn => ?_⟩
  exact maxOf_slice_spec min_le_max (hlen ▸ max_lt (wfBin_lt hn _) (wfBin_lt hn _)) hq

end Machine
end Sys2Proof
end

section
/-! PROOFS. The ANF tracker (44_anf.md R241 to R250): the history and its agreement, the gate, the value of one estimation, and
which command moves the published frequency. -/

namespace Sys2Proof
namespace Bin32

/-! ## A value entering a ring (R13) -/

theorem push_nil {α : Type} (x : α) : push [] x = [] := rfl

theorem push_cons {α : Type} (a : α) (r : List α) (x : α) : push (a :: r) x = r ++ [x] := rfl

/-- Whatever is in a ring after a push, its newest element is the one pushed. -/
theorem getLastD_push_of_mem {α : Type} {r : List α} {x y : α} (h : y ∈ push r x) (d : α) : (push r x).getLastD d = x := by
  cases r with
  | nil => simp [push_nil] at h
  | cons a r => rw [push_cons, List.getLastD_concat]

/-! ## Rounding an exact quotient (R14) -/

theorem roundDiv_mul_self (k : Int) {d : Nat} (hd : 0 < d) : roundDiv (k * d) d = k := by
  have hq : (2 * (k * d).natAbs + d) / (2 * d) = k.natAbs := by
    have hnum : 2 * (k * d).natAbs + d = d + k.natAbs * (2 * d) := by
      rw [Int.natAbs_mul, Int.natAbs_natCast]
      ring
    rw [hnum, Nat.add_mul_div_right _ _ (by omega), Nat.div_eq_of_lt (by omega), Nat.zero_add]
  have hneg : k * d < 0 ↔ k < 0 := ⟨fun h => neg_of_mul_neg_left h (by omega), fun h => mul_neg_of_neg_of_pos h (by omega)⟩
  simp only [roundDiv, hq, hneg]
  split <;> omega

end Bin32

namespace Machine

/-! ## Agreement and publication (R248, R249) -/

/-- Once a value has entered the history, agreement is that every entry equals it. -/
theorem forall_mem_push_eq_getLastD_iff (h : List Word) (f d : Word) :
    (∀ x ∈ Bin32.push h f, x = (Bin32.push h f).getLastD d) ↔ ∀ x ∈ Bin32.push h f, x = f :=
  forall₂_congr fun x hx => by rw [Bin32.getLastD_push_of_mem hx]

theorem anfAgree_push (h : List Word) (f : Word) : anfAgree (Bin32.push h f) = true ↔ ∀ x ∈ Bin32.push h f, x = f := by
  simp only [anfAgree, List.all_eq_true, beq_iff_eq, forall_mem_push_eq_getLastD_iff]

theorem State.anfDecide_of_agree {s : State} {f : Word} (ha : anfAgree s.anfHist = true)
    (hv : anfPublish s.par f ≠ s.anfPublished) :
    s.anfDecide f = { s with
      anfPublished := anfPublish s.par f, outIq := s.outIq ++ [⟨.anfFreq, 0, false, [anfPublish s.par f]⟩] } :=
  if_pos (by rw [ha, Bool.true_and]; exact bne_iff_ne.mpr hv)

theorem State.anfDecide_of_not {s : State} {f : Word} (h : ¬ anfAgree s.anfHist = true ∨ anfPublish s.par f = s.anfPublished) :
    s.anfDecide f = s :=
  if_neg (by rw [Bool.and_eq_true, bne_iff_ne]; tauto)

/-! ## The gate (R241) -/

theorem State.anfUpdate_of_closed {s : State} (h : s.timeMs.toNat ≤ s.lastAnfMs.toNat + s.par.feed.anfPeriodMs) :
    s.anfUpdate = s := by
  rcases s.anfUpdate_cases with ⟨-, he⟩ | ⟨hg, -⟩
  · exact he
  · exact absurd ((gatePasses_iff ..).mp hg) (by omega)

theorem State.anfUpdate_of_open {s : State} (h : s.lastAnfMs.toNat + s.par.feed.anfPeriodMs < s.timeMs.toNat) :
    s.anfUpdate = State.anfDecide
      { s with
        lastAnfMs := s.timeMs
        anfHist := Bin32.push s.anfHist (anfValue s.par s.regs (s.anf.getPsd s.par)) }
      (anfValue s.par s.regs (s.anf.getPsd s.par)) := by
  rcases s.anfUpdate_cases with ⟨hg, -⟩ | ⟨-, he⟩
  · exact absurd ((gatePasses_iff ..).mpr h) (by simp [hg])
  · exact he

/-! ## The grid of the bins (R8, R242, R245) -/

/-- Valid parameters make FS_IQ an exact, non-empty number of bins of the ANF grid (R9). -/
theorem Params.valid_anf {p : Params} (h : p.valid = true) :
    1 ≤ p.nAnf ∧ 0 < p.spg.anfDecim * p.spg.anfResHz ∧ p.spg.fsIq = p.nAnf * (p.spg.anfDecim * p.spg.anfResHz) := by
  simp only [Params.valid, Bool.and_eq_true, decide_eq_true_eq, beq_iff_eq] at h
  have hn : 1 ≤ p.nAnf := by tauto
  have hdvd : p.spg.fsIq % (p.spg.anfDecim * p.spg.anfResHz) = 0 := by tauto
  refine ⟨hn, Nat.pos_of_ne_zero fun h0 => ?_, (Nat.div_mul_cancel (Nat.dvd_of_mod_eq_zero hdvd)).symm⟩
  rw [Params.nAnf, h0, Nat.div_zero] at hn
  omega

/-- The candidate is the bin's offset from the centre on the ANF_RES_HZ grid: the rounding of R245 is exact. -/
theorem anfCandidate_eq {p : Params} (h : p.valid = true) (imax : Nat) :
    anfCandidate p imax = ((imax : Int) - (p.nAnf / 2 : Nat)) * p.spg.anfResHz := by
  obtain ⟨hn, hgrid, hfs⟩ := Params.valid_anf h
  have hd : p.spg.anfDecim * p.nAnf * p.spg.anfResHz = p.spg.fsIq := by rw [hfs]; ring
  have hpos : 0 < p.spg.fsIq := hfs ▸ Nat.mul_pos hn hgrid
  rw [anfCandidate, hd, Bin32.roundDiv_mul_self _ hpos, Int.mul_comm]

theorem clampBin_cast {n : Nat} (hn : 1 ≤ n) (i : Int) : (clampBin n i : Int) = max 0 (min ((n : Int) - 1) i) := by
  unfold clampBin; omega

theorem anfBin_cast {p : Params} (hn : 1 ≤ p.nAnf) (f : Int) :
    (anfBin p f : Int) = max 0 (min ((p.nAnf : Int) - 1) ((p.nAnf / 2 : Nat) + f.tdiv p.spg.anfResHz)) :=
  clampBin_cast hn _

theorem anfBin_lt {p : Params} (hn : 1 ≤ p.nAnf) (f : Int) : anfBin p f < p.nAnf := by
  have hle : anfBin p f ≤ p.nAnf - 1 := clampBin_le ..
  omega

/-! ## One estimation (R243 to R246) -/

theorem slice_length {v : List Sc} {lo hi : Nat} (h : lo ≤ hi) (hhi : hi < v.length) : (slice v lo hi).length = hi - lo + 1 := by
  simp only [slice, List.length_take, List.length_drop]; omega

/-- The mean of R244: the greatest values split off, the others summed, each once, and divided by their count. -/
theorem meanWithoutTop_spec {vals : List Sc} (hn : ∀ x ∈ vals, Bin32.isNan x = false) {excl : Nat} (h : excl < vals.length) :
    ∃ (top rest : List Sc) (total : Sc), (top ++ rest).Perm vals ∧ top.length = excl
      ∧ (∀ x ∈ top, ∀ y ∈ rest, Bin32.le y x = true) ∧ Bin32.SumOf rest total
      ∧ meanWithoutTop excl vals = Bin32.divNat total rest.length := by
  have hperm : (Bin32.sortAsc vals).reverse.Perm vals := (List.reverse_perm _).trans (Bin32.sortAsc_perm vals)
  have hlen : (Bin32.sortAsc vals).reverse.length = vals.length := hperm.length_eq
  have hdesc := List.pairwise_reverse.mpr (Bin32.sortAsc_pairwise hn)
  rw [← List.take_append_drop excl (Bin32.sortAsc vals).reverse, List.pairwise_append] at hdesc
  obtain ⟨-, -, hord⟩ := hdesc
  have hnan : ∀ x ∈ (Bin32.sortAsc vals).reverse, Bin32.isNan x = false := fun x hx => hn x (hperm.mem_iff.mp hx)
  have hne : (Bin32.sortAsc vals).reverse.drop excl ≠ [] := List.ne_nil_of_length_pos (by rw [List.length_drop]; omega)
  refine ⟨_, _, _, by rwa [List.take_append_drop], List.length_take_of_le (by omega), fun x hx y hy => ?_,
    Bin32.sum_sumOf .anfMean _ hne, rfl⟩
  exact (Bin32.le_iff (hnan y (List.mem_of_mem_drop hy)) (hnan x (List.mem_of_mem_take hx))).mpr (hord x hx y hy)

/-- A range of at most ANF_TOP_EXCL bins has no tone (R243). -/
theorem anfEstimate_of_le {p : Params} {lo hi : Nat} (h : hi - lo + 1 ≤ p.feed.anfTopExcl) (psd : List Sc) :
    anfEstimate p psd lo hi = 0 := if_pos h

/-- In a larger range the greatest bin is the tone when it exceeds the mean by more than the margin (R244, R245). -/
theorem anfEstimate_of_lt {p : Params} (hv : p.valid = true) {lo hi : Nat} (h : p.feed.anfTopExcl < hi - lo + 1) (psd : List Sc) :
    anfEstimate p psd lo hi
      = if Bin32.lt p.feed.anfMarginDb
            (Bin32.sub (psd.getD (Bin32.argmax psd lo hi) 0) (meanWithoutTop p.feed.anfTopExcl (slice psd lo hi)))
        then ((Bin32.argmax psd lo hi : Int) - (p.nAnf / 2 : Nat)) * p.spg.anfResHz else 0 := by
  rw [anfEstimate, if_neg (by omega), ← anfCandidate_eq hv]

/-- Settles O42: the decision after the gate, then the value on the range between the two passband bins. -/
theorem anfUpdatePublishesAgreement : Obligations.AnfUpdatePublishesAgreement := by
  refine ⟨fun s => ⟨State.anfUpdate_of_closed, ?_⟩, ?_⟩
  · intro hopen f v s1
    have hupdate : s.anfUpdate = s1.anfDecide f := State.anfUpdate_of_open hopen
    have hagree : anfAgree s1.anfHist = true ↔ ∀ x ∈ s1.anfHist, x = f := anfAgree_push s.anfHist f
    rw [hupdate]
    refine ⟨fun hall hne => State.anfDecide_of_agree (hagree.mpr hall) hne, fun h => State.anfDecide_of_not ?_⟩
    rw [hagree]
    exact h.imp_left fun ⟨x, hx, hne⟩ hall => hne (hall x hx)
  · intro p r psd hv hlen hnan n bin lo hi range imax
    obtain ⟨hn, -⟩ := Params.valid_anf hv
    have hbin : ∀ f, bin f = anfBin p f := fun f => (anfBin_cast hn f).symm
    have hlo : lo = min (anfBin p r.filterLow.toInt) (anfBin p r.filterHigh.toInt) := by simp only [lo, hbin]; omega
    have hhi : hi = max (anfBin p r.filterLow.toInt) (anfBin p r.filterHigh.toInt) := by simp only [hi, hbin]; omega
    have hvalue : anfValue p r psd
        = BitVec.ofInt 32 (if r.lsb then -anfEstimate p psd lo hi else anfEstimate p psd lo hi) := by rw [hlo, hhi]; rfl
    have hle : lo ≤ hi := by omega
    have hlt : hi < p.nAnf := hhi ▸ max_lt (anfBin_lt hn _) (anfBin_lt hn _)
    refine ⟨hlt, fun hsmall => ?_, fun hlarge => ?_⟩
    · rw [hvalue, anfEstimate_of_le hsmall]
      simp
    · obtain ⟨top, rest, total, hperm, htop, hord, hsum, hmean⟩ :=
        meanWithoutTop_spec (vals := range) (excl := p.feed.anfTopExcl)
          (fun x hx => hnan x (List.mem_of_mem_drop (List.mem_of_mem_take hx)))
          ((slice_length hle (hlen ▸ hlt)).symm ▸ hlarge)
      refine ⟨top, rest, total, hperm, htop, hord, hsum, ?_⟩
      rw [hvalue, anfEstimate_of_lt hv hlarge, ← hmean]
      rfl

/-! ## Who moves the published frequency (R250) -/

/-- A frame that moves the published frequency has one new value in the history, which agrees on it. -/
theorem State.frame_anfPublished (s : State) (tx : Bool) (buf : List Cx) :
    (s.frame tx buf).anfPublished = s.anfPublished
      ∨ ∃ f, (s.frame tx buf).anfHist = Bin32.push s.anfHist f ∧ (∀ x ∈ Bin32.push s.anfHist f, x = f)
          ∧ (s.frame tx buf).anfPublished = anfPublish s.par f := by
  obtain ⟨d, o, hf, -, -, -, -, hpub, -⟩ := s.frame_frame tx buf
  rw [hf]
  rcases hpub with hsame | ⟨f, hhist, hagree, hpub⟩
  · exact .inl hsame
  · rw [hhist, forall_mem_push_eq_getLastD_iff] at hagree
    exact .inr ⟨f, hhist, hagree, hpub⟩

/-- No command but DSP.SAMPLES has an effect on the published frequency. -/
theorem effect_anfPublished (i : Instr) (s : State) :
    (effect i s).anfPublished = s.anfPublished ∨ ∃ tx buf, i = .dspSamples tx buf := by
  cases i
  case dspSamples tx buf => exact .inr ⟨tx, buf, rfl⟩
  case dspRst mask =>
    left
    simp only [effect]
    cases mask.getLsbD 0 <;> cases mask.getLsbD 1 <;> rfl
  case audSamples ws =>
    obtain ⟨hd, acc, dec, cw, es, hf⟩ := State.audioFold_frame ws s
    exact .inl (by rw [effect, hf])
  all_goals exact .inl (by simp [effect])

/-- Settles O43: a fault and every other command leave the published frequency; a frame moves it only by agreement. -/
theorem anfPublishedOnlyOnAgreement : Obligations.AnfPublishedOnlyOnAgreement := by
  intro i s t hx hne
  rcases exec_cases i s with ⟨f, -, he⟩ | ⟨-, he⟩ <;> rw [he] at hx <;> cases hx
  · exact absurd rfl hne
  · obtain ⟨tx, buf, rfl⟩ := (effect_anfPublished i s).resolve_left hne
    obtain ⟨f, hhist, hagree, hpub⟩ := (s.frame_anfPublished tx (complexSamples buf)).resolve_left hne
    refine ⟨⟨tx, buf, rfl⟩, f, hhist, fun x hx => hagree x (hhist ▸ hx), fun a b c habc => ?_, hpub⟩
    have hpush : Bin32.push s.anfHist f = [b, c, f] := by rw [habc]; rfl
    have hb : b = f := hagree b (by simp [hpush])
    have hc : c = f := hagree c (by simp [hpush])
    exact ⟨hb, hc, by rw [effect, hhist, hpush, hb, hc]⟩

end Machine
end Sys2Proof
end

section
/-! PROOFS. The trigger of the CW decoder over one level and over a list of levels (R277, R278, R280), and what AUD.SAMPLES
changes (R31, R260). -/

namespace Sys2Proof
namespace Machine

/-! ## One judged level (R277, R278) -/

theorem schmitt_of_off (r pulse silence : Sc) : schmitt false r pulse silence = Bin32.lt pulse r := rfl

theorem schmitt_of_on (r pulse silence : Sc) : schmitt true r pulse silence = !Bin32.lt r silence := rfl

theorem cwSignalEvent_eq (p : Params) (on : Bool) :
    cwSignalEvent p on = ⟨.cwSignal, 0, false, [if on then 1 else 0, p.durMs]⟩ := by cases on <;> rfl

/-- Settles O48: the flag is the trigger's answer, by cases on the flag before. -/
theorem judgeIsSchmittTrigger : Obligations.JudgeIsSchmittTrigger := by
  intro c p r
  refine ⟨⟨schmitt c.peakOn r c.thresholdPulse c.thresholdSilence, ?_, fun hoff => ?_, fun hon => ?_⟩, rfl⟩
  · exact congrArg (fun e => (_, [e])) (cwSignalEvent_eq p _)
  · rw [hoff, schmitt_of_off]
  · rw [hon, schmitt_of_on, Bool.not_eq_false']

/-! ## A list of judged levels (R277, R280) -/

/-- A level above the pulse threshold is not below a lower silence threshold. -/
theorem not_below_silence_of_above_pulse {pulse silence r : Sc} (hsp : Bin32.lt silence pulse = true)
    (hr : Bin32.lt pulse r = true) : Bin32.lt r silence = false := by
  obtain ⟨-, -, hsilence⟩ := Bin32.lt_of_lt_true hsp
  obtain ⟨-, -, hpulse⟩ := Bin32.lt_of_lt_true hr
  refine Bool.eq_false_iff.mpr fun hlow => ?_
  obtain ⟨-, -, hbelow⟩ := Bin32.lt_of_lt_true hlow
  omega

/-- With the silence threshold below the pulse threshold the two rows of R277 that end on do not depend on each other's state. -/
theorem schmitt_eq_true_iff {pulse silence : Sc} (hsp : Bin32.lt silence pulse = true) (on : Bool) (r : Sc) :
    schmitt on r pulse silence = true ↔ (on = true ∧ Bin32.lt r silence = false) ∨ Bin32.lt pulse r = true := by
  cases on with
  | false => simp [schmitt_of_off]
  | true =>
    rw [schmitt_of_on, Bool.not_eq_true']
    exact ⟨fun h => .inl ⟨rfl, h⟩, fun h => h.elim (·.2) (not_below_silence_of_above_pulse hsp)⟩

/-- Some level of the list is above the pulse threshold, and none after it is below the silence threshold. -/
def SwitchedOnAndKept (pulse silence : Sc) (rs : List Sc) : Prop :=
  ∃ older r newer, rs = older ++ r :: newer ∧ Bin32.lt pulse r = true ∧ ∀ x ∈ newer, Bin32.lt x silence = false

theorem not_switchedOnAndKept_nil (pulse silence : Sc) : ¬SwitchedOnAndKept pulse silence [] := by
  simp [SwitchedOnAndKept]

/-- The level that switches on is the first of the list, or is in the rest. -/
theorem switchedOnAndKept_cons {pulse silence r : Sc} {rs : List Sc} :
    SwitchedOnAndKept pulse silence (r :: rs)
      ↔ (Bin32.lt pulse r = true ∧ ∀ x ∈ rs, Bin32.lt x silence = false) ∨ SwitchedOnAndKept pulse silence rs := by
  constructor
  · rintro ⟨_ | ⟨y, older⟩, r', newer, heq, hon, hkept⟩
    · obtain ⟨rfl, rfl⟩ := List.cons.inj heq
      exact .inl ⟨hon, hkept⟩
    · exact .inr ⟨older, r', newer, (List.cons.inj heq).2, hon, hkept⟩
  · rintro (⟨hon, hkept⟩ | ⟨older, r', newer, rfl, hon, hkept⟩)
    · exact ⟨[], r, rs, rfl, hon, hkept⟩
    · exact ⟨r :: older, r', newer, rfl, hon, hkept⟩

theorem schmittFold_eq_true_iff {pulse silence : Sc} (hsp : Bin32.lt silence pulse = true) (rs : List Sc) : ∀ start : Bool,
    (rs.foldl (fun on r => schmitt on r pulse silence) start = true
      ↔ (start = true ∧ ∀ r ∈ rs, Bin32.lt r silence = false) ∨ SwitchedOnAndKept pulse silence rs) := by
  induction rs with
  | nil => simp [not_switchedOnAndKept_nil]
  | cons r rs ih =>
    intro start
    rw [List.foldl_cons, ih, schmitt_eq_true_iff hsp, switchedOnAndKept_cons, List.forall_mem_cons, or_and_right, and_assoc,
      or_assoc]

/-- Settles O49: the fold of the trigger, by induction over the levels from any starting flag. -/
theorem hysteresisOverSequences : Obligations.HysteresisOverSequences :=
  fun _ _ start rs hsp => schmittFold_eq_true_iff hsp rs start

/-! ## AUD.SAMPLES (R31, R260) -/

/-- The loop of AUD.SAMPLES appends CW_SIGNAL and CW_TUNE events alone. -/
theorem State.audioFold_events (ws : List Word) : ∀ s : State, ∃ es : List Event,
    (ws.foldl State.audioStep s).outAud = s.outAud ++ es ∧ ∀ e ∈ es, e.kind = .cwSignal ∨ e.kind = .cwTune := by
  induction ws with
  | nil => exact fun s => ⟨[], (List.append_nil _).symm, by simp⟩
  | cons w ws ih =>
    intro s
    obtain ⟨acc, dec, cw, es, hstep, hkind, -⟩ := s.audioStep_frame w
    obtain ⟨es', hout, hkind'⟩ := ih (s.audioStep w)
    refine ⟨es ++ es', ?_, List.forall_mem_append.mpr ⟨hkind, hkind'⟩⟩
    rw [List.foldl_cons, hout, hstep, List.append_assoc]

/-- Settles O44: the command is the loop over its samples; the loop over two lists is two loops, and the port stays. -/
theorem audSamplesStaysInCwDomain : Obligations.AudSamplesStaysInCwDomain := by
  intro ws vs s hcur
  refine ⟨⟨_, exec_audSamples hcur ws, ?_⟩, exec_audSamples hcur []⟩
  have hevents := State.audioFold_events ws s
  have hframe := exec_audSamples_frame hcur (exec_audSamples hcur ws)
  have hboth := exec_audSamples hcur (ws ++ vs)
  rw [List.foldl_append] at hboth
  generalize ws.foldl State.audioStep s = t at hevents hframe hboth ⊢
  have hcur' : t.cur = .aud := by rw [hframe, hcur]
  have happend : exec (.audSamples (ws ++ vs)) s = exec (.audSamples vs) t := hboth.trans (exec_audSamples hcur' vs).symm
  refine ⟨?_, ?_, ?_, ?_, ?_, ?_, ?_, hevents, happend⟩ <;> rw [hframe]
  · simp only [SameGlobal, and_self]
  · simp only [SameInputs, and_self]
  · simp only [SameIq, and_self]

end Machine
end Sys2Proof
end

section
/-! PROOFS. The control commands NOP, CFG.WR, CFG.RD, DSP.RST, ZOOM and CW.TONE (46_control.md R301 to R306), and the words
of an event (R123). -/

namespace Sys2Proof

/-! ## Headers that carry ARG alone (R112, R114) -/

/-- The header of formats A and AW: the opcode, a byte of zero, and ARG. -/
theorem header_arg (opc : BitVec 8) (arg : BitVec 16) :
    header opc 0 false arg = ((opc ++ 0#8 : BitVec 16) ++ arg : BitVec 32) := by
  calc header opc 0 false arg = opc ++ 0#4 ++ (0#3 ++ 0#1) ++ arg :=
        congrArg (· ++ arg) (BitVec.append_assoc (x₁ := opc ++ 0#4) (x₂ := 0#3) (x₃ := 0#1))
    _ = (opc ++ 0#8 : BitVec 16) ++ arg :=
        congrArg (· ++ arg) (BitVec.append_assoc (x₁ := opc) (x₂ := 0#4) (x₃ := 0#4))

/-- A command decodes from its header with ARG and its payload, whatever follows. -/
theorem decode_of_encode_arg {i : Instr} {opc : BitVec 8} {arg : BitVec 16} {payload : List Word} (hw : i.wellFormed = true)
    (he : encode i = header opc 0 false arg :: payload) (more : List Word) :
    decode (((opc ++ 0#8 : BitVec 16) ++ arg : BitVec 32) :: (payload ++ more)) = .ok i := by
  obtain ⟨hd, -⟩ := decode_encode hw more
  rwa [he, header_arg] at hd

/-- The domain mask of DSP.RST fills ARG with zeros above it (R304). -/
theorem mask_setWidth : ∀ m : BitVec 2, m.setWidth 16 = (0#14 ++ m : BitVec 16) := by decide

/-- Bits 15:2 of DSP.RST's ARG are reserved (R114, R304). -/
theorem decode_dspRst_reserved {x : BitVec 14} (hx : x ≠ 0) (m : BitVec 2) (more : List Word) :
    decode (((0x0300#16 ++ (x ++ m : BitVec 16) : BitVec 32)) :: more) = .error .badEncoding := by
  have hh : (0x0300#16 ++ (x ++ m : BitVec 16) : BitVec 32) = header 0x03 0 false (x ++ m) := (header_arg 0x03 (x ++ m)).symm
  have hrow : opcodeRow (header 0x03 0 false (x ++ m)) = some opcodeMap[3] := by rw [opcodeRow, hdrOpc_header]; rfl
  have hlen : commandLength (header 0x03 0 false (x ++ m)) = 1 := Laws.EncodedLength.length_fixed (k := 3) rfl rfl
  rw [hh]
  refine decode_badEncoding hrow (fun hm => hx ?_) (by rw [hlen]; simp)
  obtain ⟨m', he⟩ := eq_header_mask (o := 0x03) hm
  have harg := congrArg hdrArg he
  rw [hdrArg_header, hdrArg_header, mask_setWidth] at harg
  exact (bitVec_append_inj.mp harg).1

/-! ## Legal operands (R177, R306) -/

theorem Params.zoomLegal_iff (p : Params) (z : Nat) :
    p.zoomLegal z = true ↔ 1 ≤ z ∧ z ≤ p.spg.zoomMax ∧ z ∣ p.spg.radioChunk := by
  rw [zoomLegal, Bool.and_eq_true, Bool.and_eq_true, decide_eq_true_iff, decide_eq_true_iff, beq_iff_eq,
    ← Nat.dvd_iff_mod_eq_zero, and_assoc]

theorem Params.toneLegal_iff (p : Params) (f : Nat) : p.toneLegal f = true ↔ f ≠ 0 ∧ 2 * f < p.cw.fsAudio := by
  rw [toneLegal, Bool.and_eq_true, decide_eq_true_iff, bne_iff_ne]

namespace Machine

/-! ## NOP (R301) -/

/-- The headers of opcode 0 but the all-zero word have a reserved bit set (R115). -/
theorem step_port_of_nop_reserved {s : State} {p : Port} {rest : List Turn} {x : BitVec 24} {more : List Word}
    (ha : s.agenda = .port p :: rest) (hr : s.run = .run) (hs : s.stream p = (0x00#8 ++ x : BitVec 32) :: more) (hx : x ≠ 0) :
    step s = .next { State.setStream { s with agenda := rest } p more with cur := p, run := .fault, faultCode := 2 } := by
  have hopc : hdrOpc (0x00#8 ++ x : BitVec 32) = 0x00 := hdrOpc_append 0x00 x
  have hrow : opcodeRow (0x00#8 ++ x : BitVec 32) = some opcodeMap[0] := opcodeRow_eq_some (by decide) hopc.symm
  have hlen : commandLength (0x00#8 ++ x : BitVec 32) = 1 := by
    simp only [commandLength, hrow]
    exact congrArg (1 + ·) (Nat.zero_mul _)
  have hm : (0x00#8 ++ x : BitVec 32) &&& BitVec.allOnes 32 ≠ 0 := by
    rw [BitVec.and_allOnes]
    exact fun h => hx (bitVec_append_inj (x' := 0x00#8) (y' := 0#24).mp h).2
  obtain ⟨-, hbad⟩ := illegalHeaderHalts s p rest _ more ha hr hs
  have hstep := hbad opcodeMap[0] (by decide) hopc.symm hm (by rw [hlen]; simp)
  rwa [hlen] at hstep

/-- Settles O15: the all-zero word is NOP's encoding; the other words of opcode 0 fail NOP's mask. -/
theorem nopHasNoEffect : Obligations.NopHasNoEffect := by
  refine ⟨fun more => (decode_encode (i := .nop) rfl more).1, fun _ => rfl, fun s p rest x more ha hr hs => ?_⟩
  by_cases hx : x = 0
  · subst hx
    rw [if_pos rfl]
    exact stepRunsEncodedCommand s p rest .nop more rfl ha hr hs
  · rw [if_neg hx]
    exact step_port_of_nop_reserved ha hr hs hx

/-! ## CFG.RD and the words of an event (R123, R303) -/

/-- An event's words: its header as a number, then its payload. -/
theorem Event.words_eq (e : Event) :
    e.words = BitVec.ofNat 32 (e.kind.code.toNat * 2 ^ 24 + e.unit.toNat * 2 ^ 20 + (if e.tx then 1 else 0) * 2 ^ 16
      + e.payload.length % 2 ^ 16) :: e.payload := by
  have htx : e.tx.toNat = if e.tx then 1 else 0 := by cases e.tx <;> rfl
  have hh := header_toNat e.kind.code e.unit e.tx (BitVec.ofNat 16 e.payload.length)
  rw [htx, BitVec.toNat_ofNat] at hh
  rw [← hh, BitVec.ofNat_toNat, BitVec.setWidth_eq]
  rfl

theorem exec_cfgRd_none {i : BitVec 16} {s : State} (h : s.readReg i = none) :
    exec (.cfgRd i) s = .next (raise .badReg s) := by simp only [exec, execCfgRd, h]

theorem exec_cfgRd_some {i : BitVec 16} {s : State} {v : Word} (h : s.readReg i = some v) :
    exec (.cfgRd i) s = .next (s.emit s.cur (.plain .rdData [v])) := by simp only [exec, execCfgRd, h]

/-- Settles O17: the register decides between BAD_REG and the one event; each kind has its code. -/
theorem cfgRdReportsRegister : Obligations.CfgRdReportsRegister := by
  refine ⟨fun i more => decode_of_encode_arg (i := .cfgRd i) (opc := 0x02) (payload := []) rfl rfl more, fun i s =>
    ⟨fun hnone => exec_cfgRd_none hnone, fun v hv => exec_cfgRd_some hv, fun kc hkc u tx payload => ?_⟩⟩
  have hcode : kc.1.code.toNat = kc.2 := by revert kc; decide
  rw [Event.words_eq, hcode]

/-! ## CFG.WR (R39, R302) -/

theorem writable_iff (i : BitVec 16) :
    writable i = true ↔ i.toNat ∈ [0x02, 0x03, 0x04, 0x06, 0x07, 0x08, 0x09, 0x0A] := by
  unfold writable
  split <;> simp_all

/-- MODE's bits 31:6 are zero exactly in the numbers below 64 (R37). -/
theorem modeBits_eq_zero_iff (w : Word) : w.extractLsb' 6 26 = 0 ↔ w.toNat < 64 := by
  rw [← BitVec.toNat_inj, BitVec.extractLsb'_toNat, Nat.shiftRight_eq_div_pow]
  have hw := w.isLt
  have h0 : (0 : BitVec 26).toNat = 0 := rfl
  omega

/-- CW_GIST's operand: admitted and above 0. -/
theorem admitted_and_zero_lt_iff (inMax w : Sc) :
    (Bin32.admitted inMax w && Bin32.lt 0 w) = true
      ↔ (Bin32.isFinite w = true ∧ Bin32.mag w ≤ Bin32.mag inMax) ∧ 0 < Bin32.fix w := by
  rw [Bool.and_eq_true, admitted_iff]
  exact and_congr_right fun hadm => by rw [Bin32.lt_fix (by decide) hadm.1, Bin32.fix_zero]

/-- A smoothing factor's operand: admitted and in [0, 1]. -/
theorem admitted_and_inUnit_iff (inMax w : Sc) :
    (Bin32.admitted inMax w && Bin32.inUnit w) = true
      ↔ (Bin32.isFinite w = true ∧ Bin32.mag w ≤ Bin32.mag inMax) ∧ 0 ≤ Bin32.fix w ∧ Bin32.fix w ≤ 2 ^ 149 := by
  rw [Bool.and_eq_true, admitted_iff]
  exact and_congr_right fun hadm => Bin32.inUnit_iff hadm.1

/-- The legal values of the writable registers, in exact values (R39). -/
theorem legalValue_iff {inMax : Sc} {i : BitVec 16} {w : Word}
    (hi : i.toNat ∈ [0x02, 0x03, 0x04, 0x06, 0x07, 0x08, 0x09, 0x0A]) :
    legalValue inMax i w = true
      ↔ (i.toNat = 0x02 → w.toNat < 64)
        ∧ (i.toNat ∈ [0x06, 0x07, 0x08, 0x09, 0x0A] → Bin32.isFinite w = true ∧ Bin32.mag w ≤ Bin32.mag inMax)
        ∧ (i.toNat = 0x07 → 0 < Bin32.fix w)
        ∧ (i.toNat ∈ [0x08, 0x09, 0x0A] → 0 ≤ Bin32.fix w ∧ Bin32.fix w ≤ 2 ^ 149) := by
  simp only [List.mem_cons, List.not_mem_nil, or_false] at hi
  rcases hi with h | h | h | h | h | h | h | h
  · simpa [legalValue, h] using modeBits_eq_zero_iff w
  · simp [legalValue, h]
  · simp [legalValue, h]
  · simpa [legalValue, h] using admitted_iff inMax w
  · simpa [legalValue, h] using admitted_and_zero_lt_iff inMax w
  all_goals simpa [legalValue, h] using admitted_and_inUnit_iff inMax w

/-- CFG.WR on a writable register: the value alone decides. -/
theorem exec_cfgWr_eq {i : BitVec 16} (w : Word) (s : State) (hw : writable i = true) :
    exec (.cfgWr i w) s
      = guarded [(!legalValue s.par.spg.inMax i w, .badValue)] s { s with regs := s.regs.write i w } :=
  (guarded_pass (by rw [populated_of_writable hw]; rfl) ..).trans (guarded_pass (by rw [hw]; rfl) ..)

/-- Settles O16: the three checks stand aside or fail in their order; the register file is read back after the write. -/
theorem cfgWrWritesOneRegister : Obligations.CfgWrWritesOneRegister := by
  refine ⟨fun i w more => decode_of_encode_arg (i := .cfgWr i w) (opc := 0x01) (payload := [w]) rfl rfl more,
    fun i w s => ⟨fun hnone => ?_, fun hsome hro => ?_, fun hrw hbad => ?_, fun hrw hlegal => ?_⟩⟩
  · have hpop : populated i = false := by rw [← s.readReg_isSome, hnone]; rfl
    exact guarded_fail (by rw [hpop]; rfl) ..
  · have hpop : populated i = true := by rw [← s.readReg_isSome, Option.isSome_iff_ne_none]; exact hsome
    have hw : writable i = false := by rw [← Bool.not_eq_true, writable_iff]; exact hro
    exact (guarded_pass (by rw [hpop]; rfl) ..).trans (guarded_fail (by rw [hw]; rfl) ..)
  · have hv : legalValue s.par.spg.inMax i w = false := by rw [← Bool.not_eq_true, legalValue_iff hrw]; exact hbad
    exact (exec_cfgWr_eq w s ((writable_iff i).mpr hrw)).trans (guarded_fail (by rw [hv]; rfl) ..)
  · have hw := (writable_iff i).mpr hrw
    have hv := (legalValue_iff (inMax := s.par.spg.inMax) hrw).mpr hlegal
    exact ⟨_, (exec_cfgWr_eq w s hw).trans (guarded_pass (by rw [hv]; rfl) ..), rfl,
      CfgRegs.readReg_write_same s i w hw, fun j hj => CfgRegs.readReg_write_other s i j w hj⟩

/-! ## DSP.RST (R304) -/

/-- The IQ half of the mask alone decides what becomes of the IQ domain. -/
theorem effect_dspRst_iq (m : BitVec 2) (s : State) :
    SameIq (if m.getLsbD 0 then s.resetIqDomain else s) (effect (.dspRst m) s) := by
  simp only [effect]
  cases m.getLsbD 0 <;> cases m.getLsbD 1 <;> simp [SameIq]

/-- The CW half of the mask alone decides what becomes of the CW domain: the IQ half moves neither the parameters nor CW_SNR and
CW_GIST. -/
theorem effect_dspRst_cw (m : BitVec 2) (s : State) :
    SameCw (if m.getLsbD 1 then s.resetCwDomain else s) (effect (.dspRst m) s) := by
  simp only [effect]
  cases m.getLsbD 0 <;> cases m.getLsbD 1 <;> simp [SameCw]

/-- What DSP.RST keeps for every mask. -/
theorem effect_dspRst_frame (m : BitVec 2) (s : State) :
    SameGlobal s (effect (.dspRst m) s) ∧ SameInputs s (effect (.dspRst m) s) ∧ SameEvents s (effect (.dspRst m) s)
      ∧ (effect (.dspRst m) s).regs = s.regs := by
  simp only [effect]
  cases m.getLsbD 0 <;> cases m.getLsbD 1 <;> simp [SameGlobal, SameInputs, SameEvents]

/-- Settles O19: each domain is that of its own reset or the old one, and the resets are those of R304. -/
theorem dspRstResetsDomains : Obligations.DspRstResetsDomains := by
  refine ⟨fun m more => ?_, fun x m more hx => decode_dspRst_reserved hx m more,
    fun m s => ⟨effect (.dspRst m) s, rfl, ?_⟩⟩
  · rw [← mask_setWidth]
    exact decode_of_encode_arg (i := .dspRst m) (opc := 0x03) (payload := []) rfl rfl more
  have hiq := effect_dspRst_iq m s
  have hcw := effect_dspRst_cw m s
  obtain ⟨hglobal, hinputs, hevents, hregs⟩ := effect_dspRst_frame m s
  generalize effect (.dspRst m) s = t at hiq hcw hglobal hinputs hevents hregs ⊢
  refine ⟨hglobal, hinputs, hevents, hregs, fun h0 => ?_, fun h0 => ?_, fun h1 => ?_, fun h1 => ?_⟩
  · rwa [h0] at hiq
  · rw [h0] at hiq
    obtain ⟨hspectrum, hwaterfall, hanf, hdcb, hzdecM, hzdec, hadec, hpsd, hminmax, hspec, hwf, hanfMs, hlpf, hvalid, hmin, hmax,
      hmeter, hhist, hpub⟩ := hiq
    have hunit : ∀ u : UnitId, t.unit u = (s.unit u).clear
      | .spectrum => hspectrum
      | .waterfall => hwaterfall
      | .anf => hanf
    exact ⟨hunit, hdcb, hzdecM, hzdec, hadec, hpsd, hminmax, hvalid, hhist, hlpf, hspec, hwf, hanfMs, hmin, hmax, hmeter, hpub⟩
  · rwa [h1] at hcw
  · rw [h1] at hcw
    obtain ⟨hhilb, hacc, hftw, hcwdec, hcw⟩ := hcw
    rw [hcw]
    exact ⟨hhilb, hacc, hftw, hcwdec, rfl, rfl, rfl, rfl, rfl, rfl, rfl, rfl, rfl, rfl, rfl⟩

/-! ## ZOOM and CW.TONE (R305, R306) -/

/-- Settles O20: the one check is R177's, and the effect is `setZoom`. -/
theorem zoomRebuildsUnitZero : Obligations.ZoomRebuildsUnitZero := by
  refine ⟨fun z more => decode_of_encode_arg (i := .zoom z) (opc := 0x04) (payload := []) rfl rfl more,
    fun z s => ⟨fun hbad => ?_, fun hlegal => ?_⟩⟩
  · rw [← Params.zoomLegal_iff, Bool.not_eq_true] at hbad
    exact guarded_fail (by rw [hbad]; rfl) ..
  · rw [← Params.zoomLegal_iff] at hlegal
    exact guarded_pass (by rw [hlegal]; rfl) ..

/-- Settles O21: the one check is R306's, and the effect is `setTone`. -/
theorem cwToneRetunesDds : Obligations.CwToneRetunesDds := by
  refine ⟨fun f more => decode_of_encode_arg (i := .cwTone f) (opc := 0x05) (payload := []) rfl rfl more,
    fun f s => ⟨fun hbad => ?_, fun hlegal => ?_⟩⟩
  · have hillegal : s.par.toneLegal f.toNat = false := by
      rw [← Bool.not_eq_true, Params.toneLegal_iff]
      omega
    exact guarded_fail (by rw [hillegal]; rfl) ..
  · rw [← Params.toneLegal_iff] at hlegal
    exact guarded_pass (by rw [hlegal]; rfl) ..

end Machine
end Sys2Proof
end

section
/-! PROOFS. Faults and the halted block (60_exceptions.md R331 to R334, R340, R344): the tick of the time base, the turns a halted
block takes, the precise faults of every command, and the port check before all others. -/

namespace Sys2Proof
namespace Machine

/-! ## The tick of the time base (R344) -/

theorem step_of_tick {s : State} {d : Nat} {rest : List Turn} (ha : s.agenda = .tick d :: rest)
    (hd : s.timeMs.toNat + d < 2 ^ 64) :
    step s = .next { s with agenda := rest, timeMs := BitVec.ofNat 64 (s.timeMs.toNat + d) } := by
  rw [step, ha]
  exact if_pos hd

/-- A tick below the end of the counter adds without wrapping. -/
theorem toNat_tickedTime {now : BitVec 64} {d : Nat} (hd : now.toNat + d < 2 ^ 64) :
    (BitVec.ofNat 64 (now.toNat + d)).toNat = now.toNat + d := by
  rw [BitVec.toNat_ofNat, Nat.mod_eq_of_lt hd]

/-- Settles O12: `step_of_tick` is the next state, whose time has not wrapped. -/
theorem tickAdvancesOnlyTime : Obligations.TickAdvancesOnlyTime :=
  fun _ _ _ ha hd => ⟨_, step_of_tick ha hd, rfl, toNat_tickedTime hd⟩

/-! ## The halted block (R331) -/

/-- Settles O9: by the turn taken. On a halted block an arriving word and a port's turn change nothing (`haltedBlockRunsNothing`), and a
tick only the time, upwards. -/
theorem onlyResetLeavesFault : Obligations.OnlyResetLeavesFault := by
  intro s t hfault hrst hstep
  rcases step_cases hstep with ⟨d, rest, ha, hd, rfl⟩ | ⟨p, w, rest, ha, -⟩ | ⟨rest, ha, -⟩ | ⟨p, rest, ha, -⟩
  · rw [ha]
    exact ⟨rfl, (toNat_tickedTime hd).symm ▸ Nat.le_add_right ..⟩
  · obtain ⟨-, -, harrive⟩ := haltedBlockRunsNothing s p w rest
    cases hstep.symm.trans (harrive hfault ha)
    rw [ha]
    exact ⟨rfl, le_rfl⟩
  · exact absurd (congrArg List.head? ha) hrst
  · obtain ⟨-, hport, -⟩ := haltedBlockRunsNothing s p 0 rest
    cases hstep.symm.trans (hport hfault ha)
    rw [ha]
    exact ⟨rfl, le_rfl⟩

/-! ## Precise faults (R331, R332) -/

/-- The codes of the faults that a command's own checks raise (R332). -/
theorem FaultCode.code_of_check {f : FaultCode}
    (hf : f ∈ [FaultCode.badUnit, .badLength, .badReg, .roWrite, .badValue, .wrongPort]) :
    3 ≤ f.code.toNat ∧ f.code.toNat ≤ 8 := by
  revert f
  decide

/-- Settles O13: a command raises one of its checks' faults, or has its effect, which leaves the run state and the code. -/
theorem faultsArePrecise : Obligations.FaultsArePrecise := by
  intro i s
  rcases exec_cases i s with ⟨f, hf, hraise⟩ | ⟨-, heffect⟩
  · exact ⟨raise f s, hraise, .inr ⟨rfl, FaultCode.code_of_check hf⟩⟩
  · obtain ⟨-, hrun, hcode, -⟩ := effect_marks i s
    exact ⟨effect i s, heffect, .inl ⟨hrun, hcode⟩⟩

/-! ## The port check (R334, R340) -/

/-- Settles O14: WRONG_PORT is the first check of each of the seven commands. -/
theorem wrongPortRaisesFirst : Obligations.WrongPortRaisesFirst := by
  refine fun s u v chunk tx ws => ⟨fun hport i hi => ?_, fun hport => guarded_fail (notOnPort_of_ne hport) ..⟩
  simp only [List.mem_cons, List.not_mem_nil, or_false] at hi
  rcases hi with rfl | rfl | rfl | rfl | rfl | rfl <;> exact guarded_unit_wrongPort hport ..

end Machine
end Sys2Proof
end
